-- ==== Sys2Proof/Word.lean ====
section
/-! DEFINITION. The word types of the RSP framer/codec engine (spec/00_scope.md section 6.1, R4, R71, R75). -/

namespace Sys2Proof

/-- A byte: bit 7 is the most significant (spec/00_scope.md section 6.1). -/
abbrev Byte := BitVec 8

/-- An index, length or count: `IDX_W` = 16 bits, unsigned (R4, R12). -/
abbrev Idx := BitVec 16

/-- A command word `CMD[47:0]` (R71). -/
abbrev CmdWord := BitVec 48

/-- A response word `RSP[39:0]` (R75). -/
abbrev RspWord := BitVec 40

end Sys2Proof
end

