-- ==== Sys2Proof/Syntax.lean ====
section
/-! DEFINITION. The seventeen operations of the engine as syntax: one constructor per row of
spec/opcode_table.json (R70, R72, R73). -/

namespace Sys2Proof

/-- Packet type (R73): the reserved number 3 has no member, the decoder refuses it (R74). -/
inductive PacketType where
  | ack
  | msg
  | notif
  deriving DecidableEq, Repr

/-- Delimiter mode of `TOK.ADV` (R73, R192): the literal byte, the "single character" sentinel, the
"end of buffer" sentinel. The reserved number 3 has no member, the decoder refuses it (R74). -/
inductive DelimMode where
  | literal
  | single
  | toEnd
  deriving DecidableEq, Repr

/-- The operations, in the order of the table (R70), each with the operands of R72. -/
inductive Instr where
  /-- `CSUM.CALC base, len` (R101). -/
  | csumCalc (base len : Idx)
  /-- `HEX.DEC c0, c1, avail` (R112). -/
  | hexDec (c0 c1 : Byte) (avail : Idx)
  /-- `HEX.ENC byte` (R115). -/
  | hexEnc (v : Byte)
  /-- `BIN.ENC byte` (R122). -/
  | binEnc (v : Byte)
  /-- `BIN.DEC byte` (R123). -/
  | binDec (e : Byte)
  /-- `RLE.ENC base, len` (R133). -/
  | rleEnc (base len : Idx)
  /-- `WR.INIT type` (R151). -/
  | wrInit (type : PacketType)
  /-- `WR.PUSH byte` (R153). -/
  | wrPush (v : Byte)
  /-- `WR.PUSHACK flag` (R154): true is Ack (`+`), false Nack (`-`). -/
  | wrPushAck (isAck : Bool)
  /-- `WR.FINISH` (R155). -/
  | wrFinish
  /-- `RX.RECV type, base, max` (R183). -/
  | rxRecv (type : PacketType) (base max : Idx)
  /-- `TOK.INIT type, base, len` (R191). -/
  | tokInit (type : PacketType) (base len : Idx)
  /-- `TOK.ADV mode, d` (R203): `d` is the delimiter byte of mode LITERAL, 0 otherwise. -/
  | tokAdv (mode : DelimMode) (d : Byte)
  /-- `TOK.REWIND` (R200). -/
  | tokRewind
  /-- `BUF.LD idx` (R210). -/
  | bufLd (idx : Idx)
  /-- `BUF.ST idx, byte` (R211). -/
  | bufSt (idx : Idx) (v : Byte)
  /-- `CSR.RD num` (R212). -/
  | csrRd (num : Byte)
  deriving DecidableEq, Repr

end Sys2Proof
end

