-- ==== Sys2Proof/WellFormed.lean ====
section
/-! DEFINITION. Which operations a legal command word can stand for (R72, R74). The types of `Instr` already
leave out packet type 3, delimiter mode 3 and a `WR.PUSHACK` flag above 1; one condition of R74 is left. -/

namespace Sys2Proof

/-- R72, R74: the delimiter byte of `TOK.ADV` "must be 0" unless the mode is LITERAL. -/
def DelimMode.allowsDelim (m : DelimMode) (d : Byte) : Bool :=
  match m with
  | .literal => true
  | .single => d == 0
  | .toEnd => d == 0

/-- The operations a legal command word stands for (R74). -/
def Instr.wellFormed : Instr → Bool
  | .tokAdv m d => m.allowsDelim d
  | _ => true

/-- `Instr.wellFormed` as a proposition. -/
abbrev Instr.WellFormed (i : Instr) : Prop := i.wellFormed = true

end Sys2Proof
end

