-- ==== Sys2Proof/Decode.lean ====
section
/-! DEFINITION. The command word (R71 to R74): its fields, the decoder, total and rejecting by name, and the
encoder written from the same table (R70, R72, R73). -/

namespace Sys2Proof

/-- `CMD[47:40]`, the operation code (R71). -/
def CmdWord.op (w : CmdWord) : Byte := w.extractLsb' 40 8
/-- `CMD[39:32]`, the byte operand (R71). -/
def CmdWord.c (w : CmdWord) : Byte := w.extractLsb' 32 8
/-- `CMD[31:16]`, the first index operand (R71). -/
def CmdWord.a (w : CmdWord) : Idx := w.extractLsb' 16 16
/-- `CMD[15:0]`, the second index operand (R71). -/
def CmdWord.b (w : CmdWord) : Idx := w.extractLsb' 0 16

/-- The command word with these four fields (R71). -/
def CmdWord.ofFields (op c : Byte) (a b : Idx) : CmdWord := op ++ c ++ a ++ b

/-- Why a command word is reserved (R74); every one of them raises Fault(ILLEGAL_COMMAND). -/
inductive DecodeError where
  /-- The `op` value is not in R70. -/
  | unknownOp
  /-- A field or sub-field that R72 says must be zero is not. -/
  | nonzeroField
  /-- Packet type 3. -/
  | reservedType
  /-- Delimiter mode 3. -/
  | reservedMode
  /-- A `WR.PUSHACK` with `c` above 1. -/
  | reservedFlag
  deriving DecidableEq, Repr

/-- The number of a packet type (R73). -/
def PacketType.code : PacketType → BitVec 2
  | .ack => 0
  | .msg => 1
  | .notif => 2

/-- The packet type in operand `c`: "[39:34] must be 0", 3 is reserved (R72, R73, R74). -/
def PacketType.ofByte (c : Byte) : Except DecodeError PacketType :=
  if c = 0 then .ok .ack
  else if c = 1 then .ok .msg
  else if c = 2 then .ok .notif
  else if c = 3 then .error .reservedType
  else .error .nonzeroField

/-- The number of a delimiter mode (R73). -/
def DelimMode.code : DelimMode → BitVec 2
  | .literal => 0
  | .single => 1
  | .toEnd => 2

/-- The delimiter mode in operand `a`: "[15:2] must be 0", 3 is reserved (R72, R73, R74). -/
def DelimMode.ofIdx (a : Idx) : Except DecodeError DelimMode :=
  if a = 0 then .ok .literal
  else if a = 1 then .ok .single
  else if a = 2 then .ok .toEnd
  else if a = 3 then .error .reservedMode
  else .error .nonzeroField

/-- `i`, where the fields that R72 says must be zero are zero. -/
def requireZero (zero : Bool) (i : Instr) : Except DecodeError Instr :=
  if zero then .ok i else .error .nonzeroField

/-- An operation whose operand `c` is a packet type, where the other unused fields are zero (R72). -/
def withType (c : Byte) (zero : Bool) (f : PacketType → Instr) : Except DecodeError Instr :=
  match PacketType.ofByte c with
  | .ok t => requireZero zero (f t)
  | .error e => .error e

/-- The decoder: total on any word; a reserved word (R74) is rejected with the reason. -/
def decode (w : CmdWord) : Except DecodeError Instr :=
  match w.op.toNat with
  | 0x10 => requireZero (w.c == 0) (.csumCalc w.a w.b)
  | 0x20 => requireZero (w.a.extractLsb' 8 8 == 0) (.hexDec w.c (w.a.extractLsb' 0 8) w.b)
  | 0x21 => requireZero (w.a == 0 && w.b == 0) (.hexEnc w.c)
  | 0x30 => requireZero (w.a == 0 && w.b == 0) (.binEnc w.c)
  | 0x31 => requireZero (w.a == 0 && w.b == 0) (.binDec w.c)
  | 0x40 => requireZero (w.c == 0) (.rleEnc w.a w.b)
  | 0x50 => withType w.c (w.a == 0 && w.b == 0) .wrInit
  | 0x51 => requireZero (w.a == 0 && w.b == 0) (.wrPush w.c)
  | 0x52 =>
    if w.c = 0 then requireZero (w.a == 0 && w.b == 0) (.wrPushAck false)
    else if w.c = 1 then requireZero (w.a == 0 && w.b == 0) (.wrPushAck true)
    else .error .reservedFlag
  | 0x53 => requireZero (w.c == 0 && w.a == 0 && w.b == 0) .wrFinish
  | 0x60 => withType w.c true (fun t => .rxRecv t w.a w.b)
  | 0x70 => withType w.c true (fun t => .tokInit t w.a w.b)
  | 0x71 =>
    match DelimMode.ofIdx w.a with
    | .ok m => requireZero (w.b == 0 && m.allowsDelim w.c) (.tokAdv m w.c)
    | .error e => .error e
  | 0x72 => requireZero (w.c == 0 && w.a == 0 && w.b == 0) .tokRewind
  | 0x80 => requireZero (w.c == 0 && w.b == 0) (.bufLd w.a)
  | 0x81 => requireZero (w.b == 0) (.bufSt w.a w.c)
  | 0x90 => requireZero (w.a == 0 && w.b == 0) (.csrRd w.c)
  | _ => .error .unknownOp

/-- The encoder, from the tables of R70 and R72; an unused field is zero. -/
def encode : Instr → CmdWord
  | .csumCalc base len => CmdWord.ofFields 0x10 0 base len
  | .hexDec c0 c1 avail => CmdWord.ofFields 0x20 c0 (c1.setWidth 16) avail
  | .hexEnc v => CmdWord.ofFields 0x21 v 0 0
  | .binEnc v => CmdWord.ofFields 0x30 v 0 0
  | .binDec e => CmdWord.ofFields 0x31 e 0 0
  | .rleEnc base len => CmdWord.ofFields 0x40 0 base len
  | .wrInit t => CmdWord.ofFields 0x50 (t.code.setWidth 8) 0 0
  | .wrPush v => CmdWord.ofFields 0x51 v 0 0
  | .wrPushAck f => CmdWord.ofFields 0x52 (if f then 1 else 0) 0 0
  | .wrFinish => CmdWord.ofFields 0x53 0 0 0
  | .rxRecv t base max => CmdWord.ofFields 0x60 (t.code.setWidth 8) base max
  | .tokInit t base len => CmdWord.ofFields 0x70 (t.code.setWidth 8) base len
  | .tokAdv m d => CmdWord.ofFields 0x71 d (m.code.setWidth 16) 0
  | .tokRewind => CmdWord.ofFields 0x72 0 0 0
  | .bufLd idx => CmdWord.ofFields 0x80 0 idx 0
  | .bufSt idx v => CmdWord.ofFields 0x81 v idx 0
  | .csrRd num => CmdWord.ofFields 0x90 num 0 0

/-- What the host's check asks for: the instruction the decoder reads from a table word of `nbits` bits. A
command is one 48-bit word that no memory stores, so no byte order enters (R71, N12). -/
def decodeTableWord (nbits w : Nat) : Option Instr :=
  (decode (BitVec.ofNat 48 (w % 2 ^ nbits))).toOption

end Sys2Proof
end

