-- ==== Sys2Proof/Config.lean ====
section
/-! DEFINITION. What an implementation fixes (the OPEN parameters of R4) and the free values of the model.
The opaque constants have no body: nothing in Lean can evaluate them or prove a value of them, so a
statement that mentions a state whose bytes come from them holds whatever they are. -/

namespace Sys2Proof

/-- The OPEN parameters of R4. They are fields of the state that no operation writes, so that a statement
over every state is a statement over every value of them (log entry 3). -/
structure Params where
  /-- `BUF_CAP`, the number of bytes of `BUF`; register 0x01 reads it (R4, R22). -/
  cap : Idx
  /-- `ESC_EXTRA`, the bytes escaped in addition to the five reserved characters (R4, R120); only
  membership in the list matters. -/
  escExtra : List Byte
  /-- `TOK_SINGLE_LAST_IS_NOTFOUND` (R4, R198). -/
  singleLastIsNotFound : Bool
  deriving DecidableEq, Repr

/-- R4: "1 <= BUF_CAP <= 65535"; the upper bound is the width. The other parameters have no bound. -/
abbrev Params.Legal (p : Params) : Prop := p.cap ≠ 0

/-- DESIGN CHOICE (unsafe, log entry 3): the values the spec's examples use ("default used in examples",
spec/92_eei_decisions.md): `BUF_CAP` = 256, `ESC_EXTRA` empty, `TOK_SINGLE_LAST_IS_NOTFOUND` false. -/
def Params.examples : Params := ⟨256, [], false⟩

/-- Free value (R49, U22; log entry 1): `Config.unwrittenByte k a` is what `BUF[a]` holds when nothing has
written it since reset number `k`. -/
opaque Config.unwrittenByte : Nat → Nat → Byte

/-- Free value (R260, U10; log entry 8): `Config.abandonedTransfers k` says whether the transport request in
flight at the reset that ends the life number `k` of the engine transferred its byte. -/
opaque Config.abandonedTransfers : Nat → Bool

end Sys2Proof
end

