-- ==== Sys2Proof/Machine/State.lean ====
section
/-! DEFINITION. The state of the engine as plain data (spec/10_state.md R10 to R24), the interface to the
host and the transport (R45, R50 to R53, R75), the state after reset (R23, R261), and why a step can stop. -/

namespace Sys2Proof.Machine

/-- `FSTAT` (R20). -/
structure Fstat where
  fault : Bool
  cause : Byte
  deriving DecidableEq, Repr

/-- The states of the receiver's machine (R14, R170). -/
inductive RxState where
  | prefix_
  | body
  | suffix
  | done
  deriving DecidableEq, Repr

/-- The receiver registers (R14). -/
structure Rx where
  state : RxState
  esc : Bool
  sfx : BitVec 2
  n : Idx
  mark : Idx
  hash : Idx
  csum : Byte
  deriving DecidableEq, Repr

/-- The tokenizer registers (R16). -/
structure Tok where
  valid : Bool
  armed : Bool
  base : Idx
  domEnd : Idx
  curStart : Idx
  curLen : Idx
  skip : Bool
  prevStart : Idx
  prevLen : Idx
  prevSkip : Bool
  deriving DecidableEq, Repr

/-- The writer registers (R18); `la0` is the oldest byte of the lookahead buffer. -/
structure Wr where
  valid : Bool
  type : PacketType
  la0 : Byte
  la1 : Byte
  la2 : Byte
  laN : BitVec 2
  csum : Byte
  finished : Bool
  ackSent : Bool
  trailer : Bool
  deriving DecidableEq, Repr

/-- The bytes of `BUF` that have been written since reset: a list of (index, byte) with strictly rising
indices. An index that is not listed has no value of its own: nothing has written it since reset (R49). -/
abbrev Memory := List Host.Cell

/-- An answer of the byte source to `SrcRecv()` (R51). -/
inductive SrcAnswer where
  /-- `Byte(b)`. -/
  | byte (b : Byte)
  /-- `Err(code)`, `code` in -32768 to -1 (R76, U13): the low 15 bits of the code's 16-bit two's complement
  form, whose bit 15 is 1, so no other code exists. -/
  | err (low : BitVec 15)
  /-- The transport never answers this request (R272, U14). -/
  | silent
  deriving DecidableEq, Repr

/-- An answer of the byte sink to `SinkSend(b)` (R52). -/
inductive SinkAnswer where
  /-- `Done`: the byte has left the engine. -/
  | done
  /-- `Err(code)`, as in `SrcAnswer.err`. -/
  | err (low : BitVec 15)
  /-- The transport never answers this request (R272, U14). -/
  | silent
  deriving DecidableEq, Repr

/-- What the outside does to the engine between two steps (R45, R260). -/
inductive HostEvent where
  /-- The host issues a command word (R71). -/
  | command (w : CmdWord)
  /-- Reset (R260). -/
  | reset
  deriving DecidableEq, Repr

/-- The whole machine: the engine's registers and memory, its parameters, and its interface. The fields
`seed`, `host`, `src`, `sink` and `sent` are the MODEL's own (log entries 2, 4, 5, 6): no rule of the spec
makes them registers of the engine. -/
structure State where
  /-- The fault register (R20). -/
  fstat : Fstat
  /-- The receiver registers (R14). -/
  rx : Rx
  /-- The tokenizer registers (R16). -/
  tok : Tok
  /-- The writer registers (R18). -/
  wr : Wr
  /-- The bytes of `BUF` written since reset (R13, R49). -/
  buf : Memory
  /-- The parameters of R4, constant. -/
  params : Params
  /-- Number of resets so far: selects the free contents of `BUF` (R49, R260; log entry 2). -/
  seed : Nat
  /-- The operation that waits for the transport, if one does (R272). -/
  busy : Option Instr
  /-- The response word of the latest operation (R75); none while there is none. -/
  rsp : Option RspWord
  /-- What the host does next, in order (R45; log entry 4). -/
  host : List HostEvent
  /-- The source's answers to come, in order; a request past the end is never answered (R51; log entry 5). -/
  src : List SrcAnswer
  /-- The sink's answers to come, in order; a request past the end is never answered (R52; log entry 5). -/
  sink : List SinkAnswer
  /-- Every byte the sink has accepted, in order (R53, R161; log entry 6). -/
  sent : List Byte
  deriving DecidableEq, Repr

/-- Why the MODEL stops. The engine's own faults (R226) are not here: they are next states whose `FSTAT` and
response word report them. Both reasons are for states that no run from reset reaches. -/
inductive Fault where
  /-- Raised by `TOK.ADV` when the tokenizer's registers break R17, so that an index would lie outside the
  domain or outside `BUF`. Safe: the model stops where the spec gives no value. -/
  | tokCursorOutside
  /-- Raised when a waiting `RX.RECV` goes on with a window outside `BUF` (R41) or with `RX.n` above its
  budget (R172). Safe: the model stops where the spec gives no value. -/
  | recvOutsideWindow
  deriving DecidableEq, Repr

/-- Why the MODEL refuses an instruction. -/
inductive Refusal where
  /-- Raised by an arm of `exec` whose instruction has no meaning yet; no arm does. Safe: nothing is claimed
  of the instruction. -/
  | notModelled (mnemonic : String)
  deriving DecidableEq, Repr

/-- What a step or a meaning answers. -/
abbrev Result := Host.Outcome State Fault Refusal

/-- `FSTAT` after reset (R23, R261). -/
def Fstat.reset : Fstat := ⟨false, 0⟩

/-- The receiver registers after reset (R23, R261); also what `RX.RECV` starts from (R171). -/
def Rx.reset : Rx := ⟨.prefix_, false, 0, 0, 0, 0, 0⟩

/-- The tokenizer registers after reset (R23, R261). -/
def Tok.reset : Tok := ⟨false, false, 0, 0, 0, 0, false, 0, 0, false⟩

/-- The writer registers after reset (R23, R261). -/
def Wr.reset : Wr := ⟨false, .ack, 0, 0, 0, 0, 0, false, false, false⟩

/-- An engine with parameters `p` right after its first reset (R23, R260, R261): every register 0, no byte of
`BUF` written, idle, and an outside that does nothing. -/
def State.resetWith (p : Params) : State :=
  ⟨Fstat.reset, Rx.reset, Tok.reset, Wr.reset, [], p, 0, none, none, [], [], [], []⟩

/-- The machine right after reset, with the parameters of the spec's examples (log entry 3). -/
def State.reset : State := State.resetWith Params.examples

end Sys2Proof.Machine
end

