-- ==== Sys2Proof/Machine/Operands.lean ====
section
/-! DEFINITION. Operand forms and the numbers the rules name: characters (R60), fixed parameters (R4), windows
and indices (R41, R55), packet markers (R62, R63, R170), status codes (R76), fault causes (R227). -/

namespace Sys2Proof.Machine

/-- `+`, Ack (R60). -/
def chPlus : Byte := 0x2B
/-- `-`, Nack (R60). -/
def chMinus : Byte := 0x2D
/-- `$`, Message start (R60). -/
def chDollar : Byte := 0x24
/-- `%`, Notification start (R60). -/
def chPercent : Byte := 0x25
/-- `#`, payload end (R60). -/
def chHash : Byte := 0x23
/-- `*`, the run-length marker (R60). PRESUMED: its code is ASCII, from general knowledge (log entry 10). -/
def chStar : Byte := 0x2A
/-- `}`, the escape marker (R60). PRESUMED: its code is ASCII, from general knowledge (log entry 10). -/
def chEscape : Byte := 0x7D
/-- `~`, the top of the printable range (R60). -/
def chTilde : Byte := 0x7E
/-- Space, the bottom of the printable range (R60). -/
def chSpace : Byte := 0x20

/-- `RLE_MIN_RUN` (R4, C2). -/
def rleMinRun : Nat := 4
/-- `RLE_MAX_RUN` (R4). -/
def rleMaxRun : Nat := 98
/-- `RLE_BIAS` (R4). -/
def rleBias : Nat := 0x1D
/-- `ESC_XOR` (R4). -/
def escXor : Byte := 0x20

/-- R41: a window is legal when `base + len <= BUF_CAP`, the sum taken as integers. -/
def windowLegal (p : Params) (base len : Idx) : Bool :=
  base.toNat + len.toNat ≤ p.cap.toNat

/-- R41: "A single index operand `idx` is legal when `idx < BUF_CAP`." -/
def indexLegal (p : Params) (idx : Idx) : Bool :=
  idx.toNat < p.cap.toNat

/-- The leading marker that the writer queues (R151); an Ack packet has none. -/
def leadingMarker : PacketType → Option Byte
  | .ack => none
  | .msg => some chDollar
  | .notif => some chPercent

/-- The byte of an Ack/Nack packet (R61, R154). -/
def ackByte (isAck : Bool) : Byte := if isAck then chPlus else chMinus

/-- R170: does `x` match the leading marker expected for the type? -/
def matchesMarker (t : PacketType) (x : Byte) : Bool :=
  match t with
  | .ack => x == chPlus || x == chMinus
  | .msg => x == chDollar
  | .notif => x == chPercent

/-- The statuses of R76. -/
inductive Status where
  | ok
  | invalid
  | checksumError
  | endOfBuffer
  | notFound
  | transport
  | fault
  deriving DecidableEq, Repr

/-- The number of a status (R76). -/
def Status.code : Status → Byte
  | .ok => 0x00
  | .invalid => 0x01
  | .checksumError => 0x02
  | .endOfBuffer => 0x03
  | .notFound => 0x04
  | .transport => 0x80
  | .fault => 0xFF

/-- The fault causes of R227. -/
inductive Cause where
  | illegalCommand
  | badWindow
  | wrNotInit
  | wrAfterFinished
  | wrWrongType
  | wrAckNotPushed
  | wrAckTwice
  | wrPushAfterTrailer
  | tokNotInit
  | tokRewindUnarmed
  | tokBadDelim
  | tokShortPacket
  | badCsr
  deriving DecidableEq, Repr

/-- The number of a cause (R227). -/
def Cause.code : Cause → Byte
  | .illegalCommand => 1
  | .badWindow => 2
  | .wrNotInit => 3
  | .wrAfterFinished => 4
  | .wrWrongType => 5
  | .wrAckNotPushed => 6
  | .wrAckTwice => 7
  | .wrPushAfterTrailer => 8
  | .tokNotInit => 9
  | .tokRewindUnarmed => 10
  | .tokBadDelim => 11
  | .tokShortPacket => 12
  | .badCsr => 13

/-- A response word (R75): `status` in bits 39 to 32, `r0` in 31 to 16, `r1` in 15 to 0. -/
def rspWord (st : Status) (r0 r1 : Idx) : RspWord := st.code ++ r0 ++ r1

/-- A transport's error code as `r0` carries it: 16-bit two's complement, negative (R76, R225). -/
def errCode (low : BitVec 15) : Idx := 1#1 ++ low

/-- A byte in a 16-bit result field, zero-extended (R55, R75). -/
def byteField (b : Byte) : Idx := b.setWidth 16

end Sys2Proof.Machine
end

