-- ==== Sys2Proof/Machine/Flags.lean ====
section
/-! DEFINITION. The engine has no condition codes (R21). What it has of flags: the record of an unconsumed escape
marker, which the receiver and the tokenizer compute alike (R176, R195), and the packing of the one-bit and
small registers into the words that `CSR.RD` reads (R22). -/

namespace Sys2Proof.Machine

/-- The escape record after a byte (R176, R195): a byte taken while the record is set consumes it, whatever its
value; otherwise `}` sets it. -/
def escAfter (esc : Bool) (x : Byte) : Bool := !esc && x == chEscape

/-- Is this byte an unescaped `d`? (R176 for `#`, R195 for the delimiter.) The escape marker is looked at
first. -/
def unescapedIs (d : Byte) (esc : Bool) (x : Byte) : Bool := !esc && !(x == chEscape) && x == d

/-- The number of a receiver state (R14, D8). -/
def RxState.code : RxState → BitVec 2
  | .prefix_ => 0
  | .body => 1
  | .suffix => 2
  | .done => 3

/-- The number of a packet type in `WR_CTL` (R18, R73). -/
def wrTypeCode : PacketType → BitVec 2
  | .ack => 0
  | .msg => 1
  | .notif => 2

/-- `FSTAT` as read (R22): bit 0 `fault`, bits 15 to 8 `cause`. -/
def fstatWord (f : Fstat) : Idx := f.cause ++ 0#7 ++ BitVec.ofBool f.fault

/-- `RX_STATE` (R22): bits 1 to 0 `state`, bit 2 `esc`, bits 4 to 3 `sfx`. -/
def rxStateWord (r : Rx) : Idx := 0#11 ++ r.sfx ++ BitVec.ofBool r.esc ++ r.state.code

/-- `TOK_CTL` (R22): bit 0 `valid`, bit 1 `armed`, bit 2 `skip`, bit 3 `prev_skip`. -/
def tokCtlWord (t : Tok) : Idx :=
  0#12 ++ BitVec.ofBool t.prevSkip ++ BitVec.ofBool t.skip ++ BitVec.ofBool t.armed ++ BitVec.ofBool t.valid

/-- `WR_CTL` (R22): bit 0 `valid`, bits 2 to 1 `type`, bit 3 `finished`, bit 4 `ack_sent`, bit 5 `trailer`,
bits 7 to 6 `la_n`. -/
def wrCtlWord (w : Wr) : Idx :=
  0#8 ++ w.laN ++ BitVec.ofBool w.trailer ++ BitVec.ofBool w.ackSent ++ BitVec.ofBool w.finished ++
    wrTypeCode w.type ++ BitVec.ofBool w.valid

/-- A lookahead slot as read: "a slot at or beyond `WR.la_n` reads 0" (R22, R212). -/
def laRead (w : Wr) (slot : Nat) (b : Byte) : Byte := if slot < w.laN.toNat then b else 0

/-- `WR_LA01` (R22): bits 7 to 0 `la[0]`, bits 15 to 8 `la[1]`. -/
def wrLa01Word (w : Wr) : Idx := laRead w 1 w.la1 ++ laRead w 0 w.la0

/-- `WR_LA2` (R22): bits 7 to 0 `la[2]`. -/
def wrLa2Word (w : Wr) : Idx := byteField (laRead w 2 w.la2)

end Sys2Proof.Machine
end

