-- ==== Sys2Proof/Machine/Ops.lean ====
section
/-! DEFINITION. The shared operations: reading and writing `BUF` (R40 to R49), answering (R75, R76), raising a fault
and refusing after one (R226), the checks before execution (R229), the transport ports (R50 to R54), and reset
(R260). The engine has no trap handler and no return from a trap (R230, R231): raising a fault is all there is. -/

namespace Sys2Proof.Machine

/-- The byte listed at an index, none where nothing has written it since reset. -/
def Memory.read : Memory → Nat → Option Byte
  | [], _ => none
  | (b, v) :: m, a => if a = b then some v else Memory.read m a

/-- The memory after `BUF[a] <- v`: the entry of `a` replaced, or put in its place in the rising order. -/
def Memory.write : Memory → Nat → Byte → Memory
  | [], a, v => [(a, v)]
  | (b, u) :: m, a, v =>
    if a < b then (a, v) :: (b, u) :: m
    else if a = b then (a, v) :: m
    else (b, u) :: Memory.write m a v

/-- The canonical form: indices strictly rising. A listed byte never equals what an unlisted index holds, since
that is no value. -/
def Memory.wf : Memory → Bool
  | [] => true
  | [_] => true
  | (a, _) :: (b, v) :: m => decide (a < b) && Memory.wf ((b, v) :: m)

/-- `BUF[a]` (R40): the byte written last, and a free value where nothing has written since reset (R49, U22:
"any value"; log entry 1). Reading changes nothing (R42). -/
def State.byteAt (s : State) (a : Nat) : Byte :=
  (s.buf.read a).getD (Config.unwrittenByte s.seed a)

/-- `BUF[a] <- v` (R40, R42). -/
def State.setByte (s : State) (a : Nat) (v : Byte) : State :=
  { s with buf := s.buf.write a v }

/-- The bytes `BUF[a] .. BUF[a+n-1]`, in index order (R41, R55). -/
def State.bytes (s : State) (a : Nat) : Nat → List Byte
  | 0 => []
  | n + 1 => s.byteAt a :: s.bytes (a + 1) n

/-- The bytes `xs` written at `BUF[a]`, `BUF[a+1]` and so on, in index order. -/
def State.setBytes (s : State) (a : Nat) : List Byte → State
  | [] => s
  | x :: xs => (s.setByte a x).setBytes (a + 1) xs

/-- End the operation with a status and two results (R75). -/
def State.answer (s : State) (st : Status) (r0 r1 : Idx) : State :=
  { s with rsp := some (rspWord st r0 r1), busy := none }

/-- The operation waits for the transport: no response yet (R51, R52, R272). -/
def State.wait (s : State) (i : Instr) : State :=
  { s with rsp := none, busy := some i }

/-- `raise Fault(cause)` (R226): `FSTAT` records the cause, the response reports it, "nothing else changes". -/
def State.raise (s : State) (c : Cause) : State :=
  { s with fstat := ⟨true, c.code⟩ }.answer .fault (byteField c.code) 0

/-- A latched fault refuses the operation with the recorded cause, "no effect at all" (R226). -/
def State.refuse (s : State) : State :=
  s.answer .fault (byteField s.fstat.cause) 0

/-- Check 1 of R229: "every operation, before anything else" looks at `FSTAT.fault` (R226). -/
def unlessFaulted (s : State) (k : Result) : Result :=
  if s.fstat.fault then .next s.refuse else k

/-- A check of R229: where `ok` fails, the operation raises `c` and does nothing else. -/
def check (ok : Bool) (c : Cause) (s : State) (k : Result) : Result :=
  if ok then k else .next (s.raise c)

/-- What a reserved command word does (R74, R229). -/
def execReserved (s : State) : Result :=
  unlessFaulted s (.next (s.raise .illegalCommand))

/-- What the sink answered to one `SinkSend`. -/
inductive SendEnd where
  | done
  | err (code : Idx)
  | blocked
  deriving DecidableEq, Repr

/-- `SinkSend(b)` (R52): the sink's next answer, and the byte handed over where it is `Done`. A request that is
not answered stays in flight: nothing changes. -/
def State.sinkSend (s : State) (b : Byte) : SendEnd × State :=
  match s.sink with
  | .done :: rest => (.done, { s with sink := rest, sent := s.sent ++ [b] })
  | .err low :: rest => (.err (errCode low), { s with sink := rest })
  | .silent :: _ => (.blocked, s)
  | [] => (.blocked, s)

/-- The next event of the host, taken off the list (R45). -/
def State.afterEvent (s : State) : State := { s with host := s.host.tail }

/-- The byte that a waiting writer operation has offered to the sink (R152, R154). -/
def State.offered (s : State) : Instr → Option Byte
  | .wrPushAck f => some (ackByte f)
  | .wrPush _ => some s.wr.la0
  | .wrFinish => some s.wr.la0
  | _ => none

/-- A request that is abandoned unanswered is no longer in the source's list. -/
def dropSilentSrc : List SrcAnswer → List SrcAnswer
  | .silent :: rest => rest
  | l => l

/-- A request that is abandoned unanswered is no longer in the sink's list. -/
def dropSilentSink : List SinkAnswer → List SinkAnswer
  | .silent :: rest => rest
  | l => l

/-- The transport after a reset while operation `i` waits (R260): the request in flight is abandoned, and whether
its byte was transferred is free (U10; log entry 8). -/
def State.abandon (s : State) (i : Instr) : State :=
  match i with
  | .rxRecv _ _ _ =>
    let rest := dropSilentSrc s.src
    match rest, Config.abandonedTransfers s.seed with
    | .byte _ :: rest', true => { s with src := rest' }
    | _, _ => { s with src := rest }
  | i =>
    match s.offered i, Config.abandonedTransfers s.seed with
    | some b, true => { s with sink := dropSilentSink s.sink, sent := s.sent ++ [b] }
    | _, _ => { s with sink := dropSilentSink s.sink }

/-- The transport request in flight at a reset, if there is one, abandoned (R260). -/
def State.abandonBusy (s : State) : State :=
  match s.busy with
  | none => s
  | some i => s.abandon i

/-- Reset (R260, R261): every register to its reset value, `BUF` unspecified again, idle, no response; the
parameters stay, and so does what the transport has taken and given. -/
def State.afterReset (s : State) : State :=
  let t := s.abandonBusy
  { State.resetWith s.params with
    seed := s.seed + 1, host := s.host, src := t.src, sink := t.sink, sent := t.sent }

end Sys2Proof.Machine
end

