-- ==== Sys2Proof/Machine/BinaryEscape.lean ====
section
/-! DEFINITION. The binary escape codec (spec/43_binary_escape.md). -/

namespace Sys2Proof.Machine

/-- `needs_escape` (R121). -/
def needsEscape (p : Params) (b : Byte) : Bool :=
  decide (b.toNat < chSpace.toNat) || decide (chTilde.toNat < b.toNat) ||
    b == chHash || b == chDollar || b == chPercent || b == chStar || b == chEscape ||
    p.escExtra.contains b

/-- The bytes `BIN.ENC` puts out for one byte (R122). -/
def escapeByte (p : Params) (v : Byte) : List Byte :=
  if needsEscape p v then [chEscape, v ^^^ escXor] else [v]

/-- `BIN.ENC byte` (R122): the count in `r0`, the first output byte in `r1[7:0]`, the second, or 0, in
`r1[15:8]`. -/
def execBinEnc (v : Byte) (s : State) : Result :=
  unlessFaulted s <|
  let out := escapeByte s.params v
  .next (s.answer .ok (BitVec.ofNat 16 out.length) (out.getD 1 0 ++ out.getD 0 0))

/-- `BIN.DEC byte` (R123). -/
def execBinDec (e : Byte) (s : State) : Result :=
  unlessFaulted s <|
  .next (s.answer .ok (byteField (e ^^^ escXor)) 0)

end Sys2Proof.Machine
end

