-- ==== Sys2Proof/Machine/BufferAccess.lean ====
section
/-! DEFINITION. Host access to the buffer and the registers (spec/48_buffer_access.md). -/

namespace Sys2Proof.Machine

/-- `BUF.LD idx` (R210). -/
def execBufLd (idx : Idx) (s : State) : Result :=
  unlessFaulted s <|
  check (indexLegal s.params idx) .badWindow s <|
  .next (s.answer .ok (byteField (s.byteAt idx.toNat)) 0)

/-- `BUF.ST idx, byte` (R211). -/
def execBufSt (idx : Idx) (v : Byte) (s : State) : Result :=
  unlessFaulted s <|
  check (indexLegal s.params idx) .badWindow s <|
  .next ((s.setByte idx.toNat v).answer .ok 0 0)

/-- The register with this number, packed as R22 gives its bits; none where R22 lists no such number. -/
def State.csr (s : State) (num : Byte) : Option Idx :=
  match num.toNat with
  | 0x00 => some (fstatWord s.fstat)
  | 0x01 => some s.params.cap
  | 0x10 => some (rxStateWord s.rx)
  | 0x11 => some s.rx.n
  | 0x12 => some s.rx.mark
  | 0x13 => some s.rx.hash
  | 0x14 => some (byteField s.rx.csum)
  | 0x20 => some (tokCtlWord s.tok)
  | 0x21 => some s.tok.base
  | 0x22 => some s.tok.domEnd
  | 0x23 => some s.tok.curStart
  | 0x24 => some s.tok.curLen
  | 0x25 => some s.tok.prevStart
  | 0x26 => some s.tok.prevLen
  | 0x30 => some (wrCtlWord s.wr)
  | 0x31 => some (byteField s.wr.csum)
  | 0x32 => some (wrLa01Word s.wr)
  | 0x33 => some (wrLa2Word s.wr)
  | _ => none

/-- `CSR.RD num` (R212). -/
def execCsrRd (num : Byte) (s : State) : Result :=
  unlessFaulted s <|
  match s.csr num with
  | some v => .next (s.answer .ok v 0)
  | none => .next (s.raise .badCsr)

end Sys2Proof.Machine
end

