-- ==== Sys2Proof/Machine/Checksum.lean ====
section
/-! DEFINITION. The checksum unit (spec/41_checksum.md). -/

namespace Sys2Proof.Machine

/-- The fold of R100: 8-bit addition that wraps. -/
def csumFrom (acc : Byte) : List Byte → Byte
  | [] => acc
  | x :: xs => csumFrom (acc + x) xs

/-- `csum` (R100): the fold from 0. -/
def csum (xs : List Byte) : Byte := csumFrom 0 xs

/-- `CSUM.CALC base, len` (R101). -/
def execCsumCalc (base len : Idx) (s : State) : Result :=
  unlessFaulted s <|
  check (windowLegal s.params base len) .badWindow s <|
  .next (s.answer .ok (byteField (csum (s.bytes base.toNat len.toNat))) 0)

end Sys2Proof.Machine
end

