-- ==== Sys2Proof/Machine/HexCodec.lean ====
section
/-! DEFINITION. The hex codec (spec/42_hex_codec.md). -/

namespace Sys2Proof.Machine

/-- `hexval` where it is defined: the value of a hex digit, none for any other byte (R110, R111). PRESUMED: the
values of the digits are standard notation, from general knowledge (log entry 10). -/
def hexVal (c : Byte) : Option Nat :=
  let n := c.toNat
  if 0x30 ≤ n && n ≤ 0x39 then some (n - 0x30)
  else if 0x41 ≤ n && n ≤ 0x46 then some (n - 0x41 + 10)
  else if 0x61 ≤ n && n ≤ 0x66 then some (n - 0x61 + 10)
  else none

/-- Two hex digits as a byte, high nibble first; none is `Invalid` (R112, R44). -/
def hexPair (c0 c1 : Byte) : Option Byte :=
  match hexVal c0, hexVal c1 with
  | some h, some l => some (BitVec.ofNat 8 (h * 16 + l))
  | _, _ => none

/-- `hexdigit` (R114): upper case. -/
def hexDigit (n : BitVec 4) : Byte :=
  if n.toNat < 10 then BitVec.ofNat 8 (0x30 + n.toNat) else BitVec.ofNat 8 (0x41 + n.toNat - 10)

/-- The digit of the high nibble, which comes first (R44, R115). -/
def hexHigh (v : Byte) : Byte := hexDigit (v.extractLsb' 4 4)

/-- The digit of the low nibble (R44, R115). -/
def hexLow (v : Byte) : Byte := hexDigit (v.extractLsb' 0 4)

/-- `HEX.DEC c0, c1, avail` (R112). -/
def execHexDec (c0 c1 : Byte) (avail : Idx) (s : State) : Result :=
  unlessFaulted s <|
  if avail.toNat < 2 then .next (s.answer .invalid 0 0)
  else
    match hexPair c0 c1 with
    | none => .next (s.answer .invalid 0 0)
    | some v => .next (s.answer .ok (byteField v) 0)

/-- `HEX.ENC byte` (R115). -/
def execHexEnc (v : Byte) (s : State) : Result :=
  unlessFaulted s <|
  .next (s.answer .ok (byteField (hexHigh v)) (byteField (hexLow v)))

end Sys2Proof.Machine
end

