-- ==== Sys2Proof/Machine/Receiver.lean ====
section
/-! DEFINITION. The packet receiver and its checksum validator (spec/46_packet_receiver.md). -/

namespace Sys2Proof.Machine

/-- The receiver registers after byte `x` has been stored at window-relative index `RX.n`, which counts it (R174),
and the state's own action has run (R175 to R177, R185). -/
def Rx.take (t : PacketType) (x : Byte) (r : Rx) : Rx :=
  let counted := { r with n := r.n + 1 }
  match r.state with
  | .prefix_ =>
    if matchesMarker t x then
      { counted with mark := r.n, state := if t = .ack then .done else .body }
    else counted
  | .body =>
    let e := { counted with esc := escAfter r.esc x }
    if unescapedIs chHash r.esc x then { e with hash := r.n, state := .suffix } else e
  | .suffix =>
    { counted with sfx := r.sfx + 1, state := if r.sfx + 1 = 2 then .done else .suffix }
  | .done => counted

/-- The payload of the packet in the window (R179): the bytes strictly between the leading marker and the `#`. -/
def State.rxPayload (s : State) (base : Nat) : List Byte :=
  s.bytes (base + s.rx.mark.toNat + 1) (s.rx.hash.toNat - (s.rx.mark.toNat + 1))

/-- The checksum field of the packet in the window (R179). -/
def State.rxField (s : State) (base : Nat) : Option Byte :=
  hexPair (s.byteAt (base + s.rx.hash.toNat + 1)) (s.byteAt (base + s.rx.hash.toNat + 2))

/-- The status of the validator (R179): INVALID before CHECKSUM_ERROR. -/
def validateStatus (field : Option Byte) (sum : Byte) : Status :=
  match field with
  | none => .invalid
  | some d => if d = sum then .ok else .checksumError

/-- The end of a receive in DONE (R178, R179, R180): an Ack packet is accepted as it is; otherwise the checksum is
computed into `RX.csum` and the validator decides. -/
def State.recvFinish (t : PacketType) (base : Nat) (s : State) : State :=
  if t = .ack then s.answer .ok s.rx.n s.rx.mark
  else
    let sum := csum (s.rxPayload base)
    let u := { s with rx := { s.rx with csum := sum } }
    match validateStatus (s.rxField base) sum with
    | .ok => u.answer .ok s.rx.n s.rx.mark
    | st => u.answer st 0 0

/-- A byte of the source stored in the window and taken by the state machine (R174). -/
def State.recvByte (t : PacketType) (base : Nat) (x : Byte) (s : State) : State :=
  { (s.setByte (base + s.rx.n.toNat) x) with rx := s.rx.take t x }

/-- The loop of R183 over the source's answers: DONE before the budget, the budget before the request, the request
before anything is stored (R172, R173, R228). A request without an answer leaves the operation waiting (R272). -/
def State.recvLoop (t : PacketType) (base max : Idx) (answers : List SrcAnswer) (s : State) : State :=
  if s.rx.state = .done then { s with src := answers }.recvFinish t base.toNat
  else if s.rx.n = max then { s with src := answers }.answer .endOfBuffer 0 0
  else
    match answers with
    | .byte x :: rest => State.recvLoop t base max rest (s.recvByte t base.toNat x)
    | .err low :: rest => { s with src := rest }.answer .transport (errCode low) 0
    | .silent :: rest => { s with src := .silent :: rest }.wait (.rxRecv t base max)
    | [] => { s with src := [] }.wait (.rxRecv t base max)

/-- `RX.RECV type, base, max` (R183): the receiver registers start afresh (R171). -/
def execRxRecv (t : PacketType) (base max : Idx) (s : State) : Result :=
  unlessFaulted s <|
  check (windowLegal s.params base max) .badWindow s <|
  .next (State.recvLoop t base max s.src { s with rx := Rx.reset })

/-- A waiting `RX.RECV` goes on where it stopped, should the source answer after all (R51, log entry 7). -/
def continueRxRecv (t : PacketType) (base max : Idx) (s : State) : Result :=
  if windowLegal s.params base max && decide (s.rx.n.toNat ≤ max.toNat) then
    .next (State.recvLoop t base max s.src s)
  else .fault .recvOutsideWindow

end Sys2Proof.Machine
end

