-- ==== Sys2Proof/Machine/RunLength.lean ====
section
/-! DEFINITION. The run-length encoder (spec/44_rle_encoder.md), in place as R133 writes it. -/

namespace Sys2Proof.Machine

/-- The length byte of an entry (R132): `L - 1 + 0x1D`. -/
def lengthByte (runLen : Nat) : Byte := BitVec.ofNat 8 (runLen - 1 + rleBias)

/-- A run-length entry (R67). -/
def rleEntry (v : Byte) (runLen : Nat) : List Byte := [v, chStar, lengthByte runLen]

/-- The rows of R131 for a run of at most 98. -/
def rleShort (v : Byte) (runLen : Nat) : List Byte :=
  if runLen < rleMinRun then List.replicate runLen v
  else if runLen ≤ 6 then rleEntry v runLen
  else if runLen ≤ 9 then rleEntry v 6 ++ List.replicate (runLen - 6) v
  else rleEntry v runLen

/-- The emission of a run (R131, R133): an entry for 98 as long as more than 98 copies are left, then the table's
row for the remainder. The first argument is fuel; any number of at least `runLen / 98` suffices. -/
def rleRun : Nat → Byte → Nat → List Byte
  | 0, v, runLen => rleShort v runLen
  | fuel + 1, v, runLen =>
    if rleMaxRun < runLen then rleEntry v rleMaxRun ++ rleRun fuel v (runLen - rleMaxRun)
    else rleShort v runLen

/-- How many bytes from `BUF[a]` on equal `v`, at most `n` of them: the inner loop of R133. -/
def State.sameBytes (s : State) (v : Byte) (a : Nat) : Nat → Nat
  | 0 => 0
  | n + 1 => if s.byteAt a = v then s.sameBytes v (a + 1) n + 1 else 0

/-- The outer loop of R133 from read index `r` and write index `w`: the whole run is read before its emission is
written. It gives the state and the new length. The first argument is fuel; `len - r` suffices. -/
def State.rleLoop (base len : Nat) : Nat → State → Nat → Nat → State × Nat
  | 0, s, _, w => (s, w)
  | fuel + 1, s, r, w =>
    if r < len then
      let v := s.byteAt (base + r)
      let runLen := 1 + s.sameBytes v (base + r + 1) (len - r - 1)
      let out := rleRun runLen v runLen
      State.rleLoop base len fuel (s.setBytes (base + w) out) (r + runLen) (w + out.length)
    else (s, w)

/-- `RLE.ENC base, len` (R133). -/
def execRleEnc (base len : Idx) (s : State) : Result :=
  unlessFaulted s <|
  check (windowLegal s.params base len) .badWindow s <|
  let e := State.rleLoop base.toNat len.toNat len.toNat s 0 0
  .next (e.1.answer .ok (BitVec.ofNat 16 e.2) 0)

end Sys2Proof.Machine
end

