-- ==== Sys2Proof/Machine/Tokenizer.lean ====
section
/-! DEFINITION. The packet tokenizer (spec/47_tokenizer.md). -/

namespace Sys2Proof.Machine

/-- The one-bit skip as a count (R16, N11). -/
def skipLen (skip : Bool) : Nat := if skip then 1 else 0

/-- The scan start `p` (R193). -/
def Tok.scanStart (t : Tok) : Nat := t.curStart.toNat + t.curLen.toNat + skipLen t.skip

/-- R17 for the current triple: what an advance needs so that every index it forms lies in the domain and in
`BUF`. -/
def Tok.cursorInside (t : Tok) (p : Params) : Bool :=
  decide (t.scanStart ≤ t.domEnd.toNat) && decide (t.base.toNat + t.domEnd.toNat ≤ p.cap.toNat)

/-- The tokenizer registers after `TOK.INIT` (R190, R191). -/
def Tok.init (t : PacketType) (base len : Idx) : Tok :=
  let skip := t != .ack
  { valid := true, armed := false, base := base
    domEnd := if t = .ack then len else len - 3
    curStart := 0, curLen := 0, skip := skip
    prevStart := 0, prevLen := 0, prevSkip := skip }

/-- `TOK.INIT type, base, len` (R191). -/
def execTokInit (t : PacketType) (base len : Idx) (s : State) : Result :=
  unlessFaulted s <|
  check (windowLegal s.params base len) .badWindow s <|
  check (t == .ack || decide (4 ≤ len.toNat)) .tokShortPacket s <|
  .next ({ s with tok := Tok.init t base len }.answer .ok 0 0)

/-- The registers with the current triple saved (R193). -/
def Tok.save (t : Tok) : Tok :=
  { t with prevStart := t.curStart, prevLen := t.curLen, prevSkip := t.skip, armed := true }

/-- The registers with a new current triple: token from `p` to before `q`, and whether the byte at `q` is a matched
delimiter. -/
def Tok.setCur (t : Tok) (p q : Nat) (found : Bool) : Tok :=
  { t with curStart := BitVec.ofNat 16 p, curLen := BitVec.ofNat 16 (q - p), skip := found }

/-- The scan of R195 from `BUF[a]` over at most `n` bytes: how many bytes stand before the delimiter, and whether
one was found. -/
def State.scan (s : State) (d : Byte) : Nat → Nat → Bool → Nat × Bool
  | 0, _, _ => (0, false)
  | n + 1, a, esc =>
    let x := s.byteAt a
    if unescapedIs d esc x then (0, true)
    else
      let r := s.scan d n (a + 1) (escAfter esc x)
      (r.1 + 1, r.2)

/-- The end `q` of the token that starts at `p`, and whether a delimiter was found there (R195 to R197). -/
def State.tokenEnd (s : State) (m : DelimMode) (d : Byte) (p : Nat) : Nat × Bool :=
  match m with
  | .literal =>
    let r := s.scan d (s.tok.domEnd.toNat - p) (s.tok.base.toNat + p) false
    (p + r.1, r.2)
  | .single => (p + 1, false)
  | .toEnd => (s.tok.domEnd.toNat, false)

/-- The status of an advance that is not at the domain's end (R198): `last` says that the token reaches it. -/
def advStatus (p : Params) (m : DelimMode) (found last : Bool) : Status :=
  match m with
  | .literal => if found then .ok else .notFound
  | .single => if last && p.singleLastIsNotFound then .notFound else .ok
  | .toEnd => .ok

/-- The advance of R203 once its fault checks have passed (R193 to R199). -/
def State.advance (m : DelimMode) (d : Byte) (s : State) : State :=
  let p := s.tok.scanStart
  if p = s.tok.domEnd.toNat then
    { s with tok := s.tok.save.setCur p p false }.answer .endOfBuffer (BitVec.ofNat 16 p) 0
  else
    let e := s.tokenEnd m d p
    { s with tok := s.tok.save.setCur p e.1 e.2 }.answer
      (advStatus s.params m e.2 (decide (e.1 = s.tok.domEnd.toNat)))
      (BitVec.ofNat 16 p) (BitVec.ofNat 16 (e.1 - p))

/-- `TOK.ADV mode, d` (R203), the checks in the order of R229 and R201. -/
def execTokAdv (m : DelimMode) (d : Byte) (s : State) : Result :=
  unlessFaulted s <|
  check (m.allowsDelim d) .illegalCommand s <|
  check s.tok.valid .tokNotInit s <|
  check (!(m == .literal && d == chEscape)) .tokBadDelim s <|
  if s.tok.cursorInside s.params then .next (s.advance m d) else .fault .tokCursorOutside

/-- The registers after a rewind (R200): the `prev` triple is left as it is. -/
def Tok.rewind (t : Tok) : Tok :=
  { t with curStart := t.prevStart, curLen := t.prevLen, skip := t.prevSkip, armed := false }

/-- `TOK.REWIND` (R200). -/
def execTokRewind (s : State) : Result :=
  unlessFaulted s <|
  check s.tok.valid .tokNotInit s <|
  check s.tok.armed .tokRewindUnarmed s <|
  .next ({ s with tok := s.tok.rewind }.answer .ok 0 0)

end Sys2Proof.Machine
end

