-- ==== Sys2Proof/Machine/Writer.lean ====
section
/-! DEFINITION. The packet writer (spec/45_packet_writer.md). An operation that meets a sink request without an answer
keeps what it has done and waits; it goes on by running again (R152, R158, log entry 7). -/

namespace Sys2Proof.Machine

/-- The writer registers after the oldest byte of the lookahead buffer has left it (R152). -/
def Wr.shift (w : Wr) : Wr :=
  { w with la0 := w.la1, la1 := w.la2, laN := w.laN - 1 }

/-- `flush()` (R152): offer the queued bytes to the sink, oldest first; a byte leaves the queue only on `Done`.
The first argument is the number of queued bytes. -/
def State.flushN : Nat → State → SendEnd × State
  | 0, s => (.done, s)
  | n + 1, s =>
    match s.sinkSend s.wr.la0 with
    | (.done, t) => State.flushN n { t with wr := t.wr.shift }
    | (.err c, t) => (.err c, t)
    | (.blocked, t) => (.blocked, t)

/-- `flush()` of the whole lookahead buffer (R152). -/
def State.flush (s : State) : SendEnd × State := s.flushN s.wr.laN.toNat

/-- What a writer operation does with the end of its sink requests: go on, report TRANSPORT with the transport's
code (R157), or wait (R272). -/
def afterSends (i : Instr) (r : SendEnd × State) (k : State → State) : State :=
  match r with
  | (.done, t) => k t
  | (.err c, t) => t.answer .transport c 0
  | (.blocked, t) => t.wait i

/-- The writer registers that `WR.INIT` writes for every type (R151). -/
def Wr.started (w : Wr) (t : PacketType) : Wr :=
  { w with valid := true, type := t, csum := 0, finished := false, ackSent := false, trailer := false }

/-- The writer registers after `WR.INIT` (R151): the leading marker is queued; an Ack packet queues nothing. -/
def Wr.init (w : Wr) (t : PacketType) : Wr :=
  match leadingMarker t with
  | some m => { w.started t with la0 := m, laN := 1 }
  | none => { w.started t with laN := 0 }

/-- `WR.INIT type` (R151). -/
def execWrInit (t : PacketType) (s : State) : Result :=
  unlessFaulted s <|
  .next ({ s with wr := s.wr.init t }.answer .ok 0 0)

/-- The writer registers after a byte has been accepted (R153). -/
def Wr.accept (w : Wr) (v : Byte) : Wr :=
  { w with csum := w.csum + v, la0 := v, laN := 1 }

/-- `WR.PUSH byte` (R153), the checks in the order of R159. -/
def execWrPush (v : Byte) (s : State) : Result :=
  unlessFaulted s <|
  check s.wr.valid .wrNotInit s <|
  check (!s.wr.finished) .wrAfterFinished s <|
  check (s.wr.type != .ack) .wrWrongType s <|
  check (!s.wr.trailer) .wrPushAfterTrailer s <|
  .next (afterSends (.wrPush v) s.flush fun t => { t with wr := t.wr.accept v }.answer .ok 0 0)

/-- `WR.PUSHACK flag` (R154): straight to the sink, not through the lookahead buffer. -/
def execWrPushAck (isAck : Bool) (s : State) : Result :=
  unlessFaulted s <|
  check s.wr.valid .wrNotInit s <|
  check (!s.wr.finished) .wrAfterFinished s <|
  check (s.wr.type == .ack) .wrWrongType s <|
  check (!s.wr.ackSent) .wrAckTwice s <|
  .next (afterSends (.wrPushAck isAck) (s.sinkSend (ackByte isAck))
    fun t => { t with wr := { t.wr with ackSent := true } }.answer .ok 0 0)

/-- The writer registers with the trailer queued (R155, R156): `#` and the two digits of the checksum. -/
def Wr.queueTrailer (w : Wr) : Wr :=
  { w with la0 := chHash, la1 := hexHigh w.csum, la2 := hexLow w.csum, laN := 3, trailer := true }

/-- The writer registers of a complete packet (R155). -/
def Wr.finish (w : Wr) : Wr := { w with finished := true }

/-- The second half of `WR.FINISH` for a Message or Notification: flush the trailer (R155). -/
def State.finishTrailer (s : State) : State :=
  afterSends .wrFinish s.flush fun t => { t with wr := t.wr.finish }.answer .ok 0 0

/-- `WR.FINISH` (R155). -/
def execWrFinish (s : State) : Result :=
  unlessFaulted s <|
  check s.wr.valid .wrNotInit s <|
  check (!s.wr.finished) .wrAfterFinished s <|
  if s.wr.type = .ack then
    check s.wr.ackSent .wrAckNotPushed s <|
    .next ({ s with wr := s.wr.finish }.answer .ok 0 0)
  else if s.wr.trailer then .next s.finishTrailer
  else
    .next (afterSends .wrFinish s.flush fun t => { t with wr := t.wr.queueTrailer }.finishTrailer)

end Sys2Proof.Machine
end

