-- ==== Sys2Proof/Machine/Dispatch.lean ====
section
/-! DEFINITION. One arm per operation (R70): each calls its meaning. -/

namespace Sys2Proof.Machine

/-- The meaning of an operation. -/
def exec (i : Instr) (s : State) : Host.Outcome State Fault Refusal :=
  match i with
  | .csumCalc base len => Sys2Proof.Machine.execCsumCalc base len s
  | .hexDec c0 c1 avail => Sys2Proof.Machine.execHexDec c0 c1 avail s
  | .hexEnc v => Sys2Proof.Machine.execHexEnc v s
  | .binEnc v => Sys2Proof.Machine.execBinEnc v s
  | .binDec e => Sys2Proof.Machine.execBinDec e s
  | .rleEnc base len => Sys2Proof.Machine.execRleEnc base len s
  | .wrInit t => Sys2Proof.Machine.execWrInit t s
  | .wrPush v => Sys2Proof.Machine.execWrPush v s
  | .wrPushAck f => Sys2Proof.Machine.execWrPushAck f s
  | .wrFinish => Sys2Proof.Machine.execWrFinish s
  | .rxRecv t base max => Sys2Proof.Machine.execRxRecv t base max s
  | .tokInit t base len => Sys2Proof.Machine.execTokInit t base len s
  | .tokAdv m d => Sys2Proof.Machine.execTokAdv m d s
  | .tokRewind => Sys2Proof.Machine.execTokRewind s
  | .bufLd idx => Sys2Proof.Machine.execBufLd idx s
  | .bufSt idx v => Sys2Proof.Machine.execBufSt idx v s
  | .csrRd num => Sys2Proof.Machine.execCsrRd num s

end Sys2Proof.Machine
end

