-- ==== Sys2Proof/Machine/Sequencer.lean ====
section
/-! DEFINITION. What the engine does next: the host's next event, or the operation in flight, or nothing (R45, R260,
R272). -/

namespace Sys2Proof.Machine

/-- A command word runs the operation it stands for, or raises Fault(ILLEGAL_COMMAND) where it is reserved (R74,
R229). -/
def runCommand (w : CmdWord) (s : State) : Host.Outcome State Fault Refusal :=
  match decode w with
  | .ok i => exec i s
  | .error _ => execReserved s

/-- A waiting operation goes on (R51, R52): a receive where it stopped, a writer operation by running again. -/
def resume (i : Instr) (s : State) : Host.Outcome State Fault Refusal :=
  match i with
  | .rxRecv t base max => continueRxRecv t base max s
  | i => exec i s

/-- What the engine does next. Reset comes first. The host's next command waits until the operation in flight has
ended (R45, R46). With nothing to do the engine is idle and nothing changes (R260; log entry 15). -/
def engineStep (s : State) : Host.Outcome State Fault Refusal :=
  match s.host, s.busy with
  | .reset :: _, _ => .next s.afterEvent.afterReset
  | _, some i => resume i s
  | .command w :: _, none => runCommand w s.afterEvent
  | [], none => .next s

/-- The command word that the host's check asks for: the low `nbits` bits of `w`, the others 0 (R71, N12). -/
def tableCommand (nbits w : Nat) : CmdWord := BitVec.ofNat 48 (w % 2 ^ nbits)

end Sys2Proof.Machine
end

