-- ==== Sys2Proof/Machine/Step.lean ====
section
/-! DEFINITION. One step of the machine. -/

namespace Sys2Proof.Machine

/-- One step: see `engineStep`. -/
def step (s : State) : Host.Outcome State Fault Refusal := engineStep s

/-- `s` with this command word as the host's next event and no operation in flight, so that the next step runs
it (log entry 4). -/
def State.withFetchWord (s : State) (nbits w : Nat) : State :=
  { s with host := .command (tableCommand nbits w) :: s.host, busy := none }

end Sys2Proof.Machine
end

