-- ==== Sys2Proof/Safety.lean ====
section
/-! DEFINITION. The terms the statements are made in: what an operation leaves unchanged, the invariant of the
machine, the order of the fault checks, and reference functions of the spec that are no operation of the engine
(R126, R130, R138, R184, R195, R241 to R243). -/

namespace Sys2Proof.Machine

/-! ## What an operation leaves unchanged -/

/-- The response of an operation that has ended (R75). -/
structure Responds (t : State) (st : Status) (r0 r1 : Idx) : Prop where
  rsp : t.rsp = some (rspWord st r0 r1)
  busy : t.busy = none

/-- Everything outside the engine's units that no operation writes: the parameters, the number of resets, the
host's further events. -/
structure KeepsOutside (s t : State) : Prop where
  params : t.params = s.params
  seed : t.seed = s.seed
  host : t.host = s.host

/-- No transport request was made (R54). -/
structure KeepsTransport (s t : State) : Prop where
  src : t.src = s.src
  sink : t.sink = s.sink
  sent : t.sent = s.sent

/-- Every register of every unit and the fault register is unchanged. -/
structure KeepsRegisters (s t : State) : Prop where
  fstat : t.fstat = s.fstat
  rx : t.rx = s.rx
  tok : t.tok = s.tok
  wr : t.wr = s.wr

/-- Every byte of `BUF` reads as before. -/
def KeepsBuf (s t : State) : Prop := ∀ a, t.byteAt a = s.byteAt a

/-- The operation gave this response and changed nothing else. -/
structure OnlyResponds (s t : State) (st : Status) (r0 r1 : Idx) : Prop where
  responds : Responds t st r0 r1
  outside : KeepsOutside s t
  transport : KeepsTransport s t
  registers : KeepsRegisters s t
  buf : KeepsBuf s t

/-- The operation raised this fault and changed nothing but `FSTAT` (R226). -/
structure OnlyFaults (s t : State) (c : Cause) : Prop where
  fstat : t.fstat = ⟨true, c.code⟩
  responds : Responds t .fault (byteField c.code) 0
  outside : KeepsOutside s t
  transport : KeepsTransport s t
  rx : t.rx = s.rx
  tok : t.tok = s.tok
  wr : t.wr = s.wr
  buf : KeepsBuf s t

/-- A tokenizer operation: only the tokenizer's registers and the response change. -/
structure KeepsAllButTok (s t : State) : Prop where
  outside : KeepsOutside s t
  transport : KeepsTransport s t
  fstat : t.fstat = s.fstat
  rx : t.rx = s.rx
  wr : t.wr = s.wr
  buf : KeepsBuf s t

/-- A writer operation: only the writer's registers, the sink's side of the transport and the response change. -/
structure KeepsAllButWr (s t : State) : Prop where
  outside : KeepsOutside s t
  src : t.src = s.src
  fstat : t.fstat = s.fstat
  rx : t.rx = s.rx
  tok : t.tok = s.tok
  buf : KeepsBuf s t

/-- A receive: only the receiver's registers, the source's side of the transport, the response and the bytes of
`BUF` from `base` on, `n` of them, change. -/
structure KeepsAllButRx (s t : State) (base n : Nat) : Prop where
  outside : KeepsOutside s t
  sink : t.sink = s.sink
  sent : t.sent = s.sent
  fstat : t.fstat = s.fstat
  tok : t.tok = s.tok
  wr : t.wr = s.wr
  buf : ∀ a, a < base ∨ base + n ≤ a → t.byteAt a = s.byteAt a

/-! ## The order of the fault checks -/

/-- The fault of a writer's checks before an operation (R159, orders 1 and 2). -/
def wrFault (w : Wr) : Option Cause :=
  if w.valid = false then some .wrNotInit
  else if w.finished = true then some .wrAfterFinished
  else none

/-- The first check that fails on an engine without a latched fault, in the order of R229 with the tables of R159
and R201; the command word is taken to be legal but for the delimiter byte that R74 forbids. -/
def firstFault (i : Instr) (s : State) : Option Cause :=
  let badWindow (base len : Idx) := s.params.cap.toNat < base.toNat + len.toNat
  match i with
  | .csumCalc base len => if badWindow base len then some .badWindow else none
  | .rleEnc base len => if badWindow base len then some .badWindow else none
  | .rxRecv _ base max => if badWindow base max then some .badWindow else none
  | .tokInit t base len =>
    if badWindow base len then some .badWindow
    else if t ≠ .ack ∧ len.toNat < 4 then some .tokShortPacket
    else none
  | .bufLd idx => if s.params.cap.toNat ≤ idx.toNat then some .badWindow else none
  | .bufSt idx _ => if s.params.cap.toNat ≤ idx.toNat then some .badWindow else none
  | .csrRd num =>
    if num.toNat ∈ [0x00, 0x01, 0x10, 0x11, 0x12, 0x13, 0x14, 0x20, 0x21, 0x22, 0x23, 0x24, 0x25, 0x26,
      0x30, 0x31, 0x32, 0x33] then none else some .badCsr
  | .wrPush _ =>
    match wrFault s.wr with
    | some c => some c
    | none =>
      if s.wr.type = .ack then some .wrWrongType
      else if s.wr.trailer = true then some .wrPushAfterTrailer
      else none
  | .wrPushAck _ =>
    match wrFault s.wr with
    | some c => some c
    | none =>
      if s.wr.type ≠ .ack then some .wrWrongType
      else if s.wr.ackSent = true then some .wrAckTwice
      else none
  | .wrFinish =>
    match wrFault s.wr with
    | some c => some c
    | none => if s.wr.type = .ack ∧ s.wr.ackSent = false then some .wrAckNotPushed else none
  | .tokAdv m d =>
    if m ≠ .literal ∧ d ≠ 0 then some .illegalCommand
    else if s.tok.valid = false then some .tokNotInit
    else if m = .literal ∧ d = 0x7D then some .tokBadDelim
    else none
  | .tokRewind =>
    if s.tok.valid = false then some .tokNotInit
    else if s.tok.armed = false then some .tokRewindUnarmed
    else none
  | .hexDec _ _ _ => none
  | .hexEnc _ => none
  | .binEnc _ => none
  | .binDec _ => none
  | .wrInit _ => none

/-- Which statuses an operation can end with when no fault is latched (R220, its table). -/
def allowedStatuses : Instr → List Status
  | .csumCalc _ _ => [.ok, .fault]
  | .hexDec _ _ _ => [.ok, .invalid, .fault]
  | .hexEnc _ => [.ok, .fault]
  | .binEnc _ => [.ok, .fault]
  | .binDec _ => [.ok, .fault]
  | .rleEnc _ _ => [.ok, .fault]
  | .wrInit _ => [.ok, .fault]
  | .wrPush _ => [.ok, .transport, .fault]
  | .wrPushAck _ => [.ok, .transport, .fault]
  | .wrFinish => [.ok, .transport, .fault]
  | .rxRecv _ _ _ => [.ok, .invalid, .checksumError, .endOfBuffer, .transport, .fault]
  | .tokInit _ _ _ => [.ok, .fault]
  | .tokAdv _ _ => [.ok, .endOfBuffer, .notFound, .fault]
  | .tokRewind => [.ok, .fault]
  | .bufLd _ => [.ok, .fault]
  | .bufSt _ _ => [.ok, .fault]
  | .csrRd _ => [.ok, .fault]

/-! ## The invariant of the machine -/

/-- `FSTAT`: a recorded cause is one of 1 to 13, and there is none without a fault (R20, R227). -/
def FstatOk (f : Fstat) : Prop :=
  if f.fault = true then 1 ≤ f.cause.toNat ∧ f.cause.toNat ≤ 13 else f.cause = 0

/-- The receiver's registers agree with its state (R14, R171, R175 to R177, R183 "RX.hash + 3 = RX.n"). -/
def RxOk (r : Rx) : Prop :=
  match r.state with
  | .prefix_ => r.esc = false ∧ r.sfx = 0 ∧ r.mark = 0 ∧ r.hash = 0 ∧ r.csum = 0
  | .body => r.sfx = 0 ∧ r.mark.toNat < r.n.toNat ∧ r.hash = 0 ∧ r.csum = 0
  | .suffix =>
    r.esc = false ∧ r.sfx.toNat < 2 ∧ r.mark.toNat < r.hash.toNat ∧
      r.n.toNat = r.hash.toNat + 1 + r.sfx.toNat ∧ r.csum = 0
  | .done =>
    r.esc = false ∧
      ((r.sfx = 0 ∧ r.hash = 0 ∧ r.n.toNat = r.mark.toNat + 1 ∧ r.csum = 0) ∨
       (r.sfx = 2 ∧ r.mark.toNat < r.hash.toNat ∧ r.n.toNat = r.hash.toNat + 3))

/-- R17, for the current and the previous triple, once `TOK.INIT` has run; before it every register is 0. -/
def TokOk (p : Params) (t : Tok) : Prop :=
  if t.valid = true then
    t.curStart.toNat + t.curLen.toNat + skipLen t.skip ≤ t.domEnd.toNat ∧
    t.prevStart.toNat + t.prevLen.toNat + skipLen t.prevSkip ≤ t.domEnd.toNat ∧
    t.base.toNat + t.domEnd.toNat ≤ p.cap.toNat
  else t = Tok.reset

/-- The writer's registers agree with its type and its progress (R150 to R157, R161). -/
def WrOk (w : Wr) : Prop :=
  if w.valid = true then
    if w.type = .ack then
      w.laN = 0 ∧ w.trailer = false ∧ w.csum = 0 ∧ (w.finished = true → w.ackSent = true)
    else
      w.ackSent = false ∧
      (if w.trailer = true then (w.finished = true ↔ w.laN = 0) else w.laN = 1 ∧ w.finished = false)
  else w = Wr.reset

/-- The bytes of `BUF` are kept in canonical form, inside the address space (R40). -/
def BufOk (p : Params) (m : Memory) : Prop :=
  m.wf = true ∧ ∀ c ∈ m, c.1 < p.cap.toNat

/-- Only an operation that uses the transport waits, with its own checks passed and no response given (R272). -/
def BusyOk (s : State) : Prop :=
  match s.busy with
  | none => True
  | some i =>
    s.rsp = none ∧ s.fstat.fault = false ∧ firstFault i s = none ∧
    match i with
    | .rxRecv t base max =>
      base.toNat + max.toNat ≤ s.params.cap.toNat ∧ s.rx.n.toNat ≤ max.toNat ∧ s.rx.n ≠ max ∧
        s.rx.state ≠ .done ∧ (t = .ack → s.rx.state = .prefix_)
    | .wrPush _ => True
    | .wrPushAck _ => True
    | .wrFinish => s.wr.type ≠ .ack
    | _ => False

/-- The invariant: what every state that the machine reaches from reset satisfies. -/
structure EngineOk (s : State) : Prop where
  params : s.params.Legal
  fstat : FstatOk s.fstat
  rx : RxOk s.rx
  rxInBuf : s.rx.n.toNat ≤ s.params.cap.toNat
  tok : TokOk s.params s.tok
  wr : WrOk s.wr
  buf : BufOk s.params s.buf
  busy : BusyOk s

/-! ## Reference functions -/

/-- Several operations one after the other, as a host that waits for each response issues them (R45). -/
def execAll : List Instr → State → Result
  | [], s => .next s
  | i :: is, s =>
    match exec i s with
    | .next t => execAll is t
    | .fault r => .fault r
    | .refused r => .refused r

/-- `c` is a hex digit of value `n`, of either case (R110, R111). -/
def IsHexDigit (c : Byte) (n : Nat) : Prop :=
  (n < 10 ∧ c.toNat = 0x30 + n) ∨
    (10 ≤ n ∧ n < 16 ∧ (c.toNat = 0x41 + (n - 10) ∨ c.toNat = 0x61 + (n - 10)))

/-- `c` is the upper-case hex digit of value `n` (R114). -/
def IsUpperHexDigit (c : Byte) (n : Nat) : Prop :=
  (n < 10 ∧ c.toNat = 0x30 + n) ∨ (10 ≤ n ∧ n < 16 ∧ c.toNat = 0x41 + (n - 10))

/-- `unescape` (R126). -/
def unescape : List Byte → List Byte
  | [] => []
  | [x] => [x]
  | x :: y :: rest => if x = 0x7D then (y ^^^ 0x20) :: unescape rest else x :: unescape (y :: rest)

/-- The maximal runs of a window, left to right, as (value, length) (R130). -/
def runs : List Byte → List (Byte × Nat)
  | [] => []
  | x :: xs =>
    match runs xs with
    | [] => [(x, 1)]
    | (v, n) :: rest => if x = v then (v, n + 1) :: rest else (x, 1) :: (v, n) :: rest

/-- The encoding of a whole window: the emissions of its runs, left to right (R130, R131). -/
def rleBytes (xs : List Byte) : List Byte :=
  (runs xs).flatMap fun r => rleRun r.2 r.1 r.2

/-- The expansion of the encoder's own output (R138): `x`, `*`, `n` stand for `n - 28` copies of `x`. -/
def expand : List Byte → List Byte
  | [] => []
  | [x] => [x]
  | [x, y] => [x, y]
  | x :: y :: n :: rest =>
    if y = 0x2A then List.replicate (n.toNat - 28) x ++ expand rest else x :: expand (y :: n :: rest)

/-- An emission for runs of `v` made of literal copies of `v` and of entries whose length byte is none of the
forbidden ones (R136). -/
inductive RunPieces (v : Byte) : List Byte → Prop where
  | nil : RunPieces v []
  | literal (rest : List Byte) : RunPieces v rest → RunPieces v (v :: rest)
  | entry (n : Byte) (rest : List Byte) : 0x20 ≤ n.toNat → n.toNat ≤ 0x7E → n ≠ 0x23 → n ≠ 0x24 → n ≠ 0x25 →
      RunPieces v rest → RunPieces v (v :: 0x2A :: n :: rest)

/-- R184: scanning the payload by R176 from the given escape record meets no `#` outside an escape pair and ends
with no escape marker unconsumed. -/
def payloadClean : Bool → List Byte → Bool
  | esc, [] => !esc
  | true, _ :: xs => payloadClean false xs
  | false, x :: xs =>
    if x = 0x7D then payloadClean true xs else if x = 0x23 then false else payloadClean false xs

/-- The sum of the bytes modulo 256 (R100), as a number. -/
def sumMod256 (xs : List Byte) : Nat := (xs.map BitVec.toNat).sum % 256

/-- The two checksum digits of a payload are `c0`, `c1` (R65, R156): upper case, high nibble first. -/
def IsChecksumField (xs : List Byte) (c0 c1 : Byte) : Prop :=
  IsUpperHexDigit c0 (sumMod256 xs / 16) ∧ IsUpperHexDigit c1 (sumMod256 xs % 16)

/-- The leading marker of a Message or a Notification (R62, R63). -/
def IsMarker (t : PacketType) (m : Byte) : Prop :=
  (t = .msg ∧ m = 0x24) ∨ (t = .notif ∧ m = 0x25)

/-- The bytes of a Message or Notification packet (R62, R63, R65). -/
def IsPacket (t : PacketType) (payload packet : List Byte) : Prop :=
  ∃ m c0 c1, IsMarker t m ∧ IsChecksumField payload c0 c1 ∧ packet = m :: payload ++ [0x23, c0, c1]

/-- The token before the first delimiter byte `d` outside an escape pair, and whether there is one (R195). -/
def untilDelim (d : Byte) : Bool → List Byte → List Byte × Bool
  | _, [] => ([], false)
  | true, x :: xs => (x :: (untilDelim d false xs).1, (untilDelim d false xs).2)
  | false, x :: xs =>
    if x = 0x7D then (x :: (untilDelim d true xs).1, (untilDelim d true xs).2)
    else if x = d then ([], true)
    else (x :: (untilDelim d false xs).1, (untilDelim d false xs).2)

/-- The receiver's registers after taking these bytes from the start of a receive (R171, R185). -/
def rxAfter (t : PacketType) (xs : List Byte) : Rx := xs.foldl (fun r x => r.take t x) Rx.reset

/-- The number of a receiver state (R14). -/
def rxStateNumber : RxState → Nat
  | .prefix_ => 0
  | .body => 1
  | .suffix => 2
  | .done => 3

/-- The number of a packet type (R73). -/
def packetTypeNumber : PacketType → Nat
  | .ack => 0
  | .msg => 1
  | .notif => 2

/-- The bytes queued in the lookahead buffer, oldest first (R18). -/
def Wr.queued (w : Wr) : List Byte := [w.la0, w.la1, w.la2].take w.laN.toNat

/-- The bytes a `WR.FINISH` of a Message or Notification has to send (R155): what is queued, and the trailer where
it is not queued yet. -/
def IsFinishQueue (w : Wr) (q : List Byte) : Prop :=
  (w.trailer = true ∧ q = w.queued) ∨
    (w.trailer = false ∧ ∃ c0 c1, IsUpperHexDigit c0 (w.csum.toNat / 16) ∧ IsUpperHexDigit c1 (w.csum.toNat % 16) ∧
      q = w.queued ++ [0x23, c0, c1])

/-- The writer's registers other than the lookahead buffer and the trailer flag are unchanged. -/
structure KeepsWrProgress (w v : Wr) : Prop where
  valid : v.valid = w.valid
  type : v.type = w.type
  csum : v.csum = w.csum
  finished : v.finished = w.finished
  ackSent : v.ackSent = w.ackSent

/-- The sink stopped a flush after accepting `j` of the queued bytes: those are sent, the rest stays queued in
order (R152, R157). -/
structure StoppedInQueue (s t : State) (j : Nat) : Prop where
  keeps : KeepsAllButWr s t
  progress : KeepsWrProgress s.wr t.wr
  trailer : t.wr.trailer = s.wr.trailer
  queued : t.wr.queued = s.wr.queued.drop j
  sent : t.sent = s.sent ++ s.wr.queued.take j

/-- The sink stopped a `WR.FINISH` in the trailer it had just queued, after accepting `j` bytes in all of `q`, the
bytes it had to send (R157). -/
structure StoppedInTrailer (s t : State) (q : List Byte) (j : Nat) : Prop where
  keeps : KeepsAllButWr s t
  progress : KeepsWrProgress s.wr t.wr
  trailer : t.wr.trailer = true
  queued : t.wr.queued = q.drop j
  sent : t.sent = s.sent ++ q.take j

/-- A request that meets this list of answers is not answered (R272). -/
def NoSinkAnswer (l : List SinkAnswer) : Prop := l = [] ∨ ∃ rest, l = .silent :: rest

/-- A request that meets this list of answers is not answered (R272). -/
def NoSrcAnswer (l : List SrcAnswer) : Prop := l = [] ∨ ∃ rest, l = .silent :: rest

/-- `code` is the 16-bit form of the transport code that `low` stands for, -32768 to -1 (R76). -/
def IsErrCode (low : BitVec 15) (code : Idx) : Prop := code.toInt = (low.toNat : Int) - 32768

/-- The operation waits for the transport: no response (R272). -/
structure Waits (t : State) (i : Instr) : Prop where
  rsp : t.rsp = none
  busy : t.busy = some i

/-- What a host that follows the source issues after a receive (R241 to R243): an Ack after OK, a Nack after
CHECKSUM_ERROR or INVALID, and after END_OF_BUFFER too (DESIGN CHOICE, log entry 14), nothing after a TRANSPORT
status (R245), nothing at all with `ack_enabled` false. -/
def ackReply (ackEnabled : Bool) (st : Status) : List Instr :=
  if ackEnabled then
    match st with
    | .ok => [.wrInit .ack, .wrPushAck true, .wrFinish]
    | .checksumError => [.wrInit .ack, .wrPushAck false, .wrFinish]
    | .invalid => [.wrInit .ack, .wrPushAck false, .wrFinish]
    | .endOfBuffer => [.wrInit .ack, .wrPushAck false, .wrFinish]
    | .notFound => []
    | .transport => []
    | .fault => []
  else []

/-- The rows of spec/opcode_table.json as (mask, match). -/
def opcodeRows : List (CmdWord × CmdWord) :=
  [ (0xFFFF00000000, 0x100000000000), (0xFF00FF000000, 0x200000000000), (0xFF00FFFFFFFF, 0x210000000000)
  , (0xFF00FFFFFFFF, 0x300000000000), (0xFF00FFFFFFFF, 0x310000000000), (0xFFFF00000000, 0x400000000000)
  , (0xFFFCFFFFFFFF, 0x500000000000), (0xFF00FFFFFFFF, 0x510000000000), (0xFFFEFFFFFFFF, 0x520000000000)
  , (0xFFFFFFFFFFFF, 0x530000000000), (0xFFFC00000000, 0x600000000000), (0xFFFC00000000, 0x700000000000)
  , (0xFF00FFFCFFFF, 0x710000000000), (0xFFFFFFFFFFFF, 0x720000000000), (0xFFFF0000FFFF, 0x800000000000)
  , (0xFF000000FFFF, 0x810000000000), (0xFF00FFFFFFFF, 0x900000000000) ]

/-- The words that match a row and are reserved all the same (R74 and the table's notes): packet type 3, delimiter
mode 3, a nonzero delimiter byte with mode SINGLE or END. -/
def reservedInRow (w : CmdWord) : Bool :=
  ((w.op == 0x50 || w.op == 0x60 || w.op == 0x70) && w.c == 3) ||
  (w.op == 0x71 && (w.a == 3 || (w.a != 0 && w.c != 0)))

/-- The legal command words (R74). -/
def legalWord (w : CmdWord) : Bool :=
  opcodeRows.any (fun r => w &&& r.1 == r.2) && !reservedInRow w

end Sys2Proof.Machine
end

