-- ==== Sys2Proof/Certificates/Slice0/Obligations.lean ====
section
/-! DEFINITION. The statements for the provers. Each says which rule of spec/ it formalises. A statement over every
state is one over every value of the OPEN parameters of R4, every content of `BUF` and every behaviour of the host
and the transport, since these are fields of the state. -/

open Sys2Proof Sys2Proof.Machine

/-! ## Command words and the step -/

/-- R71 to R73: no bit of an encoding is lost; the word of a legal operation stands for that operation alone. -/
def Obligations.DecodeOfEncodeIsTheInstruction : Prop :=
  ∀ i : Instr, i.WellFormed → decode (encode i) = .ok i

/-- R71 to R74: each legal word has one meaning and is the word of that meaning. -/
def Obligations.EncodeOfDecodeIsTheWord : Prop :=
  ∀ (w : CmdWord) (i : Instr), decode w = .ok i → encode i = w ∧ i.WellFormed

/-- R74, with the masks of spec/opcode_table.json: exactly the legal words stand for an operation. -/
def Obligations.ExactlyTheLegalWordsDecode : Prop :=
  ∀ w : CmdWord, (∃ i, decode w = .ok i) ↔ legalWord w = true

/-- R70 to R73, row by row: the op code and the fields of every operation, over all operands, and the example words
of R77, R112, R154, R203 and R211. -/
def Obligations.WordsOfTheSpecDecode : Prop :=
  (∀ (base len idx avail : Idx) (v w : Byte),
    decode (0x10#8 ++ 0x00#8 ++ base ++ len) = .ok (.csumCalc base len) ∧
    decode (0x20#8 ++ v ++ (0x00#8 ++ w) ++ avail) = .ok (.hexDec v w avail) ∧
    decode (0x21#8 ++ v ++ 0x0000#16 ++ 0x0000#16) = .ok (.hexEnc v) ∧
    decode (0x30#8 ++ v ++ 0x0000#16 ++ 0x0000#16) = .ok (.binEnc v) ∧
    decode (0x31#8 ++ v ++ 0x0000#16 ++ 0x0000#16) = .ok (.binDec v) ∧
    decode (0x40#8 ++ 0x00#8 ++ base ++ len) = .ok (.rleEnc base len) ∧
    decode (0x50#8 ++ 0x00#8 ++ 0x0000#16 ++ 0x0000#16) = .ok (.wrInit .ack) ∧
    decode (0x50#8 ++ 0x01#8 ++ 0x0000#16 ++ 0x0000#16) = .ok (.wrInit .msg) ∧
    decode (0x50#8 ++ 0x02#8 ++ 0x0000#16 ++ 0x0000#16) = .ok (.wrInit .notif) ∧
    decode (0x51#8 ++ v ++ 0x0000#16 ++ 0x0000#16) = .ok (.wrPush v) ∧
    decode (0x52#8 ++ 0x00#8 ++ 0x0000#16 ++ 0x0000#16) = .ok (.wrPushAck false) ∧
    decode (0x52#8 ++ 0x01#8 ++ 0x0000#16 ++ 0x0000#16) = .ok (.wrPushAck true) ∧
    decode (0x53#8 ++ 0x00#8 ++ 0x0000#16 ++ 0x0000#16) = .ok .wrFinish ∧
    decode (0x60#8 ++ 0x00#8 ++ base ++ len) = .ok (.rxRecv .ack base len) ∧
    decode (0x60#8 ++ 0x01#8 ++ base ++ len) = .ok (.rxRecv .msg base len) ∧
    decode (0x60#8 ++ 0x02#8 ++ base ++ len) = .ok (.rxRecv .notif base len) ∧
    decode (0x70#8 ++ 0x00#8 ++ base ++ len) = .ok (.tokInit .ack base len) ∧
    decode (0x70#8 ++ 0x01#8 ++ base ++ len) = .ok (.tokInit .msg base len) ∧
    decode (0x70#8 ++ 0x02#8 ++ base ++ len) = .ok (.tokInit .notif base len) ∧
    decode (0x71#8 ++ v ++ 0x0000#16 ++ 0x0000#16) = .ok (.tokAdv .literal v) ∧
    decode (0x71#8 ++ 0x00#8 ++ 0x0001#16 ++ 0x0000#16) = .ok (.tokAdv .single 0) ∧
    decode (0x71#8 ++ 0x00#8 ++ 0x0002#16 ++ 0x0000#16) = .ok (.tokAdv .toEnd 0) ∧
    decode (0x72#8 ++ 0x00#8 ++ 0x0000#16 ++ 0x0000#16) = .ok .tokRewind ∧
    decode (0x80#8 ++ 0x00#8 ++ idx ++ 0x0000#16) = .ok (.bufLd idx) ∧
    decode (0x81#8 ++ v ++ idx ++ 0x0000#16) = .ok (.bufSt idx v) ∧
    decode (0x90#8 ++ v ++ 0x0000#16 ++ 0x0000#16) = .ok (.csrRd v)) ∧
  decode 0x600100000020 = .ok (.rxRecv .msg 0 32) ∧
  decode 0x204100420002 = .ok (.hexDec 0x41 0x42 2) ∧
  decode 0x520000000000 = .ok (.wrPushAck false) ∧
  decode 0x712C00000000 = .ok (.tokAdv .literal 0x2C) ∧
  decode 0x814100000000 = .ok (.bufSt 0 0x41)

/-- R45: the engine executes the operation that the host's next command word stands for. The list of the host's
events is the model's form of the host (log entry 4). -/
def Obligations.StepRunsTheDecodedCommand : Prop :=
  ∀ (s : State) (w : CmdWord) (rest : List HostEvent) (i : Instr),
    s.host = .command w :: rest → s.busy = none → decode w = .ok i →
    step s = exec i { s with host := rest }

/-- R74: a reserved command word "raises Fault(ILLEGAL_COMMAND) and changes nothing else". -/
def Obligations.ReservedWordRaisesIllegalCommand : Prop :=
  ∀ (s : State) (w : CmdWord) (rest : List HostEvent),
    s.host = .command w :: rest → s.busy = none → s.fstat.fault = false → legalWord w = false →
    ∃ t, step s = .next t ∧ OnlyFaults { s with host := rest } t .illegalCommand

/-- R260: without a command the engine is idle; nothing changes. The step that changes nothing is the model's own
(log entry 15). -/
def Obligations.IdleEngineDoesNothing : Prop :=
  ∀ s : State, s.host = [] → s.busy = none → step s = .next s

/-- R272: an operation whose transport request is never answered, on the port it waits for, stays in flight; no step
changes anything until reset, whatever the other port would answer. That the wait is a step that changes nothing is
the model's own (log entry 7). -/
def Obligations.UnansweredOperationStaysInFlight : Prop :=
  ∀ (s : State) (i : Instr), EngineOk s → s.busy = some i → (∀ rest, s.host ≠ .reset :: rest) →
    ((∃ ty base max, i = .rxRecv ty base max) → NoSrcAnswer s.src) →
    ((∃ v, i = .wrPush v) ∨ (∃ f, i = .wrPushAck f) ∨ i = .wrFinish → NoSinkAnswer s.sink) →
    step s = .next s

/-! ## Reset -/

/-- R23: what reset leaves, whatever the engine was doing: every register is 0 and no byte of `BUF` has a known
value. The free value of an unwritten byte is the model's (log entry 1). -/
def Obligations.ResetEventClearsEveryRegister : Prop :=
  ∀ (s : State) (rest : List HostEvent), s.host = .reset :: rest →
    ∃ t, step s = .next t ∧
      t.fstat = ⟨false, 0⟩ ∧ t.rx = ⟨.prefix_, false, 0, 0, 0, 0, 0⟩ ∧
      t.tok = ⟨false, false, 0, 0, 0, 0, false, 0, 0, false⟩ ∧
      t.wr = ⟨false, .ack, 0, 0, 0, 0, 0, false, false, false⟩ ∧
      (∀ a, t.byteAt a = Config.unwrittenByte t.seed a) ∧
      t.busy = none ∧ t.rsp = none ∧ t.host = rest ∧ t.params = s.params

/-- R260: requests already answered stay answered; between operations the transport is untouched; of a request in
flight it is free whether its byte was transferred (U10; the model's form of it is log entry 8). -/
def Obligations.ResetKeepsWhatTheTransportDid : Prop :=
  ∀ (s : State) (rest : List HostEvent), s.host = .reset :: rest →
    ∃ t, step s = .next t ∧
      (s.busy = none → KeepsTransport s t) ∧
      (∀ ty b m, s.busy = some (.rxRecv ty b m) →
        t.sink = s.sink ∧ t.sent = s.sent ∧
          (t.src = dropSilentSrc s.src ∨ ∃ x, dropSilentSrc s.src = .byte x :: t.src)) ∧
      (∀ v, s.busy = some (.wrPush v) ∨ s.busy = some .wrFinish →
        t.src = s.src ∧ t.sink = dropSilentSink s.sink ∧
          (t.sent = s.sent ∨ t.sent = s.sent ++ [s.wr.la0])) ∧
      (∀ f, s.busy = some (.wrPushAck f) →
        t.src = s.src ∧ t.sink = dropSilentSink s.sink ∧
          (t.sent = s.sent ∨ t.sent = s.sent ++ [if f = true then 0x2B else 0x2D]))

/-- R23: "After reset every register of sections 3 to 6 is 0", for every value of the parameters. -/
def Obligations.RegistersAreZeroAfterReset : Prop :=
  ∀ p : Params,
    (State.resetWith p).fstat = ⟨false, 0⟩ ∧
    (State.resetWith p).rx = ⟨.prefix_, false, 0, 0, 0, 0, 0⟩ ∧
    (State.resetWith p).tok = ⟨false, false, 0, 0, 0, 0, false, 0, 0, false⟩ ∧
    (State.resetWith p).wr = ⟨false, .ack, 0, 0, 0, 0, 0, false, false, false⟩

/-! ## Faults and statuses -/

/-- R226: once `FSTAT.fault` is set, every operation "is refused with the same response", with no effect. -/
def Obligations.LatchedFaultRefusesEveryOperation : Prop :=
  ∀ (i : Instr) (s : State), s.fstat.fault = true →
    ∃ t, exec i s = .next t ∧ OnlyResponds s t .fault (byteField s.fstat.cause) 0

/-- R226: "A fault is precise: the faulting operation has changed no register other than `FSTAT`, no `BUF` byte, and
made no transport request." -/
def Obligations.FaultsArePrecise : Prop :=
  ∀ (i : Instr) (s t : State), s.fstat.fault = false → exec i s = .next t → t.fstat.fault = true →
    ∃ c, OnlyFaults s t c

/-- R229: "the first that fails decides the response", for every operation and every check of R159, R201 and
R227; an operation whose checks all pass records no fault. -/
def Obligations.FirstFailingCheckDecidesTheFault : Prop :=
  ∀ (i : Instr) (s : State), s.fstat.fault = false →
    (∀ c, firstFault i s = some c → ∃ t, exec i s = .next t ∧ OnlyFaults s t c) ∧
    (firstFault i s = none → ∀ t, exec i s = .next t → t.fstat = s.fstat)

/-- R220: which operation can end with which status. Only the four operations of R272 can be left in flight, with no
response; that this is a next state is the model's own (log entry 7). -/
def Obligations.OperationsEndWithTheirStatuses : Prop :=
  ∀ (i : Instr) (s t : State), s.fstat.fault = false → exec i s = .next t →
    (Waits t i ∧ ((∃ ty base max, i = .rxRecv ty base max) ∨ (∃ v, i = .wrPush v) ∨ (∃ f, i = .wrPushAck f) ∨
        i = .wrFinish)) ∨
      ∃ st r0 r1, st ∈ allowedStatuses i ∧ Responds t st r0 r1

/-- R75: the fields of a response word; R76: the numbers of the seven statuses; R227: the numbers of the thirteen
causes, which `FSTAT.cause` and the response of a fault carry (R226). -/
def Obligations.ResponseWordHasItsFields : Prop :=
  (∀ (st : Status) (r0 r1 : Idx),
    (rspWord st r0 r1).extractLsb' 32 8 = st.code ∧ (rspWord st r0 r1).extractLsb' 16 16 = r0 ∧
    (rspWord st r0 r1).extractLsb' 0 16 = r1) ∧
  (Status.ok.code = 0x00 ∧ Status.invalid.code = 0x01 ∧ Status.checksumError.code = 0x02 ∧
    Status.endOfBuffer.code = 0x03 ∧ Status.notFound.code = 0x04 ∧ Status.transport.code = 0x80 ∧
    Status.fault.code = 0xFF) ∧
  (Cause.illegalCommand.code = 1 ∧ Cause.badWindow.code = 2 ∧ Cause.wrNotInit.code = 3 ∧
    Cause.wrAfterFinished.code = 4 ∧ Cause.wrWrongType.code = 5 ∧ Cause.wrAckNotPushed.code = 6 ∧
    Cause.wrAckTwice.code = 7 ∧ Cause.wrPushAfterTrailer.code = 8 ∧ Cause.tokNotInit.code = 9 ∧
    Cause.tokRewindUnarmed.code = 10 ∧ Cause.tokBadDelim.code = 11 ∧ Cause.tokShortPacket.code = 12 ∧
    Cause.badCsr.code = 13) ∧
  (∀ (s : State) (c : Cause), (s.raise c).fstat = ⟨true, c.code⟩ ∧
    ∃ w, (s.raise c).rsp = some w ∧ w.extractLsb' 32 8 = 0xFF#8 ∧ w.extractLsb' 24 8 = 0#8 ∧
      w.extractLsb' 16 8 = c.code ∧ w.extractLsb' 0 16 = 0#16)

/-! ## The invariant -/

/-- R17, R20, R40, R183 ("RX.hash + 3 = RX.n") and the writer's rules: the registers of each unit stay consistent
and the memory stays canonical and inside the address space, at every step from every such state. The steps of the
model are those of log entries 4, 7, 8, 9 and 15. -/
def Obligations.EveryStepKeepsTheInvariant : Prop :=
  ∀ s t : State, EngineOk s → step s = .next t → EngineOk t

/-- The state after reset satisfies the invariant, for every legal value of the parameters. -/
def Obligations.ResetMeetsTheInvariant : Prop :=
  (∀ p : Params, p.Legal → EngineOk (State.resetWith p)) ∧ EngineOk State.reset

/-- From a state that satisfies the invariant the machine always has a next state: no operation on any data stops the
model. This rests on three choices of the model's, not on a rule: a hang (R272, which calls it "a step with no
outcome") is a step that changes nothing (log entry 7), a fault of the engine is a next state (log entry 9), and an
idle engine has a step (log entry 15). -/
def Obligations.GoodStatesAlwaysHaveANextState : Prop :=
  ∀ s : State, EngineOk s → ∃ t, step s = .next t

/-! ## Checksum unit -/

/-- R101 with R100: `CSUM.CALC` gives the sum of the window modulo 256 and writes nothing. -/
def Obligations.CsumCalcSumsItsWindow : Prop :=
  ∀ (s : State) (base len : Idx), s.fstat.fault = false →
    base.toNat + len.toNat ≤ s.params.cap.toNat →
    ∃ t, exec (.csumCalc base len) s = .next t ∧
      OnlyResponds s t .ok (BitVec.ofNat 16 (sumMod256 (s.bytes base.toNat len.toNat))) 0

/-- R102: "for all byte sequences x and y, `csum(x ++ y) = (csum(x) + csum(y)) mod 256`". -/
def Obligations.ChecksumIsAdditive : Prop :=
  ∀ x y : List Byte, (csum (x ++ y)).toNat = ((csum x).toNat + (csum y).toNat) % 256

/-! ## Hex codec -/

/-- R112: two hex digits of either case give their byte, high nibble first; otherwise `Invalid`. -/
def Obligations.HexDecDecodesTwoDigits : Prop :=
  ∀ (s : State) (c0 c1 : Byte) (avail : Idx), s.fstat.fault = false →
    (∀ h l, 2 ≤ avail.toNat → IsHexDigit c0 h → IsHexDigit c1 l →
      ∃ t, exec (.hexDec c0 c1 avail) s = .next t ∧ OnlyResponds s t .ok (BitVec.ofNat 16 (h * 16 + l)) 0) ∧
    (avail.toNat < 2 ∨ (¬ ∃ h, IsHexDigit c0 h) ∨ (¬ ∃ l, IsHexDigit c1 l) →
      ∃ t, exec (.hexDec c0 c1 avail) s = .next t ∧ OnlyResponds s t .invalid 0 0)

/-- R115 with R114: `HEX.ENC` gives the two upper-case digits, high nibble first. -/
def Obligations.HexEncGivesUpperCaseDigits : Prop :=
  ∀ (s : State) (v : Byte), s.fstat.fault = false →
    ∃ (c0 c1 : Byte) (t : State), exec (.hexEnc v) s = .next t ∧
      OnlyResponds s t .ok (c0.setWidth 16) (c1.setWidth 16) ∧
      IsUpperHexDigit c0 (v.toNat / 16) ∧ IsUpperHexDigit c1 (v.toNat % 16)

/-- R116: "if `HEX.ENC b` gives (r0, r1) then `HEX.DEC r0, r1, 2` gives OK with result b", and the converse does not
hold for lower-case input. -/
def Obligations.HexDecUndoesHexEnc : Prop :=
  ∀ (s : State) (b : Byte), s.fstat.fault = false →
    (∃ (c0 c1 : Byte) (t u : State),
      exec (.hexEnc b) s = .next t ∧ OnlyResponds s t .ok (c0.setWidth 16) (c1.setWidth 16) ∧
      exec (.hexDec c0 c1 2) t = .next u ∧ OnlyResponds t u .ok (b.setWidth 16) 0) ∧
    (∃ v w, exec (.hexDec 0x61 0x62 2) s = .next v ∧ OnlyResponds s v .ok 0xAB 0 ∧
      exec (.hexEnc 0xAB) s = .next w ∧ OnlyResponds s w .ok 0x41 0x42)

/-! ## Binary escape codec -/

/-- R122 with R121: which bytes are escaped, and what is put out. -/
def Obligations.BinEncEscapesExactlyTheListedBytes : Prop :=
  ∀ (s : State) (v : Byte), s.fstat.fault = false →
    (v.toNat < 0x20 ∨ 0x7E < v.toNat ∨ v = 0x23 ∨ v = 0x24 ∨ v = 0x25 ∨ v = 0x2A ∨ v = 0x7D ∨
        v ∈ s.params.escExtra →
      ∃ t, exec (.binEnc v) s = .next t ∧ OnlyResponds s t .ok 2 ((v ^^^ 0x20) ++ (0x7D : Byte))) ∧
    (0x20 ≤ v.toNat → v.toNat ≤ 0x7E → v ≠ 0x23 → v ≠ 0x24 → v ≠ 0x25 → v ≠ 0x2A → v ≠ 0x7D →
        v ∉ s.params.escExtra →
      ∃ t, exec (.binEnc v) s = .next t ∧ OnlyResponds s t .ok 1 ((0 : Byte) ++ v))

/-- R123: `BIN.DEC` gives the operand XOR 0x20, whatever it is. -/
def Obligations.BinDecXorsWith20 : Prop :=
  ∀ (s : State) (e : Byte), s.fstat.fault = false →
    ∃ t, exec (.binDec e) s = .next t ∧ OnlyResponds s t .ok ((e ^^^ 0x20).setWidth 16) 0

/-- R125: decoding the output of `BIN.ENC b` yields `b`, for every value of `ESC_EXTRA`. -/
def Obligations.BinDecUndoesBinEnc : Prop :=
  ∀ (s : State) (b : Byte), s.fstat.fault = false →
    ∃ (t : State) (o1 o2 : Byte), exec (.binEnc b) s = .next t ∧
      ((OnlyResponds s t .ok 1 (o2 ++ o1) ∧ o1 = b) ∨
       (OnlyResponds s t .ok 2 (o2 ++ o1) ∧ o1 = 0x7D ∧
        ∃ u, exec (.binDec o2) t = .next u ∧ OnlyResponds t u .ok (b.setWidth 16) 0))

/-- R126 with R125: unescaping the sequence of the outputs of `BIN.ENC` gives the data back. -/
def Obligations.UnescapeUndoesTheEscapeOfASequence : Prop :=
  ∀ (p : Params) (xs : List Byte), unescape (xs.flatMap (escapeByte p)) = xs

/-- R184: "A payload built by applying `BIN.ENC` to every data byte meets this condition." -/
def Obligations.EscapedPayloadsCanBeFramed : Prop :=
  ∀ (p : Params) (xs : List Byte), payloadClean false (xs.flatMap (escapeByte p)) = true

/-! ## Run-length encoder -/

/-- R131, row for row, with the length bytes of R132. -/
def Obligations.RunEmissionFollowsThePolicyTable : Prop :=
  ∀ (v : Byte) (runLen : Nat),
    (1 ≤ runLen ∧ runLen ≤ 3 → rleRun runLen v runLen = List.replicate runLen v) ∧
    (4 ≤ runLen ∧ runLen ≤ 6 → rleRun runLen v runLen = [v, 0x2A, BitVec.ofNat 8 (runLen - 1 + 0x1D)]) ∧
    (7 ≤ runLen ∧ runLen ≤ 9 →
      rleRun runLen v runLen = [v, 0x2A, 0x22] ++ List.replicate (runLen - 6) v) ∧
    (10 ≤ runLen ∧ runLen ≤ 98 → rleRun runLen v runLen = [v, 0x2A, BitVec.ofNat 8 (runLen - 1 + 0x1D)]) ∧
    (98 < runLen → rleRun runLen v runLen = [v, 0x2A, 0x7E] ++ rleRun (runLen - 98) v (runLen - 98))

/-- R133, R134: the in-place encoder leaves at `base` the emissions of the maximal runs of the window, reports their
length, and changes no other byte and no register. -/
def Obligations.RleEncInPlaceEncodesTheRuns : Prop :=
  ∀ (s : State) (base len : Idx), s.fstat.fault = false →
    base.toNat + len.toNat ≤ s.params.cap.toNat →
    ∃ (t : State) (out : List Byte), exec (.rleEnc base len) s = .next t ∧
      out = rleBytes (s.bytes base.toNat len.toNat) ∧
      Responds t .ok (BitVec.ofNat 16 out.length) 0 ∧
      t.bytes base.toNat out.length = out ∧
      (∀ a, a < base.toNat ∨ base.toNat + out.length ≤ a → t.byteAt a = s.byteAt a) ∧
      KeepsOutside s t ∧ KeepsTransport s t ∧ KeepsRegisters s t

/-- R135: "for all inputs, `len(encode(buf)) <= len(buf)`", and run by run. -/
def Obligations.RleNeverExpands : Prop :=
  (∀ xs : List Byte, (rleBytes xs).length ≤ xs.length) ∧
  (∀ (v : Byte) (runLen : Nat), (rleRun runLen v runLen).length ≤ runLen)

/-- R136: no entry's length byte is `#`, `$`, `%` or outside the printable range; no other value is forbidden: `*`,
`+`, `-` and `}` "are all produced". -/
def Obligations.RleLengthBytesAreNeverForbidden : Prop :=
  (∀ (v : Byte) (runLen : Nat), RunPieces v (rleRun runLen v runLen)) ∧
  (∀ v : Byte, rleRun 14 v 14 = [v, 0x2A, 0x2A] ∧ rleRun 15 v 15 = [v, 0x2A, 0x2B] ∧
    rleRun 17 v 17 = [v, 0x2A, 0x2D] ∧ rleRun 97 v 97 = [v, 0x2A, 0x7D])

/-- R138: "`expand(RLE.ENC(s)) = s` for every `s` that contains no `*`". -/
def Obligations.RleExpandsBack : Prop :=
  ∀ xs : List Byte, 0x2A ∉ xs → expand (rleBytes xs) = xs

/-! ## Packet writer -/

/-- R151: `WR.INIT` queues the marker, sends nothing, and starts the packet whatever the writer was doing. -/
def Obligations.WrInitQueuesTheMarker : Prop :=
  ∀ (s : State) (ty : PacketType), s.fstat.fault = false →
    ∃ t, exec (.wrInit ty) s = .next t ∧ Responds t .ok 0 0 ∧
      t.wr.valid = true ∧ t.wr.type = ty ∧ t.wr.csum = 0 ∧ t.wr.finished = false ∧ t.wr.ackSent = false ∧
      t.wr.trailer = false ∧
      (ty = .msg → t.wr.queued = [0x24]) ∧ (ty = .notif → t.wr.queued = [0x25]) ∧ (ty = .ack → t.wr.queued = []) ∧
      KeepsAllButWr s t ∧ t.sink = s.sink ∧ t.sent = s.sent

/-- R153: `WR.PUSH` sends what is held back, oldest first, adds the byte to the checksum and holds it back. -/
def Obligations.WrPushSendsTheHeldBytes : Prop :=
  ∀ (s : State) (v : Byte) (rest : List SinkAnswer), s.fstat.fault = false →
    s.wr.valid = true → s.wr.finished = false → s.wr.type ≠ .ack → s.wr.trailer = false →
    s.sink = List.replicate s.wr.laN.toNat .done ++ rest →
    ∃ t, exec (.wrPush v) s = .next t ∧ Responds t .ok 0 0 ∧
      t.sent = s.sent ++ s.wr.queued ∧ t.sink = rest ∧
      t.wr.queued = [v] ∧ t.wr.csum.toNat = (s.wr.csum.toNat + v.toNat) % 256 ∧
      t.wr.valid = true ∧ t.wr.type = s.wr.type ∧ t.wr.finished = false ∧ t.wr.trailer = false ∧
      t.wr.ackSent = s.wr.ackSent ∧ KeepsAllButWr s t

/-- R154: `WR.PUSHACK` sends `+` or `-` directly, one request, and records that it did. -/
def Obligations.WrPushAckSendsTheAckByte : Prop :=
  ∀ (s : State) (f : Bool) (rest : List SinkAnswer), s.fstat.fault = false →
    s.wr.valid = true → s.wr.finished = false → s.wr.type = .ack → s.wr.ackSent = false →
    s.sink = .done :: rest →
    ∃ t, exec (.wrPushAck f) s = .next t ∧ Responds t .ok 0 0 ∧
      t.sent = s.sent ++ [if f = true then 0x2B else 0x2D] ∧ t.sink = rest ∧
      t.wr = { s.wr with ackSent := true } ∧ KeepsAllButWr s t

/-- R155, R156: `WR.FINISH` of a Message or Notification sends what is queued and the trailer `#` with the two
digits of the checksum (the rest of the trailer where an earlier attempt had queued it); of an Ack packet whose
ack has been pushed it sends nothing. Either way the packet is complete. -/
def Obligations.WrFinishCompletesThePacket : Prop :=
  ∀ (s : State), s.fstat.fault = false → s.wr.valid = true → s.wr.finished = false →
    (s.wr.type = .ack → s.wr.ackSent = true →
      ∃ t, exec .wrFinish s = .next t ∧ Responds t .ok 0 0 ∧ t.wr = { s.wr with finished := true } ∧
        t.sink = s.sink ∧ t.sent = s.sent ∧ KeepsAllButWr s t) ∧
    (∀ (q : List Byte) (rest : List SinkAnswer), s.wr.type ≠ .ack → IsFinishQueue s.wr q →
      s.sink = List.replicate q.length .done ++ rest →
      ∃ t, exec .wrFinish s = .next t ∧ Responds t .ok 0 0 ∧ t.sent = s.sent ++ q ∧ t.sink = rest ∧
        t.wr.finished = true ∧ t.wr.trailer = true ∧ t.wr.queued = [] ∧ t.wr.valid = true ∧
        t.wr.type = s.wr.type ∧ t.wr.csum = s.wr.csum ∧ t.wr.ackSent = s.wr.ackSent ∧ KeepsAllButWr s t)

/-- R157: where the sink answers `Err` after accepting `j` bytes, the operation ends with TRANSPORT and the code;
the accepted bytes stay sent, the failed byte and those behind it stay queued, a failed push does not take its
byte, a trailer that was queued stays queued and is recorded. -/
def Obligations.SinkErrorAbortsTheWriter : Prop :=
  ∀ (s : State) (j : Nat) (low : BitVec 15) (rest : List SinkAnswer), s.fstat.fault = false →
    s.wr.valid = true → s.wr.finished = false →
    s.sink = List.replicate j .done ++ .err low :: rest →
    ∃ code, IsErrCode low code ∧
    (∀ v, s.wr.type ≠ .ack → s.wr.trailer = false → j < s.wr.queued.length →
      ∃ t, exec (.wrPush v) s = .next t ∧ Responds t .transport code 0 ∧ t.sink = rest ∧ StoppedInQueue s t j) ∧
    (∀ f, s.wr.type = .ack → s.wr.ackSent = false → j = 0 →
      ∃ t, exec (.wrPushAck f) s = .next t ∧ Responds t .transport code 0 ∧ t.sink = rest ∧ t.sent = s.sent ∧
        t.wr = s.wr ∧ KeepsAllButWr s t) ∧
    (s.wr.type ≠ .ack → j < s.wr.queued.length →
      ∃ t, exec .wrFinish s = .next t ∧ Responds t .transport code 0 ∧ t.sink = rest ∧ StoppedInQueue s t j) ∧
    (∀ q, s.wr.type ≠ .ack → s.wr.trailer = false → IsFinishQueue s.wr q → s.wr.queued.length ≤ j → j < q.length →
      ∃ t, exec .wrFinish s = .next t ∧ Responds t .transport code 0 ∧ t.sink = rest ∧ StoppedInTrailer s t q j)

/-- R272: the same places where the sink does not answer: the operation waits there, with no response. -/
def Obligations.SilentSinkLeavesTheWriterWaiting : Prop :=
  ∀ (s : State) (j : Nat) (rest : List SinkAnswer), s.fstat.fault = false →
    s.wr.valid = true → s.wr.finished = false → NoSinkAnswer rest →
    s.sink = List.replicate j .done ++ rest →
    (∀ v, s.wr.type ≠ .ack → s.wr.trailer = false → j < s.wr.queued.length →
      ∃ t, exec (.wrPush v) s = .next t ∧ Waits t (.wrPush v) ∧ t.sink = rest ∧ StoppedInQueue s t j) ∧
    (∀ f, s.wr.type = .ack → s.wr.ackSent = false → j = 0 →
      ∃ t, exec (.wrPushAck f) s = .next t ∧ Waits t (.wrPushAck f) ∧ t.sink = rest ∧ t.sent = s.sent ∧
        t.wr = s.wr ∧ KeepsAllButWr s t) ∧
    (s.wr.type ≠ .ack → j < s.wr.queued.length →
      ∃ t, exec .wrFinish s = .next t ∧ Waits t .wrFinish ∧ t.sink = rest ∧ StoppedInQueue s t j) ∧
    (∀ q, s.wr.type ≠ .ack → s.wr.trailer = false → IsFinishQueue s.wr q → s.wr.queued.length ≤ j → j < q.length →
      ∃ t, exec .wrFinish s = .next t ∧ Waits t .wrFinish ∧ t.sink = rest ∧ StoppedInTrailer s t q j)

/-- R158: a writer operation that ended with TRANSPORT and, repeated, succeeds "leaves the wire and the writer
exactly as if the first attempt had succeeded": as if the sink had not answered `Err` in between. -/
def Obligations.RetryLeavesAsIfTheFirstAttemptHadSucceeded : Prop :=
  ∀ (i : Instr) (s t u : State) (code : Idx),
    ((∃ v, i = .wrPush v) ∨ (∃ f, i = .wrPushAck f) ∨ i = .wrFinish) → s.fstat.fault = false →
    exec i s = .next t → Responds t .transport code 0 → exec i t = .next u → Responds u .ok 0 0 →
    ∃ (j : Nat) (low : BitVec 15) (rest : List SinkAnswer),
      s.sink = List.replicate j .done ++ .err low :: rest ∧ IsErrCode low code ∧
      exec i { s with sink := List.replicate j .done ++ rest } = .next u

/-- R161: what has reached the sink after each operation of a packet, with a sink that accepts every byte. -/
def Obligations.WriterPutsThePacketOnTheWire : Prop :=
  (∀ (s : State) (ty : PacketType) (m : Byte) (payload : List Byte) (rest : List SinkAnswer),
    s.fstat.fault = false → IsMarker ty m → s.sink = List.replicate (payload.length + 4) .done ++ rest →
    (∃ t, execAll (.wrInit ty :: payload.map .wrPush) s = .next t ∧ Responds t .ok 0 0 ∧
      t.sent = s.sent ++ (m :: payload).dropLast) ∧
    (∃ t packet, execAll (.wrInit ty :: payload.map .wrPush ++ [.wrFinish]) s = .next t ∧ Responds t .ok 0 0 ∧
      IsPacket ty payload packet ∧ t.sent = s.sent ++ packet ∧ t.sink = rest)) ∧
  (∀ (s : State) (f : Bool) (rest : List SinkAnswer), s.fstat.fault = false → s.sink = .done :: rest →
    (∃ t, execAll [.wrInit .ack] s = .next t ∧ Responds t .ok 0 0 ∧ t.sent = s.sent) ∧
    (∃ t, execAll [.wrInit .ack, .wrPushAck f] s = .next t ∧ Responds t .ok 0 0 ∧
      t.sent = s.sent ++ [if f = true then 0x2B else 0x2D]) ∧
    (∃ t, execAll [.wrInit .ack, .wrPushAck f, .wrFinish] s = .next t ∧ Responds t .ok 0 0 ∧
      t.sent = s.sent ++ [if f = true then 0x2B else 0x2D]))

/-- R241 to R243, the host's contract: the reply it prescribes puts exactly one `+` on the wire after OK, one `-`
after CHECKSUM_ERROR or INVALID, and nothing with `ack_enabled` false. -/
def Obligations.AckReplySendsOneByte : Prop :=
  ∀ (s : State) (rest : List SinkAnswer), s.fstat.fault = false → s.sink = .done :: rest →
    (∃ t, execAll (ackReply true .ok) s = .next t ∧ t.sent = s.sent ++ [0x2B] ∧ t.sink = rest) ∧
    (∀ st, st = .checksumError ∨ st = .invalid →
      ∃ t, execAll (ackReply true st) s = .next t ∧ t.sent = s.sent ++ [0x2D] ∧ t.sink = rest) ∧
    (∀ st, execAll (ackReply false st) s = .next s)

/-! ## Packet receiver -/

/-- R185: the receiver as a transition table, row by row. -/
def Obligations.ReceiverFollowsTheTransitionTable : Prop :=
  ∀ (ty : PacketType) (x : Byte) (r : Rx),
    (r.state = .prefix_ → ((ty = .msg ∧ x = 0x24) ∨ (ty = .notif ∧ x = 0x25)) →
      r.take ty x = { r with n := r.n + 1, mark := r.n, state := .body }) ∧
    (r.state = .prefix_ → ty = .ack → (x = 0x2B ∨ x = 0x2D) →
      r.take ty x = { r with n := r.n + 1, mark := r.n, state := .done }) ∧
    (r.state = .prefix_ → ¬ (ty = .msg ∧ x = 0x24) → ¬ (ty = .notif ∧ x = 0x25) →
        ¬ (ty = .ack ∧ (x = 0x2B ∨ x = 0x2D)) → r.take ty x = { r with n := r.n + 1 }) ∧
    (r.state = .body → r.esc = true → r.take ty x = { r with n := r.n + 1, esc := false }) ∧
    (r.state = .body → r.esc = false → x = 0x7D → r.take ty x = { r with n := r.n + 1, esc := true }) ∧
    (r.state = .body → r.esc = false → x = 0x23 →
      r.take ty x = { r with n := r.n + 1, hash := r.n, state := .suffix }) ∧
    (r.state = .body → r.esc = false → x ≠ 0x7D → x ≠ 0x23 → r.take ty x = { r with n := r.n + 1 }) ∧
    (r.state = .suffix → r.sfx = 0 → r.take ty x = { r with n := r.n + 1, sfx := 1 }) ∧
    (r.state = .suffix → r.sfx = 1 → r.take ty x = { r with n := r.n + 1, sfx := 2, state := .done })

/-- R183 with R174 to R180: a receive of garbage, a leading marker, a payload that can be framed, `#` and two bytes.
The bytes lie in the window, the registers tell where, the checksum is the payload's, and the status is the
validator's. -/
def Obligations.RecvOfAFramedPacketIsValidated : Prop :=
  ∀ (s : State) (ty : PacketType) (base max : Idx) (garbage payload : List Byte) (m d1 d2 : Byte)
    (xs : List Byte) (rest : List SrcAnswer),
    s.fstat.fault = false → base.toNat + max.toNat ≤ s.params.cap.toNat →
    IsMarker ty m → m ∉ garbage → payloadClean false payload = true →
    xs = garbage ++ m :: payload ++ [0x23, d1, d2] → xs.length ≤ max.toNat →
    s.src = xs.map .byte ++ rest →
    ∃ t, exec (.rxRecv ty base max) s = .next t ∧ t.src = rest ∧
      KeepsAllButRx s t base.toNat xs.length ∧ t.bytes base.toNat xs.length = xs ∧
      t.rx.state = .done ∧ t.rx.esc = false ∧ t.rx.sfx = 2 ∧ t.rx.n.toNat = xs.length ∧
      t.rx.mark.toNat = garbage.length ∧ t.rx.hash.toNat = garbage.length + 1 + payload.length ∧
      t.rx.csum.toNat = sumMod256 payload ∧
      (∀ h l, IsHexDigit d1 h → IsHexDigit d2 l → h * 16 + l = sumMod256 payload →
        Responds t .ok (BitVec.ofNat 16 xs.length) (BitVec.ofNat 16 garbage.length)) ∧
      (∀ h l, IsHexDigit d1 h → IsHexDigit d2 l → h * 16 + l ≠ sumMod256 payload →
        Responds t .checksumError 0 0) ∧
      ((¬ ∃ h, IsHexDigit d1 h) ∨ (¬ ∃ l, IsHexDigit d2 l) → Responds t .invalid 0 0)

/-- R178, R175: an Ack packet is the first `+` or `-`, accepted without validation. -/
def Obligations.RecvOfAnAckPacketIsAccepted : Prop :=
  ∀ (s : State) (base max : Idx) (garbage : List Byte) (x : Byte) (xs : List Byte) (rest : List SrcAnswer),
    s.fstat.fault = false → base.toNat + max.toNat ≤ s.params.cap.toNat →
    0x2B ∉ garbage → 0x2D ∉ garbage → x = 0x2B ∨ x = 0x2D →
    xs = garbage ++ [x] → xs.length ≤ max.toNat → s.src = xs.map .byte ++ rest →
    ∃ t, exec (.rxRecv .ack base max) s = .next t ∧ t.src = rest ∧
      KeepsAllButRx s t base.toNat xs.length ∧ t.bytes base.toNat xs.length = xs ∧
      t.rx = ⟨.done, false, 0, BitVec.ofNat 16 xs.length, BitVec.ofNat 16 garbage.length, 0, 0⟩ ∧
      Responds t .ok (BitVec.ofNat 16 xs.length) (BitVec.ofNat 16 garbage.length)

/-- R172: when the budget is used up before DONE the receive ends with END_OF_BUFFER, "without asking the source
for another byte". -/
def Obligations.RecvEndsWhenTheBudgetIsUsedUp : Prop :=
  ∀ (s : State) (ty : PacketType) (base max : Idx) (xs : List Byte) (rest : List SrcAnswer),
    s.fstat.fault = false → base.toNat + max.toNat ≤ s.params.cap.toNat →
    xs.length = max.toNat → (rxAfter ty xs).state ≠ .done → s.src = xs.map .byte ++ rest →
    ∃ t, exec (.rxRecv ty base max) s = .next t ∧ Responds t .endOfBuffer 0 0 ∧ t.src = rest ∧
      t.rx = rxAfter ty xs ∧ KeepsAllButRx s t base.toNat xs.length ∧ t.bytes base.toNat xs.length = xs

/-- R173: an error of the source ends the receive with TRANSPORT and the code; registers and `BUF` stay as after the
last stored byte. -/
def Obligations.RecvEndsWithTheSourcesError : Prop :=
  ∀ (s : State) (ty : PacketType) (base max : Idx) (xs : List Byte) (low : BitVec 15) (rest : List SrcAnswer),
    s.fstat.fault = false → base.toNat + max.toNat ≤ s.params.cap.toNat →
    xs.length < max.toNat → (rxAfter ty xs).state ≠ .done → s.src = xs.map .byte ++ .err low :: rest →
    ∃ t code, exec (.rxRecv ty base max) s = .next t ∧ IsErrCode low code ∧ Responds t .transport code 0 ∧
      t.src = rest ∧ t.rx = rxAfter ty xs ∧ KeepsAllButRx s t base.toNat xs.length ∧
      t.bytes base.toNat xs.length = xs

/-- R272: a source that does not answer leaves the receive in flight, with no response and what it has stored. -/
def Obligations.RecvWaitsForASilentSource : Prop :=
  ∀ (s : State) (ty : PacketType) (base max : Idx) (xs : List Byte) (rest : List SrcAnswer),
    s.fstat.fault = false → base.toNat + max.toNat ≤ s.params.cap.toNat →
    xs.length < max.toNat → (rxAfter ty xs).state ≠ .done → NoSrcAnswer rest → s.src = xs.map .byte ++ rest →
    ∃ t, exec (.rxRecv ty base max) s = .next t ∧ Waits t (.rxRecv ty base max) ∧
      t.src = rest ∧ t.rx = rxAfter ty xs ∧ KeepsAllButRx s t base.toNat xs.length ∧
      t.bytes base.toNat xs.length = xs

/-- R51 to R53, R152: an operation that waited goes on where it stopped: had the transport given all its answers at
once, the end would be the same, for a receive and for the three writer operations. That the transport may answer
later is the model's own reading (log entry 7). -/
def Obligations.WaitingOperationGoesOnWhereItStopped : Prop :=
  (∀ (s t : State) (ty : PacketType) (base max : Idx) (xs : List Byte) (more : List SrcAnswer),
    s.fstat.fault = false → base.toNat + max.toNat ≤ s.params.cap.toNat →
    xs.length < max.toNat → (rxAfter ty xs).state ≠ .done → (∀ rest, s.host ≠ .reset :: rest) →
    s.src = xs.map .byte → exec (.rxRecv ty base max) s = .next t →
    step { t with src := more } = exec (.rxRecv ty base max) { s with src := xs.map .byte ++ more }) ∧
  (∀ (s t : State) (i : Instr) (j : Nat) (more : List SinkAnswer),
    (∃ v, i = .wrPush v) ∨ (∃ f, i = .wrPushAck f) ∨ i = .wrFinish →
    s.fstat.fault = false → (∀ rest, s.host ≠ .reset :: rest) →
    s.sink = List.replicate j .done → exec i s = .next t → Waits t i →
    step { t with sink := more } = exec i { s with sink := List.replicate j .done ++ more })

/-- R162: "a packet built by the writer for a given payload, then fed byte-by-byte into the receiver, is accepted
with the same payload and exact byte length", for a payload that meets the condition of R184. -/
def Obligations.WhatTheWriterSendsTheReceiverAccepts : Prop :=
  ∀ (s : State) (ty : PacketType) (base max : Idx) (payload : List Byte)
    (sinkRest : List SinkAnswer) (srcRest : List SrcAnswer),
    s.fstat.fault = false → ty ≠ .ack → payloadClean false payload = true →
    base.toNat + max.toNat ≤ s.params.cap.toNat → payload.length + 4 ≤ max.toNat →
    s.sink = List.replicate (payload.length + 4) .done ++ sinkRest →
    ∃ t u packet, execAll (.wrInit ty :: payload.map .wrPush ++ [.wrFinish]) s = .next t ∧
      t.sent = s.sent ++ packet ∧
      exec (.rxRecv ty base max) { t with src := packet.map .byte ++ srcRest } = .next u ∧
      Responds u .ok (BitVec.ofNat 16 (payload.length + 4)) 0 ∧ u.src = srcRest ∧
      u.bytes base.toNat (payload.length + 4) = packet ∧
      u.bytes (base.toNat + 1) payload.length = payload

/-! ## Packet tokenizer -/

/-- R191, R190: the cursor before the first token, the domain without marker, `#` and digits. -/
def Obligations.TokInitPlacesTheCursor : Prop :=
  ∀ (s : State) (ty : PacketType) (base len : Idx), s.fstat.fault = false →
    base.toNat + len.toNat ≤ s.params.cap.toNat →
    (ty = .ack →
      ∃ t, exec (.tokInit ty base len) s = .next t ∧ Responds t .ok 0 0 ∧ KeepsAllButTok s t ∧
        t.tok = ⟨true, false, base, len, 0, 0, false, 0, 0, false⟩) ∧
    (ty ≠ .ack → 4 ≤ len.toNat →
      ∃ t d, exec (.tokInit ty base len) s = .next t ∧ Responds t .ok 0 0 ∧ KeepsAllButTok s t ∧
        d.toNat = len.toNat - 3 ∧ t.tok = ⟨true, false, base, d, 0, 0, true, 0, 0, true⟩)

/-- R195 with R193, R198, R199: LITERAL mode, the token up to the first delimiter outside an escape pair, or the
remainder of the domain with NOT_FOUND. -/
def Obligations.TokAdvSplitsAtTheFirstUnescapedDelimiter : Prop :=
  ∀ (s : State) (d : Byte) (p n : Nat) (token : List Byte) (found : Bool), s.fstat.fault = false →
    s.tok.valid = true → TokOk s.params s.tok → d ≠ 0x7D →
    p = s.tok.curStart.toNat + s.tok.curLen.toNat + (if s.tok.skip = true then 1 else 0) →
    p + n = s.tok.domEnd.toNat → 0 < n →
    (token, found) = untilDelim d false (s.bytes (s.tok.base.toNat + p) n) →
    ∃ t, exec (.tokAdv .literal d) s = .next t ∧
      Responds t (if found = true then .ok else .notFound) (BitVec.ofNat 16 p) (BitVec.ofNat 16 token.length) ∧
      KeepsAllButTok s t ∧
      t.tok = ⟨true, true, s.tok.base, s.tok.domEnd, BitVec.ofNat 16 p, BitVec.ofNat 16 token.length, found,
        s.tok.curStart, s.tok.curLen, s.tok.skip⟩

/-- R196, R197 with R193, R198, R199: SINGLE takes one byte, END the remainder; the status of SINGLE on the last
byte of the domain is the parameter's. -/
def Obligations.TokAdvTakesOneByteOrTheRest : Prop :=
  ∀ (s : State) (p n : Nat), s.fstat.fault = false →
    s.tok.valid = true → TokOk s.params s.tok →
    p = s.tok.curStart.toNat + s.tok.curLen.toNat + (if s.tok.skip = true then 1 else 0) →
    p + n = s.tok.domEnd.toNat → 0 < n →
    (∃ t, exec (.tokAdv .single 0) s = .next t ∧
      Responds t (if n = 1 ∧ s.params.singleLastIsNotFound = true then .notFound else .ok)
        (BitVec.ofNat 16 p) 1 ∧
      KeepsAllButTok s t ∧
      t.tok = ⟨true, true, s.tok.base, s.tok.domEnd, BitVec.ofNat 16 p, 1, false,
        s.tok.curStart, s.tok.curLen, s.tok.skip⟩) ∧
    (∃ t, exec (.tokAdv .toEnd 0) s = .next t ∧
      Responds t .ok (BitVec.ofNat 16 p) (BitVec.ofNat 16 n) ∧ KeepsAllButTok s t ∧
      t.tok = ⟨true, true, s.tok.base, s.tok.domEnd, BitVec.ofNat 16 p, BitVec.ofNat 16 n, false,
        s.tok.curStart, s.tok.curLen, s.tok.skip⟩)

/-- R194 with R193: at the domain's end every mode gives END_OF_BUFFER, history is saved, the current triple
becomes (p, 0, 0), and "Repeating the advance gives the same again". -/
def Obligations.TokAdvAtTheDomainsEnd : Prop :=
  ∀ (s : State) (m : DelimMode) (d : Byte), s.fstat.fault = false →
    s.tok.valid = true → TokOk s.params s.tok → (Instr.tokAdv m d).WellFormed → ¬ (m = .literal ∧ d = 0x7D) →
    s.tok.curStart.toNat + s.tok.curLen.toNat + (if s.tok.skip = true then 1 else 0) = s.tok.domEnd.toNat →
    ∃ t, exec (.tokAdv m d) s = .next t ∧ Responds t .endOfBuffer s.tok.domEnd 0 ∧ KeepsAllButTok s t ∧
      t.tok = ⟨true, true, s.tok.base, s.tok.domEnd, s.tok.domEnd, 0, false,
        s.tok.curStart, s.tok.curLen, s.tok.skip⟩ ∧
      ∃ u, exec (.tokAdv m d) t = .next u ∧ Responds u .endOfBuffer s.tok.domEnd 0 ∧ KeepsAllButTok t u ∧
        u.tok = ⟨true, true, s.tok.base, s.tok.domEnd, s.tok.domEnd, 0, false, s.tok.domEnd, 0, false⟩

/-- R200: `TOK.REWIND` restores the previous triple, leaves it in place, and can be done once. -/
def Obligations.TokRewindRestoresThePreviousTriple : Prop :=
  ∀ (s : State), s.fstat.fault = false → s.tok.valid = true → s.tok.armed = true →
    ∃ t, exec .tokRewind s = .next t ∧ Responds t .ok 0 0 ∧ KeepsAllButTok s t ∧
      t.tok = ⟨true, false, s.tok.base, s.tok.domEnd, s.tok.prevStart, s.tok.prevLen, s.tok.prevSkip,
        s.tok.prevStart, s.tok.prevLen, s.tok.prevSkip⟩ ∧
      ∃ u, exec .tokRewind t = .next u ∧ OnlyFaults t u .tokRewindUnarmed

/-- R200: "issuing that same `TOK.ADV` again gives the same token and status again", after an advance of any
status. -/
def Obligations.AdvanceAfterRewindGivesTheSameToken : Prop :=
  ∀ (s t : State) (m : DelimMode) (d : Byte), s.fstat.fault = false →
    exec (.tokAdv m d) s = .next t → t.fstat.fault = false →
    ∃ u v, exec .tokRewind t = .next u ∧ Responds u .ok 0 0 ∧
      u.tok.curStart = s.tok.curStart ∧ u.tok.curLen = s.tok.curLen ∧ u.tok.skip = s.tok.skip ∧
      exec (.tokAdv m d) u = .next v ∧ v.rsp = t.rsp ∧ v.tok = t.tok

/-! ## Buffer and register access -/

/-- R210: `BUF.LD` returns the byte, zero-extended. -/
def Obligations.BufLdReturnsTheByte : Prop :=
  ∀ (s : State) (idx : Idx), s.fstat.fault = false → idx.toNat < s.params.cap.toNat →
    ∃ t, exec (.bufLd idx) s = .next t ∧ OnlyResponds s t .ok ((s.byteAt idx.toNat).setWidth 16) 0

/-- R211: `BUF.ST` writes one byte and no register; a later `BUF.LD` of the index returns it. -/
def Obligations.BufStWritesOneByte : Prop :=
  ∀ (s : State) (idx : Idx) (v : Byte), s.fstat.fault = false → idx.toNat < s.params.cap.toNat →
    ∃ t, exec (.bufSt idx v) s = .next t ∧ Responds t .ok 0 0 ∧
      t.byteAt idx.toNat = v ∧ (∀ a, a ≠ idx.toNat → t.byteAt a = s.byteAt a) ∧
      KeepsOutside s t ∧ KeepsTransport s t ∧ KeepsRegisters s t ∧
      ∃ u, exec (.bufLd idx) t = .next u ∧ OnlyResponds t u .ok (v.setWidth 16) 0

/-- R212 with the numbers and bits of R22: what `CSR.RD` returns for every listed register. -/
def Obligations.CsrRdReturnsTheListedRegisters : Prop :=
  ∀ (s : State) (num : Byte) (v : Nat), s.fstat.fault = false → FstatOk s.fstat →
    (num = 0x00 ∧ v = 0) ∨
    (num = 0x01 ∧ v = s.params.cap.toNat) ∨
    (num = 0x10 ∧ v = rxStateNumber s.rx.state + 4 * s.rx.esc.toNat + 8 * s.rx.sfx.toNat) ∨
    (num = 0x11 ∧ v = s.rx.n.toNat) ∨ (num = 0x12 ∧ v = s.rx.mark.toNat) ∨
    (num = 0x13 ∧ v = s.rx.hash.toNat) ∨ (num = 0x14 ∧ v = s.rx.csum.toNat) ∨
    (num = 0x20 ∧ v = s.tok.valid.toNat + 2 * s.tok.armed.toNat + 4 * s.tok.skip.toNat + 8 * s.tok.prevSkip.toNat) ∨
    (num = 0x21 ∧ v = s.tok.base.toNat) ∨ (num = 0x22 ∧ v = s.tok.domEnd.toNat) ∨
    (num = 0x23 ∧ v = s.tok.curStart.toNat) ∨ (num = 0x24 ∧ v = s.tok.curLen.toNat) ∨
    (num = 0x25 ∧ v = s.tok.prevStart.toNat) ∨ (num = 0x26 ∧ v = s.tok.prevLen.toNat) ∨
    (num = 0x30 ∧ v = s.wr.valid.toNat + 2 * packetTypeNumber s.wr.type + 8 * s.wr.finished.toNat +
      16 * s.wr.ackSent.toNat + 32 * s.wr.trailer.toNat + 64 * s.wr.laN.toNat) ∨
    (num = 0x31 ∧ v = s.wr.csum.toNat) ∨
    (num = 0x32 ∧ v = (s.wr.queued.getD 0 0).toNat + 256 * (s.wr.queued.getD 1 0).toNat) ∨
    (num = 0x33 ∧ v = (s.wr.queued.getD 2 0).toNat) →
    ∃ t, exec (.csrRd num) s = .next t ∧ OnlyResponds s t .ok (BitVec.ofNat 16 v) 0
end

