-- ==== Sys2Proof/Laws/State.lean ====
section
/-! SUPPORT. One lemma per field per update of the state, true by `rfl`, so that no later proof unfolds a record
update. -/

namespace Sys2Proof.Machine

/-! ### `State.answer` -/

@[simp] theorem State.answer_fstat (s : State) (st : Status) (r0 r1 : Idx) : (s.answer st r0 r1).fstat = s.fstat := rfl
@[simp] theorem State.answer_rx (s : State) (st : Status) (r0 r1 : Idx) : (s.answer st r0 r1).rx = s.rx := rfl
@[simp] theorem State.answer_tok (s : State) (st : Status) (r0 r1 : Idx) : (s.answer st r0 r1).tok = s.tok := rfl
@[simp] theorem State.answer_wr (s : State) (st : Status) (r0 r1 : Idx) : (s.answer st r0 r1).wr = s.wr := rfl
@[simp] theorem State.answer_buf (s : State) (st : Status) (r0 r1 : Idx) : (s.answer st r0 r1).buf = s.buf := rfl
@[simp] theorem State.answer_params (s : State) (st : Status) (r0 r1 : Idx) : (s.answer st r0 r1).params = s.params := rfl
@[simp] theorem State.answer_seed (s : State) (st : Status) (r0 r1 : Idx) : (s.answer st r0 r1).seed = s.seed := rfl
@[simp] theorem State.answer_busy (s : State) (st : Status) (r0 r1 : Idx) : (s.answer st r0 r1).busy = none := rfl
@[simp] theorem State.answer_rsp (s : State) (st : Status) (r0 r1 : Idx) : (s.answer st r0 r1).rsp = some (rspWord st r0 r1) := rfl
@[simp] theorem State.answer_host (s : State) (st : Status) (r0 r1 : Idx) : (s.answer st r0 r1).host = s.host := rfl
@[simp] theorem State.answer_src (s : State) (st : Status) (r0 r1 : Idx) : (s.answer st r0 r1).src = s.src := rfl
@[simp] theorem State.answer_sink (s : State) (st : Status) (r0 r1 : Idx) : (s.answer st r0 r1).sink = s.sink := rfl
@[simp] theorem State.answer_sent (s : State) (st : Status) (r0 r1 : Idx) : (s.answer st r0 r1).sent = s.sent := rfl

/-! ### `State.wait` -/

@[simp] theorem State.wait_fstat (s : State) (i : Instr) : (s.wait i).fstat = s.fstat := rfl
@[simp] theorem State.wait_rx (s : State) (i : Instr) : (s.wait i).rx = s.rx := rfl
@[simp] theorem State.wait_tok (s : State) (i : Instr) : (s.wait i).tok = s.tok := rfl
@[simp] theorem State.wait_wr (s : State) (i : Instr) : (s.wait i).wr = s.wr := rfl
@[simp] theorem State.wait_buf (s : State) (i : Instr) : (s.wait i).buf = s.buf := rfl
@[simp] theorem State.wait_params (s : State) (i : Instr) : (s.wait i).params = s.params := rfl
@[simp] theorem State.wait_seed (s : State) (i : Instr) : (s.wait i).seed = s.seed := rfl
@[simp] theorem State.wait_busy (s : State) (i : Instr) : (s.wait i).busy = some i := rfl
@[simp] theorem State.wait_rsp (s : State) (i : Instr) : (s.wait i).rsp = none := rfl
@[simp] theorem State.wait_host (s : State) (i : Instr) : (s.wait i).host = s.host := rfl
@[simp] theorem State.wait_src (s : State) (i : Instr) : (s.wait i).src = s.src := rfl
@[simp] theorem State.wait_sink (s : State) (i : Instr) : (s.wait i).sink = s.sink := rfl
@[simp] theorem State.wait_sent (s : State) (i : Instr) : (s.wait i).sent = s.sent := rfl

/-! ### `State.raise` -/

@[simp] theorem State.raise_fstat (s : State) (c : Cause) : (s.raise c).fstat = ⟨true, c.code⟩ := rfl
@[simp] theorem State.raise_rx (s : State) (c : Cause) : (s.raise c).rx = s.rx := rfl
@[simp] theorem State.raise_tok (s : State) (c : Cause) : (s.raise c).tok = s.tok := rfl
@[simp] theorem State.raise_wr (s : State) (c : Cause) : (s.raise c).wr = s.wr := rfl
@[simp] theorem State.raise_buf (s : State) (c : Cause) : (s.raise c).buf = s.buf := rfl
@[simp] theorem State.raise_params (s : State) (c : Cause) : (s.raise c).params = s.params := rfl
@[simp] theorem State.raise_seed (s : State) (c : Cause) : (s.raise c).seed = s.seed := rfl
@[simp] theorem State.raise_busy (s : State) (c : Cause) : (s.raise c).busy = none := rfl
@[simp] theorem State.raise_rsp (s : State) (c : Cause) : (s.raise c).rsp = some (rspWord .fault (byteField c.code) 0) := rfl
@[simp] theorem State.raise_host (s : State) (c : Cause) : (s.raise c).host = s.host := rfl
@[simp] theorem State.raise_src (s : State) (c : Cause) : (s.raise c).src = s.src := rfl
@[simp] theorem State.raise_sink (s : State) (c : Cause) : (s.raise c).sink = s.sink := rfl
@[simp] theorem State.raise_sent (s : State) (c : Cause) : (s.raise c).sent = s.sent := rfl

/-! ### `State.refuse` -/

@[simp] theorem State.refuse_fstat (s : State) : (s.refuse).fstat = s.fstat := rfl
@[simp] theorem State.refuse_rx (s : State) : (s.refuse).rx = s.rx := rfl
@[simp] theorem State.refuse_tok (s : State) : (s.refuse).tok = s.tok := rfl
@[simp] theorem State.refuse_wr (s : State) : (s.refuse).wr = s.wr := rfl
@[simp] theorem State.refuse_buf (s : State) : (s.refuse).buf = s.buf := rfl
@[simp] theorem State.refuse_params (s : State) : (s.refuse).params = s.params := rfl
@[simp] theorem State.refuse_seed (s : State) : (s.refuse).seed = s.seed := rfl
@[simp] theorem State.refuse_busy (s : State) : (s.refuse).busy = none := rfl
@[simp] theorem State.refuse_rsp (s : State) : (s.refuse).rsp = some (rspWord .fault (byteField s.fstat.cause) 0) := rfl
@[simp] theorem State.refuse_host (s : State) : (s.refuse).host = s.host := rfl
@[simp] theorem State.refuse_src (s : State) : (s.refuse).src = s.src := rfl
@[simp] theorem State.refuse_sink (s : State) : (s.refuse).sink = s.sink := rfl
@[simp] theorem State.refuse_sent (s : State) : (s.refuse).sent = s.sent := rfl

/-! ### `State.setByte` -/

@[simp] theorem State.setByte_fstat (s : State) (a : Nat) (v : Byte) : (s.setByte a v).fstat = s.fstat := rfl
@[simp] theorem State.setByte_rx (s : State) (a : Nat) (v : Byte) : (s.setByte a v).rx = s.rx := rfl
@[simp] theorem State.setByte_tok (s : State) (a : Nat) (v : Byte) : (s.setByte a v).tok = s.tok := rfl
@[simp] theorem State.setByte_wr (s : State) (a : Nat) (v : Byte) : (s.setByte a v).wr = s.wr := rfl
@[simp] theorem State.setByte_buf (s : State) (a : Nat) (v : Byte) : (s.setByte a v).buf = s.buf.write a v := rfl
@[simp] theorem State.setByte_params (s : State) (a : Nat) (v : Byte) : (s.setByte a v).params = s.params := rfl
@[simp] theorem State.setByte_seed (s : State) (a : Nat) (v : Byte) : (s.setByte a v).seed = s.seed := rfl
@[simp] theorem State.setByte_busy (s : State) (a : Nat) (v : Byte) : (s.setByte a v).busy = s.busy := rfl
@[simp] theorem State.setByte_rsp (s : State) (a : Nat) (v : Byte) : (s.setByte a v).rsp = s.rsp := rfl
@[simp] theorem State.setByte_host (s : State) (a : Nat) (v : Byte) : (s.setByte a v).host = s.host := rfl
@[simp] theorem State.setByte_src (s : State) (a : Nat) (v : Byte) : (s.setByte a v).src = s.src := rfl
@[simp] theorem State.setByte_sink (s : State) (a : Nat) (v : Byte) : (s.setByte a v).sink = s.sink := rfl
@[simp] theorem State.setByte_sent (s : State) (a : Nat) (v : Byte) : (s.setByte a v).sent = s.sent := rfl

/-! ### `State.afterEvent` -/

@[simp] theorem State.afterEvent_fstat (s : State) : (s.afterEvent).fstat = s.fstat := rfl
@[simp] theorem State.afterEvent_rx (s : State) : (s.afterEvent).rx = s.rx := rfl
@[simp] theorem State.afterEvent_tok (s : State) : (s.afterEvent).tok = s.tok := rfl
@[simp] theorem State.afterEvent_wr (s : State) : (s.afterEvent).wr = s.wr := rfl
@[simp] theorem State.afterEvent_buf (s : State) : (s.afterEvent).buf = s.buf := rfl
@[simp] theorem State.afterEvent_params (s : State) : (s.afterEvent).params = s.params := rfl
@[simp] theorem State.afterEvent_seed (s : State) : (s.afterEvent).seed = s.seed := rfl
@[simp] theorem State.afterEvent_busy (s : State) : (s.afterEvent).busy = s.busy := rfl
@[simp] theorem State.afterEvent_rsp (s : State) : (s.afterEvent).rsp = s.rsp := rfl
@[simp] theorem State.afterEvent_host (s : State) : (s.afterEvent).host = s.host.tail := rfl
@[simp] theorem State.afterEvent_src (s : State) : (s.afterEvent).src = s.src := rfl
@[simp] theorem State.afterEvent_sink (s : State) : (s.afterEvent).sink = s.sink := rfl
@[simp] theorem State.afterEvent_sent (s : State) : (s.afterEvent).sent = s.sent := rfl

/-! ### `State.recvByte` -/

@[simp] theorem State.recvByte_fstat (s : State) (t : PacketType) (b : Nat) (x : Byte) : (s.recvByte t b x).fstat = s.fstat := rfl
@[simp] theorem State.recvByte_rx (s : State) (t : PacketType) (b : Nat) (x : Byte) : (s.recvByte t b x).rx = s.rx.take t x := rfl
@[simp] theorem State.recvByte_tok (s : State) (t : PacketType) (b : Nat) (x : Byte) : (s.recvByte t b x).tok = s.tok := rfl
@[simp] theorem State.recvByte_wr (s : State) (t : PacketType) (b : Nat) (x : Byte) : (s.recvByte t b x).wr = s.wr := rfl
@[simp] theorem State.recvByte_buf (s : State) (t : PacketType) (b : Nat) (x : Byte) : (s.recvByte t b x).buf = s.buf.write (b + s.rx.n.toNat) x := rfl
@[simp] theorem State.recvByte_params (s : State) (t : PacketType) (b : Nat) (x : Byte) : (s.recvByte t b x).params = s.params := rfl
@[simp] theorem State.recvByte_seed (s : State) (t : PacketType) (b : Nat) (x : Byte) : (s.recvByte t b x).seed = s.seed := rfl
@[simp] theorem State.recvByte_busy (s : State) (t : PacketType) (b : Nat) (x : Byte) : (s.recvByte t b x).busy = s.busy := rfl
@[simp] theorem State.recvByte_rsp (s : State) (t : PacketType) (b : Nat) (x : Byte) : (s.recvByte t b x).rsp = s.rsp := rfl
@[simp] theorem State.recvByte_host (s : State) (t : PacketType) (b : Nat) (x : Byte) : (s.recvByte t b x).host = s.host := rfl
@[simp] theorem State.recvByte_src (s : State) (t : PacketType) (b : Nat) (x : Byte) : (s.recvByte t b x).src = s.src := rfl
@[simp] theorem State.recvByte_sink (s : State) (t : PacketType) (b : Nat) (x : Byte) : (s.recvByte t b x).sink = s.sink := rfl
@[simp] theorem State.recvByte_sent (s : State) (t : PacketType) (b : Nat) (x : Byte) : (s.recvByte t b x).sent = s.sent := rfl

/-! ### Bytes of `BUF` under an update that keeps the memory -/

theorem State.byteAt_congr (s t : State) (hb : t.buf = s.buf) (hs : t.seed = s.seed) (a : Nat) :
    t.byteAt a = s.byteAt a := by
  simp only [State.byteAt, hb, hs]

@[simp] theorem State.byteAt_answer (s : State) (st : Status) (r0 r1 : Idx) (a : Nat) :
    (s.answer st r0 r1).byteAt a = s.byteAt a := rfl
@[simp] theorem State.byteAt_wait (s : State) (i : Instr) (a : Nat) : (s.wait i).byteAt a = s.byteAt a := rfl
@[simp] theorem State.byteAt_raise (s : State) (c : Cause) (a : Nat) : (s.raise c).byteAt a = s.byteAt a := rfl
@[simp] theorem State.byteAt_refuse (s : State) (a : Nat) : s.refuse.byteAt a = s.byteAt a := rfl
@[simp] theorem State.byteAt_afterEvent (s : State) (a : Nat) : s.afterEvent.byteAt a = s.byteAt a := rfl

end Sys2Proof.Machine
end

