-- ==== Sys2Proof/Laws/Memory.lean ====
section
/-! SUPPORT. The memory: reading what was written, leaving every other place alone, keeping the canonical form; and
what follows for the bytes of `BUF`, for runs of them, and for writes of several (R40 to R43, R49). -/

namespace Sys2Proof.Machine

/-! ### The list of written bytes -/

@[simp] theorem Memory.read_nil (a : Nat) : Memory.read [] a = none := rfl

theorem Memory.read_cons (b : Nat) (v : Byte) (m : Memory) (a : Nat) :
    Memory.read ((b, v) :: m) a = if a = b then some v else Memory.read m a := rfl

theorem Memory.read_write_same (m : Memory) (a : Nat) (v : Byte) : Memory.read (m.write a v) a = some v := by
  induction m with
  | nil => simp [Memory.write, Memory.read_cons]
  | cons c m ih =>
    obtain ⟨b, u⟩ := c
    unfold Memory.write
    split
    · simp [Memory.read_cons]
    · split
      · simp [Memory.read_cons]
      · rename_i h; simp [Memory.read_cons, h, ih]

theorem Memory.read_write_other (m : Memory) (a c : Nat) (v : Byte) (h : c ≠ a) :
    Memory.read (m.write a v) c = Memory.read m c := by
  induction m with
  | nil => simp [Memory.write, Memory.read_cons, h]
  | cons d m ih =>
    obtain ⟨b, u⟩ := d
    unfold Memory.write
    split
    · simp [Memory.read_cons, h]
    · split
      · rename_i hab; subst hab; simp [Memory.read_cons, h]
      · simp [Memory.read_cons, ih]

/-- Every index of a canonical memory whose first index is above `b` is above `b`. -/
theorem Memory.wf_cons (b : Nat) (v : Byte) (m : Memory) :
    Memory.wf ((b, v) :: m) = true ↔ (∀ c ∈ m, b < c.1) ∧ m.wf = true := by
  induction m generalizing b v with
  | nil => simp [Memory.wf]
  | cons c m ih =>
    obtain ⟨d, u⟩ := c
    have hd := ih d u
    simp only [Memory.wf, Bool.and_eq_true, decide_eq_true_eq, List.mem_cons, forall_eq_or_imp]
    constructor
    · rintro ⟨h1, h2⟩
      exact ⟨⟨h1, fun x hx => lt_trans h1 ((hd.mp h2).1 x hx)⟩, h2⟩
    · rintro ⟨⟨h1, _⟩, h2⟩
      exact ⟨h1, h2⟩

theorem Memory.mem_write (m : Memory) (a : Nat) (v : Byte) (c : Host.Cell) (h : c ∈ m.write a v) :
    c = (a, v) ∨ c ∈ m := by
  induction m with
  | nil => simpa [Memory.write] using h
  | cons d m ih =>
    obtain ⟨b, u⟩ := d
    unfold Memory.write at h
    split at h
    · simpa using h
    · split at h
      · rcases List.mem_cons.mp h with h | h
        · exact .inl h
        · exact .inr (List.mem_cons_of_mem _ h)
      · rcases List.mem_cons.mp h with h | h
        · exact .inr (h ▸ List.mem_cons_self)
        · exact (ih h).imp id (List.mem_cons_of_mem _)

/-- A write keeps the canonical form. -/
theorem Memory.wf_write (m : Memory) (a : Nat) (v : Byte) (h : m.wf = true) : (m.write a v).wf = true := by
  induction m with
  | nil => rfl
  | cons d m ih =>
    obtain ⟨b, u⟩ := d
    obtain ⟨hlt, hm⟩ := (Memory.wf_cons b u m).mp h
    unfold Memory.write
    split
    · rename_i hab
      refine (Memory.wf_cons a v _).mpr ⟨?_, h⟩
      intro c hc
      rcases List.mem_cons.mp hc with rfl | hc
      · exact hab
      · exact lt_trans hab (hlt c hc)
    · split
      · rename_i hab
        exact (Memory.wf_cons a v m).mpr ⟨fun c hc => hab ▸ hlt c hc, hm⟩
      · rename_i h1 h2
        refine (Memory.wf_cons b u _).mpr ⟨fun c hc => ?_, ih hm⟩
        rcases Memory.mem_write m a v c hc with rfl | hc
        · exact lt_of_le_of_ne (not_lt.mp h1) (fun e => h2 e.symm)
        · exact hlt c hc

/-- A write inside the address space keeps `BufOk`. -/
theorem BufOk.write {p : Params} {m : Memory} (h : BufOk p m) {a : Nat} (ha : a < p.cap.toNat) (v : Byte) :
    BufOk p (m.write a v) := by
  refine ⟨Memory.wf_write m a v h.1, fun c hc => ?_⟩
  rcases Memory.mem_write m a v c hc with rfl | hc
  · exact ha
  · exact h.2 c hc

/-! ### One byte of `BUF` -/

@[simp] theorem State.byteAt_setByte_same (s : State) (a : Nat) (v : Byte) : (s.setByte a v).byteAt a = v := by
  simp [State.byteAt, Memory.read_write_same]

theorem State.byteAt_setByte_other (s : State) (a c : Nat) (v : Byte) (h : c ≠ a) :
    (s.setByte a v).byteAt c = s.byteAt c := by
  simp [State.byteAt, Memory.read_write_other _ _ _ _ h]

theorem State.byteAt_setByte (s : State) (a c : Nat) (v : Byte) :
    (s.setByte a v).byteAt c = if c = a then v else s.byteAt c := by
  split
  · rename_i h; subst h; simp
  · rename_i h; exact State.byteAt_setByte_other s a c v h

/-! ### Several bytes of `BUF` -/

@[simp] theorem State.bytes_zero (s : State) (a : Nat) : s.bytes a 0 = [] := rfl

theorem State.bytes_succ (s : State) (a n : Nat) : s.bytes a (n + 1) = s.byteAt a :: s.bytes (a + 1) n := rfl

@[simp] theorem State.bytes_length (s : State) (a n : Nat) : (s.bytes a n).length = n := by
  induction n generalizing a with
  | zero => rfl
  | succ n ih => simp [State.bytes_succ, ih]

theorem State.bytes_congr (s t : State) (a n : Nat)
    (h : ∀ c, a ≤ c → c < a + n → t.byteAt c = s.byteAt c) : t.bytes a n = s.bytes a n := by
  induction n generalizing a with
  | zero => rfl
  | succ n ih =>
    rw [State.bytes_succ, State.bytes_succ, h a le_rfl (by omega),
      ih (a + 1) fun c h1 h2 => h c (by omega) (by omega)]

/-- Two states with the same memory and the same free contents have the same bytes. -/
theorem State.bytes_of_buf (s t : State) (hb : t.buf = s.buf) (hs : t.seed = s.seed) (a n : Nat) :
    t.bytes a n = s.bytes a n :=
  State.bytes_congr _ _ _ _ fun c _ _ => State.byteAt_congr s t hb hs c

@[simp] theorem State.bytes_answer (s : State) (st : Status) (r0 r1 : Idx) (a n : Nat) :
    (s.answer st r0 r1).bytes a n = s.bytes a n :=
  State.bytes_congr _ _ _ _ fun _ _ _ => rfl

@[simp] theorem State.bytes_wait (s : State) (i : Instr) (a n : Nat) : (s.wait i).bytes a n = s.bytes a n :=
  State.bytes_congr _ _ _ _ fun _ _ _ => rfl

theorem State.bytes_add (s : State) (a m n : Nat) : s.bytes a (m + n) = s.bytes a m ++ s.bytes (a + m) n := by
  induction m generalizing a with
  | zero => simp
  | succ m ih =>
    rw [show m + 1 + n = (m + n) + 1 by omega, State.bytes_succ, State.bytes_succ, ih, List.cons_append,
      show a + 1 + m = a + (m + 1) by omega]

theorem State.bytes_getElem? (s : State) (a n k : Nat) (h : k < n) :
    (s.bytes a n)[k]? = some (s.byteAt (a + k)) := by
  induction n generalizing a k with
  | zero => omega
  | succ n ih =>
    cases k with
    | zero => simp [State.bytes_succ]
    | succ k =>
      rw [State.bytes_succ, List.getElem?_cons_succ, ih (a + 1) k (by omega)]
      congr 2
      omega

/-! ### A write of several bytes -/

@[simp] theorem State.setBytes_nil (s : State) (a : Nat) : s.setBytes a [] = s := rfl

theorem State.setBytes_cons (s : State) (a : Nat) (x : Byte) (xs : List Byte) :
    s.setBytes a (x :: xs) = (s.setByte a x).setBytes (a + 1) xs := rfl

/-- A write of several bytes changes nothing but the memory. -/
theorem State.setBytes_eq (s : State) (a : Nat) (xs : List Byte) :
    s.setBytes a xs = { s with buf := (s.setBytes a xs).buf } := by
  induction xs generalizing s a with
  | nil => rfl
  | cons x xs ih =>
    rw [State.setBytes_cons]
    conv_lhs => rw [ih]
    rfl

theorem State.byteAt_setBytes_outside (s : State) (a : Nat) (xs : List Byte) (c : Nat)
    (h : c < a ∨ a + xs.length ≤ c) : (s.setBytes a xs).byteAt c = s.byteAt c := by
  induction xs generalizing s a with
  | nil => rfl
  | cons x xs ih =>
    rw [List.length_cons] at h
    rw [State.setBytes_cons, ih _ _ (by omega), State.byteAt_setByte_other _ _ _ _ (by omega)]

theorem State.bytes_setBytes (s : State) (a : Nat) (xs : List Byte) :
    (s.setBytes a xs).bytes a xs.length = xs := by
  induction xs generalizing s a with
  | nil => rfl
  | cons x xs ih =>
    rw [State.setBytes_cons, List.length_cons, State.bytes_succ, ih,
      State.byteAt_setBytes_outside _ _ _ _ (by omega), State.byteAt_setByte_same]

theorem State.bufOk_setBytes {p : Params} (s : State) (a : Nat) (xs : List Byte) (h : BufOk p s.buf)
    (ha : a + xs.length ≤ p.cap.toNat) : BufOk p (s.setBytes a xs).buf := by
  induction xs generalizing s a with
  | nil => exact h
  | cons x xs ih =>
    rw [List.length_cons] at ha
    exact ih (s.setByte a x) (a + 1) (h.write (by omega) x) (by omega)

end Sys2Proof.Machine
end

