-- ==== Sys2Proof/Laws/Ops.lean ====
section
/-! SUPPORT. What each shared operation can do, said once: the checks before execution (R229), the transport ports
(R50 to R54), the flush of the writer (R152), the loop of the receiver (R183), reset (R260). Later proofs cite these
instead of unfolding the operations. -/

namespace Sys2Proof.Machine

/-! ### Checks before execution -/

/-- On an engine without a latched fault, the first check of R229 passes. -/
@[simp] theorem unlessFaulted_clear {s : State} (h : s.fstat.fault = false) (k : Result) : unlessFaulted s k = k := by
  simp [unlessFaulted, h]

/-- A latched fault refuses (R226). -/
@[simp] theorem unlessFaulted_faulted {s : State} (h : s.fstat.fault = true) (k : Result) :
    unlessFaulted s k = .next s.refuse := by
  simp [unlessFaulted, h]

@[simp] theorem check_true (c : Cause) (s : State) (k : Result) : check true c s k = k := rfl

@[simp] theorem check_false (c : Cause) (s : State) (k : Result) : check false c s k = .next (s.raise c) := rfl

/-- A check either lets the operation go on or raises its cause. -/
theorem check_cases {ok : Bool} {c : Cause} {s t : State} {k : Result} (h : check ok c s k = .next t) :
    (ok = true ∧ k = .next t) ∨ (ok = false ∧ t = s.raise c) := by
  cases ok with
  | true => exact .inl ⟨rfl, h⟩
  | false => exact .inr ⟨rfl, by simpa using h.symm⟩

theorem windowLegal_iff (p : Params) (base len : Idx) :
    windowLegal p base len = true ↔ base.toNat + len.toNat ≤ p.cap.toNat := by
  simp [windowLegal]

theorem indexLegal_iff (p : Params) (idx : Idx) : indexLegal p idx = true ↔ idx.toNat < p.cap.toNat := by
  simp [indexLegal]

theorem windowLegal_eq (p : Params) (base len : Idx) :
    windowLegal p base len = !decide (p.cap.toNat < base.toNat + len.toNat) := by
  rw [Bool.eq_iff_iff, windowLegal_iff]
  simp

theorem indexLegal_eq (p : Params) (idx : Idx) : indexLegal p idx = !decide (p.cap.toNat ≤ idx.toNat) := by
  rw [Bool.eq_iff_iff, indexLegal_iff]
  simp

@[simp] theorem PacketType.ack_beq_ack : (PacketType.ack == PacketType.ack) = true := rfl
@[simp] theorem PacketType.msg_beq_ack : (PacketType.msg == PacketType.ack) = false := rfl
@[simp] theorem PacketType.notif_beq_ack : (PacketType.notif == PacketType.ack) = false := rfl
@[simp] theorem PacketType.ack_bne_ack : (PacketType.ack != PacketType.ack) = false := rfl
@[simp] theorem PacketType.msg_bne_ack : (PacketType.msg != PacketType.ack) = true := rfl
@[simp] theorem PacketType.notif_bne_ack : (PacketType.notif != PacketType.ack) = true := rfl
@[simp] theorem DelimMode.literal_beq_literal : (DelimMode.literal == DelimMode.literal) = true := rfl
@[simp] theorem DelimMode.single_beq_literal : (DelimMode.single == DelimMode.literal) = false := rfl
@[simp] theorem DelimMode.toEnd_beq_literal : (DelimMode.toEnd == DelimMode.literal) = false := rfl

/-- A comparison of bytes as a decision. -/
theorem byte_beq (a b : Byte) : (a == b) = decide (a = b) := rfl

/-! ### What only the response changes -/

theorem State.responds_answer (s : State) (st : Status) (r0 r1 : Idx) : Responds (s.answer st r0 r1) st r0 r1 :=
  ⟨rfl, rfl⟩

/-- Answering changes the response alone. -/
theorem State.onlyResponds_answer (s : State) (st : Status) (r0 r1 : Idx) :
    OnlyResponds s (s.answer st r0 r1) st r0 r1 :=
  ⟨⟨rfl, rfl⟩, ⟨rfl, rfl, rfl⟩, ⟨rfl, rfl, rfl⟩, ⟨rfl, rfl, rfl, rfl⟩, fun _ => rfl⟩

/-- Raising a fault changes `FSTAT` and the response alone (R226). -/
theorem State.onlyFaults_raise (s : State) (c : Cause) : OnlyFaults s (s.raise c) c :=
  ⟨rfl, ⟨rfl, rfl⟩, ⟨rfl, rfl, rfl⟩, ⟨rfl, rfl, rfl⟩, rfl, rfl, rfl, fun _ => rfl⟩

/-- The fields of a word put together from a byte and two 16-bit fields (R75). -/
theorem fields_append (c : Byte) (x y : Idx) :
    (c ++ x ++ y).extractLsb' 32 8 = c ∧ (c ++ x ++ y).extractLsb' 16 16 = x ∧ (c ++ x ++ y).extractLsb' 0 16 = y := by
  have hc := c.isLt
  have hx := x.isLt
  have hy := y.isLt
  have e : (c ++ x ++ y).toNat = c.toNat * 4294967296 + x.toNat * 65536 + y.toNat := by
    simp only [BitVec.toNat_append, Nat.shiftLeft_eq, Nat.mul_comm _ (2 ^ 16)]
    rw [← Nat.two_pow_add_eq_or_of_lt hx, ← Nat.two_pow_add_eq_or_of_lt hy]
    omega
  refine ⟨?_, ?_, ?_⟩ <;> apply BitVec.eq_of_toNat_eq <;>
    simp only [BitVec.extractLsb'_toNat, e, Nat.shiftRight_eq_div_pow] <;> omega

/-- The response word determines the status and the results (R75). -/
theorem rspWord_inj {st st' : Status} {r0 r1 r0' r1' : Idx} (h : rspWord st r0 r1 = rspWord st' r0' r1') :
    st = st' ∧ r0 = r0' ∧ r1 = r1' := by
  unfold rspWord at h
  have hc : st.code = st'.code := by rw [← (fields_append st.code r0 r1).1, h, (fields_append _ _ _).1]
  refine ⟨?_, by rw [← (fields_append st.code r0 r1).2.1, h, (fields_append _ _ _).2.1],
    by rw [← (fields_append st.code r0 r1).2.2, h, (fields_append _ _ _).2.2]⟩
  revert hc
  cases st <;> cases st' <;> decide

/-! ### The sink -/

/-- What one `SinkSend` can do (R52). -/
theorem State.sinkSend_cases (s : State) (b : Byte) :
    (∃ rest, s.sink = .done :: rest ∧ s.sinkSend b = (.done, { s with sink := rest, sent := s.sent ++ [b] })) ∨
    (∃ low rest, s.sink = .err low :: rest ∧ s.sinkSend b = (.err (errCode low), { s with sink := rest })) ∨
    (NoSinkAnswer s.sink ∧ s.sinkSend b = (.blocked, s)) := by
  unfold State.sinkSend
  match h : s.sink with
  | .done :: rest => exact .inl ⟨rest, rfl, rfl⟩
  | .err low :: rest => exact .inr (.inl ⟨low, rest, rfl, rfl⟩)
  | .silent :: rest => exact .inr (.inr ⟨.inr ⟨rest, rfl⟩, rfl⟩)
  | [] => exact .inr (.inr ⟨.inl rfl, rfl⟩)

/-- The first `n` bytes that leave a lookahead buffer, oldest first. -/
def Wr.firstOut : Nat → Wr → List Byte
  | 0, _ => []
  | n + 1, w => w.la0 :: Wr.firstOut n w.shift

/-- The writer's registers after `n` bytes have left the lookahead buffer. -/
def Wr.shiftN : Nat → Wr → Wr
  | 0, w => w
  | n + 1, w => Wr.shiftN n w.shift

/-- The state after the sink has accepted `j` queued bytes and `rest` of its answers is left. -/
def State.flushed (s : State) (j : Nat) (rest : List SinkAnswer) : State :=
  { s with wr := s.wr.shiftN j, sink := rest, sent := s.sent ++ s.wr.firstOut j }

/-- What a flush of `n` bytes can do (R152): all sent, stopped by an error after `j`, or not answered after `j`. -/
theorem State.flushN_cases (n : Nat) (s : State) :
    (∃ rest, s.sink = List.replicate n .done ++ rest ∧ s.flushN n = (.done, s.flushed n rest)) ∨
    (∃ j low rest, j < n ∧ s.sink = List.replicate j .done ++ .err low :: rest ∧
      s.flushN n = (.err (errCode low), s.flushed j rest)) ∨
    (∃ j rest, j < n ∧ s.sink = List.replicate j .done ++ rest ∧ NoSinkAnswer rest ∧
      s.flushN n = (.blocked, s.flushed j rest)) := by
  induction n generalizing s with
  | zero =>
    refine .inl ⟨s.sink, by simp, ?_⟩
    simp [State.flushN, State.flushed, Wr.shiftN, Wr.firstOut]
  | succ n ih =>
    unfold State.flushN
    rcases s.sinkSend_cases s.wr.la0 with ⟨rest, hs, he⟩ | ⟨low, rest, hs, he⟩ | ⟨hs, he⟩
    · rw [he]
      rcases ih { s with sink := rest, sent := s.sent ++ [s.wr.la0], wr := s.wr.shift } with
        ⟨rest', h, e⟩ | ⟨j, low, rest', hj, h, e⟩ | ⟨j, rest', hj, h, hn, e⟩
      · refine .inl ⟨rest', ?_, ?_⟩
        · rw [hs, List.replicate_succ, List.cons_append]; exact congrArg _ h
        · simpa [State.flushed, Wr.shiftN, Wr.firstOut] using e
      · refine .inr (.inl ⟨j + 1, low, rest', by omega, ?_, ?_⟩)
        · rw [hs, List.replicate_succ, List.cons_append]; exact congrArg _ h
        · simpa [State.flushed, Wr.shiftN, Wr.firstOut] using e
      · refine .inr (.inr ⟨j + 1, rest', by omega, ?_, hn, ?_⟩)
        · rw [hs, List.replicate_succ, List.cons_append]; exact congrArg _ h
        · simpa [State.flushed, Wr.shiftN, Wr.firstOut] using e
    · rw [he]
      refine .inr (.inl ⟨0, low, rest, by omega, by simpa using hs, ?_⟩)
      simp [State.flushed, Wr.shiftN, Wr.firstOut]
    · rw [he]
      refine .inr (.inr ⟨0, s.sink, by omega, by simp, hs, ?_⟩)
      simp [State.flushed, Wr.shiftN, Wr.firstOut]

theorem State.flushN_done (n : Nat) (s : State) (rest : List SinkAnswer)
    (h : s.sink = List.replicate n .done ++ rest) : s.flushN n = (.done, s.flushed n rest) := by
  induction n generalizing s with
  | zero =>
    obtain rfl : s.sink = rest := by simpa using h
    simp [State.flushN, State.flushed, Wr.shiftN, Wr.firstOut]
  | succ n ih =>
    rw [List.replicate_succ, List.cons_append] at h
    have e := ih { s with sink := List.replicate n .done ++ rest, sent := s.sent ++ [s.wr.la0], wr := s.wr.shift } rfl
    simpa [State.flushN, State.sinkSend, h, State.flushed, Wr.shiftN, Wr.firstOut] using e

theorem State.flushN_err (n j : Nat) (s : State) (low : BitVec 15) (rest : List SinkAnswer) (hj : j < n)
    (h : s.sink = List.replicate j .done ++ .err low :: rest) :
    s.flushN n = (.err (errCode low), s.flushed j rest) := by
  induction j generalizing n s with
  | zero =>
    obtain ⟨n, rfl⟩ : ∃ k, n = k + 1 := ⟨n - 1, by omega⟩
    simp only [List.replicate_zero, List.nil_append] at h
    simp [State.flushN, State.sinkSend, h, State.flushed, Wr.shiftN, Wr.firstOut]
  | succ j ih =>
    obtain ⟨n, rfl⟩ : ∃ k, n = k + 1 := ⟨n - 1, by omega⟩
    rw [List.replicate_succ, List.cons_append] at h
    have e := ih n { s with sink := List.replicate j .done ++ .err low :: rest, sent := s.sent ++ [s.wr.la0],
                            wr := s.wr.shift } (by omega) rfl
    simpa [State.flushN, State.sinkSend, h, State.flushed, Wr.shiftN, Wr.firstOut] using e

theorem State.flushN_blocked (n j : Nat) (s : State) (rest : List SinkAnswer) (hj : j < n) (hr : NoSinkAnswer rest)
    (h : s.sink = List.replicate j .done ++ rest) : s.flushN n = (.blocked, s.flushed j rest) := by
  induction j generalizing n s with
  | zero =>
    obtain ⟨n, rfl⟩ : ∃ k, n = k + 1 := ⟨n - 1, by omega⟩
    simp only [List.replicate_zero, List.nil_append] at h
    subst h
    have e : s.sinkSend s.wr.la0 = (.blocked, s) := by
      rcases hr with hr | ⟨r, hr⟩ <;> simp [State.sinkSend, hr]
    simp [State.flushN, e, State.flushed, Wr.shiftN, Wr.firstOut]
  | succ j ih =>
    obtain ⟨n, rfl⟩ : ∃ k, n = k + 1 := ⟨n - 1, by omega⟩
    rw [List.replicate_succ, List.cons_append] at h
    have e := ih n { s with sink := List.replicate j .done ++ rest, sent := s.sent ++ [s.wr.la0],
                            wr := s.wr.shift } (by omega) rfl
    simpa [State.flushN, State.sinkSend, h, State.flushed, Wr.shiftN, Wr.firstOut] using e

/-! ### The lookahead buffer -/

/-- The bytes that leave the buffer are the queued ones, oldest first (R18, R152). -/
theorem Wr.firstOut_eq (w : Wr) (j : Nat) (h : j ≤ w.laN.toNat) : w.firstOut j = w.queued.take j := by
  have h3 : w.laN.toNat < 4 := w.laN.isLt
  have : j ≤ 3 := by omega
  unfold Wr.queued
  generalize w.laN.toNat = n at *
  interval_cases n <;> interval_cases j <;> rfl

/-- A flush whose first `j` requests are accepted goes on from where those leave it (R152). -/
theorem State.flushN_add (j m : Nat) (s : State) (rest : List SinkAnswer) :
    State.flushN (j + m) { s with sink := List.replicate j .done ++ rest } = (s.flushed j rest).flushN m := by
  induction j generalizing s with
  | zero => simp [State.flushed, Wr.shiftN, Wr.firstOut]
  | succ j ih =>
    have e := ih { s with wr := s.wr.shift, sent := s.sent ++ [s.wr.la0] }
    rw [show j + 1 + m = (j + m) + 1 by omega, List.replicate_succ, List.cons_append]
    simp only [State.flushN, State.sinkSend]
    rw [e]
    simp [State.flushed, Wr.shiftN, Wr.firstOut]

/-- A flush looks at neither the response nor the operation in flight, and leaves them. -/
theorem State.flushN_response (n : Nat) (s : State) (r : Option RspWord) (b : Option Instr) :
    State.flushN n { s with rsp := r, busy := b } =
      ((s.flushN n).1, { (s.flushN n).2 with rsp := r, busy := b }) := by
  induction n generalizing s with
  | zero => rfl
  | succ n ih =>
    rcases h : s.sink with _ | ⟨_ | _ | _, rest⟩
    case cons.done =>
      simp only [State.flushN, State.sinkSend, h]
      exact ih { s with sink := rest, sent := s.sent ++ [s.wr.la0], wr := s.wr.shift }
    all_goals simp [State.flushN, State.sinkSend, h]


theorem Wr.shiftN_laN (w : Wr) (j : Nat) (h : j ≤ w.laN.toNat) : (w.shiftN j).laN.toNat = w.laN.toNat - j := by
  induction j generalizing w with
  | zero => rfl
  | succ j ih =>
    have h4 := w.laN.isLt
    have e : w.shift.laN.toNat = w.laN.toNat - 1 := by
      show (w.laN - 1#2).toNat = _
      rw [BitVec.toNat_sub, show (1#2).toNat = 1 from rfl]
      omega
    rw [Wr.shiftN, ih w.shift (by omega), e]
    omega

theorem Wr.shiftN_keeps (w : Wr) (j : Nat) :
    KeepsWrProgress w (w.shiftN j) ∧ (w.shiftN j).trailer = w.trailer := by
  induction j generalizing w with
  | zero => exact ⟨⟨rfl, rfl, rfl, rfl, rfl⟩, rfl⟩
  | succ j ih =>
    obtain ⟨⟨h1, h2, h3, h4, h5⟩, h6⟩ := ih w.shift
    exact ⟨⟨h1, h2, h3, h4, h5⟩, h6⟩

theorem Wr.queued_length (w : Wr) : w.queued.length = w.laN.toNat := by
  have := w.laN.isLt
  simp only [Wr.queued, List.length_take, List.length_cons, List.length_nil]
  omega

/-- What is left in the buffer after `j` bytes have left it (R152). -/
theorem Wr.queued_shiftN (w : Wr) (j : Nat) (h : j ≤ w.laN.toNat) : (w.shiftN j).queued = w.queued.drop j := by
  have hn := w.shiftN_laN j h
  have h3 : w.laN.toNat < 4 := w.laN.isLt
  unfold Wr.queued
  rw [hn]
  generalize w.laN.toNat = n at *
  have : j ≤ 3 := by omega
  interval_cases n <;> interval_cases j <;> rfl

theorem State.flushed_keeps (s : State) (j : Nat) (rest : List SinkAnswer) : KeepsAllButWr s (s.flushed j rest) :=
  ⟨⟨rfl, rfl, rfl⟩, rfl, rfl, rfl, rfl, fun _ => rfl⟩

/-- What the sink's stop in a flush leaves (R157). -/
theorem State.stoppedInQueue_flushed (s : State) (j : Nat) (rest : List SinkAnswer) (h : j ≤ s.wr.laN.toNat) :
    StoppedInQueue s (s.flushed j rest) j :=
  ⟨s.flushed_keeps j rest, (s.wr.shiftN_keeps j).1, (s.wr.shiftN_keeps j).2, s.wr.queued_shiftN j h, by
    show s.sent ++ s.wr.firstOut j = _
    rw [s.wr.firstOut_eq j h]⟩

/-! ### The end of the sink requests -/

/-- What a writer operation does with the end of its sink requests (R157, R272). -/
theorem afterSends_cases (i : Instr) (r : SendEnd × State) (k : State → State) :
    (r.1 = .done ∧ afterSends i r k = k r.2) ∨
    (∃ c, r.1 = .err c ∧ afterSends i r k = r.2.answer .transport c 0) ∨
    (r.1 = .blocked ∧ afterSends i r k = r.2.wait i) := by
  obtain ⟨e, t⟩ := r
  cases e with
  | done => exact .inl ⟨rfl, rfl⟩
  | err c => exact .inr (.inl ⟨c, rfl, rfl⟩)
  | blocked => exact .inr (.inr ⟨rfl, rfl⟩)

@[simp] theorem afterSends_done (i : Instr) (t : State) (k : State → State) : afterSends i (.done, t) k = k t := rfl

@[simp] theorem afterSends_err (i : Instr) (c : Idx) (t : State) (k : State → State) :
    afterSends i (.err c, t) k = t.answer .transport c 0 := rfl

@[simp] theorem afterSends_blocked (i : Instr) (t : State) (k : State → State) :
    afterSends i (.blocked, t) k = t.wait i := rfl

/-! ### Several operations, one after the other -/

theorem execAll_cons {i : Instr} {is : List Instr} {s t : State} (h : exec i s = .next t) :
    execAll (i :: is) s = execAll is t := by
  rw [execAll, h]

theorem execAll_append (is js : List Instr) (s t : State) (h : execAll is s = .next t) :
    execAll (is ++ js) s = execAll js t := by
  induction is generalizing s with
  | nil =>
    cases h
    rfl
  | cons i is ih =>
    cases e : exec i s with
    | next u =>
      rw [execAll_cons e] at h
      rw [List.cons_append, execAll_cons e, ih u h]
    | fault r =>
      rw [execAll, e] at h
      cases h
    | refused r =>
      rw [execAll, e] at h
      cases h

/-! ### Error codes -/

/-- `errCode` is the 16-bit two's complement form of the code (R76). -/
theorem isErrCode_errCode (low : BitVec 15) : IsErrCode low (errCode low) := by
  have h := low.isLt
  have e : (errCode low).toNat = low.toNat + 32768 := by
    simp only [errCode, BitVec.toNat_append]
    rw [Nat.shiftLeft_eq, Nat.mul_comm, ← Nat.two_pow_add_eq_or_of_lt h, show (1#1).toNat = 1 from rfl]
    omega
  unfold IsErrCode
  rw [BitVec.toInt_eq_toNat_cond, e]
  split <;> omega

end Sys2Proof.Machine
end

