-- ==== Sys2Proof/Laws/Codecs.lean ====
section
/-! SUPPORT. What the functions of the checksum unit, the hex codec and the escape codec compute, said in the terms
of the rules (R100, R110 to R115, R121 to R126, R176). -/

namespace Sys2Proof.Machine

/-! ### Checksum -/

theorem csumFrom_toNat (acc : Byte) (xs : List Byte) :
    (csumFrom acc xs).toNat = (acc.toNat + (xs.map BitVec.toNat).sum) % 256 := by
  induction xs generalizing acc with
  | nil =>
    have := acc.isLt
    simp only [csumFrom, List.map_nil, List.sum_nil]
    omega
  | cons x xs ih =>
    simp only [csumFrom, ih, BitVec.toNat_add, List.map_cons, List.sum_cons]
    omega

/-- The fold of R100 is the sum modulo 256. -/
theorem csum_toNat (xs : List Byte) : (csum xs).toNat = sumMod256 xs := by
  rw [csum, csumFrom_toNat, sumMod256]
  simp

theorem csumFrom_append (acc : Byte) (xs ys : List Byte) :
    csumFrom acc (xs ++ ys) = csumFrom (csumFrom acc xs) ys := by
  induction xs generalizing acc with
  | nil => rfl
  | cons x xs ih => simp only [List.cons_append, csumFrom, ih]

theorem byteField_eq (c : Byte) : byteField c = BitVec.ofNat 16 c.toNat := by
  apply BitVec.eq_of_toNat_eq
  simp [byteField, BitVec.toNat_setWidth]

/-! ### Hex digits -/

/-- `hexval` is defined exactly on the digits of either case (R110, R111). -/
theorem hexVal_iff (c : Byte) (n : Nat) : hexVal c = some n ↔ IsHexDigit c n := by
  have := c.isLt
  simp only [hexVal, IsHexDigit, Bool.and_eq_true, decide_eq_true_eq]
  split
  · simp; omega
  · split
    · simp; omega
    · split
      · simp; omega
      · simp; omega

theorem IsHexDigit.lt {c : Byte} {n : Nat} (h : IsHexDigit c n) : n < 16 := by
  unfold IsHexDigit at h
  omega

/-- An upper-case digit is a digit (R111). -/
theorem IsUpperHexDigit.isHexDigit {c : Byte} {n : Nat} (h : IsUpperHexDigit c n) : IsHexDigit c n := by
  unfold IsUpperHexDigit at h
  unfold IsHexDigit
  omega

/-- A nibble has one upper-case digit (R114). -/
theorem IsUpperHexDigit.unique {c d : Byte} {n : Nat} (h : IsUpperHexDigit c n) (h' : IsUpperHexDigit d n) : c = d := by
  apply BitVec.eq_of_toNat_eq
  unfold IsUpperHexDigit at h h'
  omega

theorem hexDigit_upper (n : BitVec 4) : IsUpperHexDigit (hexDigit n) n.toNat := by
  have := n.isLt
  simp only [IsUpperHexDigit, hexDigit]
  split <;> simp <;> omega

theorem hexHigh_upper (v : Byte) : IsUpperHexDigit (hexHigh v) (v.toNat / 16) := by
  have h := hexDigit_upper (v.extractLsb' 4 4)
  have := v.isLt
  simp only [BitVec.extractLsb'_toNat, Nat.shiftRight_eq_div_pow] at h
  rwa [Nat.mod_eq_of_lt (by omega)] at h

theorem hexLow_upper (v : Byte) : IsUpperHexDigit (hexLow v) (v.toNat % 16) := by
  have h := hexDigit_upper (v.extractLsb' 0 4)
  rw [BitVec.extractLsb'_toNat, Nat.shiftRight_zero] at h
  exact h

/-- Two digits as a byte (R112). -/
theorem hexPair_of_digits {c0 c1 : Byte} {h l : Nat} (h0 : IsHexDigit c0 h) (h1 : IsHexDigit c1 l) :
    hexPair c0 c1 = some (BitVec.ofNat 8 (h * 16 + l)) := by
  simp only [hexPair, (hexVal_iff _ _).2 h0, (hexVal_iff _ _).2 h1]

/-- Where one of the two is no digit there is no byte (R112). -/
theorem hexPair_of_not {c0 c1 : Byte} (h : (¬ ∃ n, IsHexDigit c0 n) ∨ (¬ ∃ n, IsHexDigit c1 n)) :
    hexPair c0 c1 = none := by
  unfold hexPair
  split
  · rename_i e0 e1
    rcases h with h | h
    · exact absurd ⟨_, (hexVal_iff _ _).1 e0⟩ h
    · exact absurd ⟨_, (hexVal_iff _ _).1 e1⟩ h
  · rfl

/-! ### Escaping -/

/-- Which bytes are escaped (R121). -/
theorem needsEscape_iff (p : Params) (v : Byte) :
    needsEscape p v = true ↔ v.toNat < 0x20 ∨ 0x7E < v.toNat ∨ v = 0x23 ∨ v = 0x24 ∨ v = 0x25 ∨ v = 0x2A ∨ v = 0x7D ∨
      v ∈ p.escExtra := by
  simp [needsEscape, or_assoc, chSpace, chTilde, chHash, chDollar, chPercent, chStar, chEscape]

/-- The two forms of an output (R122): an escape pair, or a byte that is neither `}` nor `#`. -/
theorem escapeByte_cases (p : Params) (v : Byte) :
    escapeByte p v = [0x7D, v ^^^ 0x20] ∨ (escapeByte p v = [v] ∧ v ≠ 0x7D ∧ v ≠ 0x23) := by
  unfold escapeByte
  split
  · exact .inl rfl
  · rename_i h
    rw [needsEscape_iff] at h
    simp only [not_or] at h
    exact .inr ⟨rfl, h.2.2.2.2.2.2.1, h.2.2.1⟩

theorem unescape_pair (y : Byte) (xs : List Byte) : unescape (0x7D :: y :: xs) = (y ^^^ 0x20) :: unescape xs := by
  simp [unescape]

theorem unescape_cons {x : Byte} (h : x ≠ 0x7D) (xs : List Byte) : unescape (x :: xs) = x :: unescape xs := by
  cases xs with
  | nil => rfl
  | cons y ys => rw [unescape, if_neg h]

/-! ### The escape record -/

@[simp] theorem escAfter_true (x : Byte) : escAfter true x = false := rfl

theorem escAfter_false (x : Byte) : escAfter false x = decide (x = 0x7D) := by
  simp [escAfter, chEscape]
  rfl

@[simp] theorem unescapedIs_true (d x : Byte) : unescapedIs d true x = false := rfl

theorem unescapedIs_false (d x : Byte) : unescapedIs d false x = (!decide (x = 0x7D) && decide (x = d)) := by
  simp [unescapedIs, chEscape]
  rfl

end Sys2Proof.Machine
end

