-- ==== Sys2Proof/Laws/CommandWord.lean ====
section
/-! SUPPORT. The fields of a command word (R71). -/

namespace Sys2Proof

/-- The value of a command word in its fields. -/
theorem CmdWord.ofFields_toNat (op c : Byte) (a b : Idx) :
    (CmdWord.ofFields op c a b).toNat =
      op.toNat * 1099511627776 + c.toNat * 4294967296 + a.toNat * 65536 + b.toNat := by
  have hc := c.isLt
  have ha := a.isLt
  have hb := b.isLt
  simp only [CmdWord.ofFields, BitVec.toNat_append, Nat.shiftLeft_eq, Nat.mul_comm _ (2 ^ 16), Nat.mul_comm _ (2 ^ 8)]
  rw [← Nat.two_pow_add_eq_or_of_lt hc, ← Nat.two_pow_add_eq_or_of_lt ha, ← Nat.two_pow_add_eq_or_of_lt hb]
  omega

theorem CmdWord.ofFields_op (op c : Byte) (a b : Idx) : (CmdWord.ofFields op c a b).op = op := by
  have := op.isLt
  apply BitVec.eq_of_toNat_eq
  simp only [CmdWord.op, BitVec.extractLsb'_toNat, CmdWord.ofFields_toNat, Nat.shiftRight_eq_div_pow]
  omega

theorem CmdWord.ofFields_c (op c : Byte) (a b : Idx) : (CmdWord.ofFields op c a b).c = c := by
  have := c.isLt
  apply BitVec.eq_of_toNat_eq
  simp only [CmdWord.c, BitVec.extractLsb'_toNat, CmdWord.ofFields_toNat, Nat.shiftRight_eq_div_pow]
  omega

theorem CmdWord.ofFields_a (op c : Byte) (a b : Idx) : (CmdWord.ofFields op c a b).a = a := by
  have := a.isLt
  apply BitVec.eq_of_toNat_eq
  simp only [CmdWord.a, BitVec.extractLsb'_toNat, CmdWord.ofFields_toNat, Nat.shiftRight_eq_div_pow]
  omega

theorem CmdWord.ofFields_b (op c : Byte) (a b : Idx) : (CmdWord.ofFields op c a b).b = b := by
  have := b.isLt
  apply BitVec.eq_of_toNat_eq
  simp only [CmdWord.b, BitVec.extractLsb'_toNat, CmdWord.ofFields_toNat, Nat.shiftRight_eq_div_pow]
  omega

/-- A command word is made of its fields. -/
theorem CmdWord.ofFields_self (w : CmdWord) : CmdWord.ofFields w.op w.c w.a w.b = w := by
  have := w.isLt
  apply BitVec.eq_of_toNat_eq
  rw [CmdWord.ofFields_toNat]
  simp only [CmdWord.op, CmdWord.c, CmdWord.a, CmdWord.b, BitVec.extractLsb'_toNat, Nat.shiftRight_eq_div_pow]
  omega

/-- Two command words are equal exactly where their fields are. -/
theorem CmdWord.eq_iff (w v : CmdWord) : w = v ↔ w.op = v.op ∧ w.c = v.c ∧ w.a = v.a ∧ w.b = v.b := by
  refine ⟨by rintro rfl; exact ⟨rfl, rfl, rfl, rfl⟩, fun h => ?_⟩
  rw [← CmdWord.ofFields_self w, ← CmdWord.ofFields_self v, h.1, h.2.1, h.2.2.1, h.2.2.2]

end Sys2Proof
end

