-- ==== Sys2Proof/Laws/PerInstr.lean ====
section
/-! SUPPORT. The fields of each operation's command word (R70, R72), one lemma per constructor. -/

namespace Sys2Proof.Laws

/-- The row of R70 and R72 for each operation: `op`, `c`, `a`, `b`. -/
def EncodeFields.row : Instr → Byte × Byte × Idx × Idx
  | .csumCalc base len => (0x10, 0, base, len)
  | .hexDec c0 c1 avail => (0x20, c0, c1.setWidth 16, avail)
  | .hexEnc v => (0x21, v, 0, 0)
  | .binEnc v => (0x30, v, 0, 0)
  | .binDec e => (0x31, e, 0, 0)
  | .rleEnc base len => (0x40, 0, base, len)
  | .wrInit t => (0x50, t.code.setWidth 8, 0, 0)
  | .wrPush v => (0x51, v, 0, 0)
  | .wrPushAck f => (0x52, if f then 1 else 0, 0, 0)
  | .wrFinish => (0x53, 0, 0, 0)
  | .rxRecv t base max => (0x60, t.code.setWidth 8, base, max)
  | .tokInit t base len => (0x70, t.code.setWidth 8, base, len)
  | .tokAdv m d => (0x71, d, m.code.setWidth 16, 0)
  | .tokRewind => (0x72, 0, 0, 0)
  | .bufLd idx => (0x80, 0, idx, 0)
  | .bufSt idx v => (0x81, v, idx, 0)
  | .csrRd num => (0x90, num, 0, 0)

/-- The four fields of the operation's word are those of its row. -/
def EncodeFields.Statement (i : Instr) : Prop :=
  ((encode i).op, (encode i).c, (encode i).a, (encode i).b) = EncodeFields.row i

theorem EncodeFields.csumCalc (base len : Idx) : EncodeFields.Statement (.csumCalc base len) := by
  simp [EncodeFields.Statement, EncodeFields.row, encode, CmdWord.ofFields_op, CmdWord.ofFields_c, CmdWord.ofFields_a,
    CmdWord.ofFields_b]

theorem EncodeFields.hexDec (c0 c1 : Byte) (avail : Idx) : EncodeFields.Statement (.hexDec c0 c1 avail) := by
  simp [EncodeFields.Statement, EncodeFields.row, encode, CmdWord.ofFields_op, CmdWord.ofFields_c, CmdWord.ofFields_a,
    CmdWord.ofFields_b]

theorem EncodeFields.hexEnc (v : Byte) : EncodeFields.Statement (.hexEnc v) := by
  simp [EncodeFields.Statement, EncodeFields.row, encode, CmdWord.ofFields_op, CmdWord.ofFields_c, CmdWord.ofFields_a,
    CmdWord.ofFields_b]

theorem EncodeFields.binEnc (v : Byte) : EncodeFields.Statement (.binEnc v) := by
  simp [EncodeFields.Statement, EncodeFields.row, encode, CmdWord.ofFields_op, CmdWord.ofFields_c, CmdWord.ofFields_a,
    CmdWord.ofFields_b]

theorem EncodeFields.binDec (e : Byte) : EncodeFields.Statement (.binDec e) := by
  simp [EncodeFields.Statement, EncodeFields.row, encode, CmdWord.ofFields_op, CmdWord.ofFields_c, CmdWord.ofFields_a,
    CmdWord.ofFields_b]

theorem EncodeFields.rleEnc (base len : Idx) : EncodeFields.Statement (.rleEnc base len) := by
  simp [EncodeFields.Statement, EncodeFields.row, encode, CmdWord.ofFields_op, CmdWord.ofFields_c, CmdWord.ofFields_a,
    CmdWord.ofFields_b]

theorem EncodeFields.wrInit (t : PacketType) : EncodeFields.Statement (.wrInit t) := by
  simp [EncodeFields.Statement, EncodeFields.row, encode, CmdWord.ofFields_op, CmdWord.ofFields_c, CmdWord.ofFields_a,
    CmdWord.ofFields_b]

theorem EncodeFields.wrPush (v : Byte) : EncodeFields.Statement (.wrPush v) := by
  simp [EncodeFields.Statement, EncodeFields.row, encode, CmdWord.ofFields_op, CmdWord.ofFields_c, CmdWord.ofFields_a,
    CmdWord.ofFields_b]

theorem EncodeFields.wrPushAck (f : Bool) : EncodeFields.Statement (.wrPushAck f) := by
  simp [EncodeFields.Statement, EncodeFields.row, encode, CmdWord.ofFields_op, CmdWord.ofFields_c, CmdWord.ofFields_a,
    CmdWord.ofFields_b]

theorem EncodeFields.wrFinish : EncodeFields.Statement .wrFinish := by
  simp [EncodeFields.Statement, EncodeFields.row, encode, CmdWord.ofFields_op, CmdWord.ofFields_c, CmdWord.ofFields_a,
    CmdWord.ofFields_b]

theorem EncodeFields.rxRecv (t : PacketType) (base max : Idx) : EncodeFields.Statement (.rxRecv t base max) := by
  simp [EncodeFields.Statement, EncodeFields.row, encode, CmdWord.ofFields_op, CmdWord.ofFields_c, CmdWord.ofFields_a,
    CmdWord.ofFields_b]

theorem EncodeFields.tokInit (t : PacketType) (base len : Idx) : EncodeFields.Statement (.tokInit t base len) := by
  simp [EncodeFields.Statement, EncodeFields.row, encode, CmdWord.ofFields_op, CmdWord.ofFields_c, CmdWord.ofFields_a,
    CmdWord.ofFields_b]

theorem EncodeFields.tokAdv (m : DelimMode) (d : Byte) : EncodeFields.Statement (.tokAdv m d) := by
  simp [EncodeFields.Statement, EncodeFields.row, encode, CmdWord.ofFields_op, CmdWord.ofFields_c, CmdWord.ofFields_a,
    CmdWord.ofFields_b]

theorem EncodeFields.tokRewind : EncodeFields.Statement .tokRewind := by
  simp [EncodeFields.Statement, EncodeFields.row, encode, CmdWord.ofFields_op, CmdWord.ofFields_c, CmdWord.ofFields_a,
    CmdWord.ofFields_b]

theorem EncodeFields.bufLd (idx : Idx) : EncodeFields.Statement (.bufLd idx) := by
  simp [EncodeFields.Statement, EncodeFields.row, encode, CmdWord.ofFields_op, CmdWord.ofFields_c, CmdWord.ofFields_a,
    CmdWord.ofFields_b]

theorem EncodeFields.bufSt (idx : Idx) (v : Byte) : EncodeFields.Statement (.bufSt idx v) := by
  simp [EncodeFields.Statement, EncodeFields.row, encode, CmdWord.ofFields_op, CmdWord.ofFields_c, CmdWord.ofFields_a,
    CmdWord.ofFields_b]

theorem EncodeFields.csrRd (num : Byte) : EncodeFields.Statement (.csrRd num) := by
  simp [EncodeFields.Statement, EncodeFields.row, encode, CmdWord.ofFields_op, CmdWord.ofFields_c, CmdWord.ofFields_a,
    CmdWord.ofFields_b]

end Sys2Proof.Laws
end

