-- ==== Sys2Proof/Laws/Receiver.lean ====
section
/-! SUPPORT. The receiver: the bytes taken so far as one operation (R174), what the loop of R183 can do, said once,
and how it gets past bytes that do not end it. -/

namespace Sys2Proof.Machine

/-! ### Bytes taken -/

/-- The state after the receive has stored and taken these bytes (R174). -/
def State.taken (s : State) (t : PacketType) (base : Nat) (xs : List Byte) : State :=
  xs.foldl (fun s x => s.recvByte t base x) s

@[simp] theorem State.taken_nil (s : State) (t : PacketType) (base : Nat) : s.taken t base [] = s := rfl

theorem State.taken_cons (s : State) (t : PacketType) (base : Nat) (x : Byte) (xs : List Byte) :
    s.taken t base (x :: xs) = (s.recvByte t base x).taken t base xs := rfl

theorem State.taken_append (s : State) (t : PacketType) (base : Nat) (xs ys : List Byte) :
    s.taken t base (xs ++ ys) = (s.taken t base xs).taken t base ys :=
  List.foldl_append ..

/-- Taking bytes changes the receiver's registers and the memory alone. -/
theorem State.taken_eq (s : State) (t : PacketType) (base : Nat) (xs : List Byte) :
    s.taken t base xs =
      { s with rx := xs.foldl (fun r x => r.take t x) s.rx, buf := (s.taken t base xs).buf } := by
  induction xs generalizing s with
  | nil => rfl
  | cons x xs ih =>
    rw [State.taken_cons]
    conv_lhs => rw [ih]
    rfl

theorem State.taken_rx (s : State) (t : PacketType) (base : Nat) (xs : List Byte) :
    (s.taken t base xs).rx = xs.foldl (fun r x => r.take t x) s.rx := by
  rw [State.taken_eq]

/-- Every state of the receiver counts the byte it takes, except DONE, which takes none (R174). -/
theorem Rx.take_n (r : Rx) (t : PacketType) (x : Byte) : (r.take t x).n = r.n + 1 := by
  unfold Rx.take
  cases r.state with
  | prefix_ => simp only []; split <;> rfl
  | body => simp only []; split <;> rfl
  | suffix => rfl
  | done => rfl

theorem foldl_take_n (r : Rx) (t : PacketType) (xs : List Byte) :
    (xs.foldl (fun r x => r.take t x) r).n = r.n + BitVec.ofNat 16 xs.length := by
  induction xs generalizing r with
  | nil => simp
  | cons x xs ih =>
    rw [List.foldl_cons, ih, Rx.take_n]
    apply BitVec.eq_of_toNat_eq
    simp only [BitVec.toNat_add, BitVec.toNat_ofNat, List.length_cons]
    rw [show (1 : Idx).toNat = 1 from rfl]
    omega

/-- As long as the count fits, it is the number of bytes taken. -/
theorem foldl_take_n_toNat (r : Rx) (t : PacketType) (xs : List Byte) (h : r.n.toNat + xs.length < 65536) :
    (xs.foldl (fun r x => r.take t x) r).n.toNat = r.n.toNat + xs.length := by
  rw [foldl_take_n, BitVec.toNat_add, BitVec.toNat_ofNat]
  omega

/-- The bytes taken lie in order behind those taken before (R55, R174). -/
theorem State.taken_buf (s : State) (t : PacketType) (base : Nat) (xs : List Byte)
    (h : s.rx.n.toNat + xs.length < 65536) :
    (s.taken t base xs).buf = (s.setBytes (base + s.rx.n.toNat) xs).buf := by
  induction xs generalizing s with
  | nil => rfl
  | cons x xs ih =>
    rw [List.length_cons] at h
    have hn : (s.rx.take t x).n.toNat = s.rx.n.toNat + 1 := by
      rw [Rx.take_n, BitVec.toNat_add, show (1 : Idx).toNat = 1 from rfl]
      omega
    rw [State.taken_cons, ih _ (by rw [State.recvByte_rx]; omega), State.recvByte_rx, hn, State.setBytes_cons]
    clear ih h hn
    show (State.setBytes _ (base + (s.rx.n.toNat + 1)) xs).buf = _
    rw [← Nat.add_assoc]
    generalize base + s.rx.n.toNat + 1 = a
    have e : (s.recvByte t base x).buf = (s.setByte (base + s.rx.n.toNat) x).buf := rfl
    revert e
    generalize s.recvByte t base x = u
    generalize s.setByte (base + s.rx.n.toNat) x = v
    intro e
    induction xs generalizing u v a with
    | nil => exact e
    | cons y ys ih =>
      rw [State.setBytes_cons, State.setBytes_cons]
      exact ih _ _ _ (by simp [e])

/-- A byte of `BUF` after bytes have been taken. -/
theorem State.byteAt_taken (s : State) (t : PacketType) (base : Nat) (xs : List Byte)
    (h : s.rx.n.toNat + xs.length < 65536) (a : Nat) :
    (s.taken t base xs).byteAt a = (s.setBytes (base + s.rx.n.toNat) xs).byteAt a := by
  refine State.byteAt_congr _ _ (s.taken_buf t base xs h) ?_ a
  rw [State.taken_eq, State.setBytes_eq]

/-! ### The loop of R183 -/

theorem State.recvLoop_done (t : PacketType) (base max : Idx) (l : List SrcAnswer) (s : State)
    (h : s.rx.state = .done) : State.recvLoop t base max l s = { s with src := l }.recvFinish t base.toNat := by
  rw [State.recvLoop.eq_def, if_pos h]

theorem State.recvLoop_full (t : PacketType) (base max : Idx) (l : List SrcAnswer) (s : State)
    (h : s.rx.state ≠ .done) (hn : s.rx.n = max) :
    State.recvLoop t base max l s = { s with src := l }.answer .endOfBuffer 0 0 := by
  rw [State.recvLoop.eq_def, if_neg h, if_pos hn]

theorem State.recvLoop_byte (t : PacketType) (base max : Idx) (x : Byte) (rest : List SrcAnswer) (s : State)
    (h : s.rx.state ≠ .done) (hn : s.rx.n ≠ max) :
    State.recvLoop t base max (.byte x :: rest) s = State.recvLoop t base max rest (s.recvByte t base.toNat x) := by
  rw [State.recvLoop.eq_def, if_neg h, if_neg hn]

theorem State.recvLoop_err (t : PacketType) (base max : Idx) (low : BitVec 15) (rest : List SrcAnswer) (s : State)
    (h : s.rx.state ≠ .done) (hn : s.rx.n ≠ max) :
    State.recvLoop t base max (.err low :: rest) s = { s with src := rest }.answer .transport (errCode low) 0 := by
  rw [State.recvLoop.eq_def, if_neg h, if_neg hn]

theorem State.recvLoop_silent (t : PacketType) (base max : Idx) (l : List SrcAnswer) (s : State)
    (h : s.rx.state ≠ .done) (hn : s.rx.n ≠ max) (hl : NoSrcAnswer l) :
    State.recvLoop t base max l s = { s with src := l }.wait (.rxRecv t base max) := by
  rw [State.recvLoop.eq_def, if_neg h, if_neg hn]
  rcases hl with rfl | ⟨rest, rfl⟩ <;> rfl

/-- What the loop can do: it takes some bytes, none of which ended it, and then stops in one of four ways (R172,
R173, R178 to R180, R272). -/
theorem State.recvLoop_cases (t : PacketType) (base max : Idx) (l : List SrcAnswer) (s : State) :
    ∃ xs rest, l = xs.map .byte ++ rest ∧
      (∀ ys zs, xs = ys ++ zs → zs ≠ [] →
        (s.taken t base.toNat ys).rx.state ≠ .done ∧ (s.taken t base.toNat ys).rx.n ≠ max) ∧
      (((s.taken t base.toNat xs).rx.state = .done ∧
          State.recvLoop t base max l s = { s.taken t base.toNat xs with src := rest }.recvFinish t base.toNat) ∨
       ((s.taken t base.toNat xs).rx.state ≠ .done ∧ (s.taken t base.toNat xs).rx.n = max ∧
          State.recvLoop t base max l s = { s.taken t base.toNat xs with src := rest }.answer .endOfBuffer 0 0) ∨
       ((s.taken t base.toNat xs).rx.state ≠ .done ∧ (s.taken t base.toNat xs).rx.n ≠ max ∧
          ∃ low rest', rest = .err low :: rest' ∧ State.recvLoop t base max l s =
            { s.taken t base.toNat xs with src := rest' }.answer .transport (errCode low) 0) ∨
       ((s.taken t base.toNat xs).rx.state ≠ .done ∧ (s.taken t base.toNat xs).rx.n ≠ max ∧ NoSrcAnswer rest ∧
          State.recvLoop t base max l s = { s.taken t base.toNat xs with src := rest }.wait (.rxRecv t base max))) := by
  have empty : ∀ ys zs : List Byte, [] = ys ++ zs → zs ≠ [] →
      (s.taken t base.toNat ys).rx.state ≠ .done ∧ (s.taken t base.toNat ys).rx.n ≠ max := by
    intro ys zs e hz
    simp only [List.nil_eq, List.append_eq_nil_iff] at e
    exact absurd e.2 hz
  induction l generalizing s with
  | nil =>
    refine ⟨[], [], rfl, empty, ?_⟩
    rw [State.taken_nil]
    by_cases h : s.rx.state = .done
    · exact .inl ⟨h, State.recvLoop_done _ _ _ _ _ h⟩
    · by_cases hn : s.rx.n = max
      · exact .inr (.inl ⟨h, hn, State.recvLoop_full _ _ _ _ _ h hn⟩)
      · exact .inr (.inr (.inr ⟨h, hn, .inl rfl, State.recvLoop_silent _ _ _ _ _ h hn (.inl rfl)⟩))
  | cons a l ih =>
    by_cases h : s.rx.state = .done
    · exact ⟨[], a :: l, rfl, empty, .inl ⟨h, State.recvLoop_done _ _ _ _ _ h⟩⟩
    · by_cases hn : s.rx.n = max
      · exact ⟨[], a :: l, rfl, empty, .inr (.inl ⟨h, hn, State.recvLoop_full _ _ _ _ _ h hn⟩)⟩
      · match a with
        | .err low =>
          exact ⟨[], .err low :: l, rfl, empty,
            .inr (.inr (.inl ⟨h, hn, low, l, rfl, State.recvLoop_err _ _ _ _ _ _ h hn⟩))⟩
        | .silent =>
          exact ⟨[], .silent :: l, rfl, empty,
            .inr (.inr (.inr ⟨h, hn, .inr ⟨l, rfl⟩, State.recvLoop_silent _ _ _ _ _ h hn (.inr ⟨l, rfl⟩)⟩))⟩
        | .byte x =>
          have empty' : ∀ ys zs : List Byte, [] = ys ++ zs → zs ≠ [] →
              ((s.recvByte t base.toNat x).taken t base.toNat ys).rx.state ≠ .done ∧
              ((s.recvByte t base.toNat x).taken t base.toNat ys).rx.n ≠ max := by
            intro ys zs e hz
            simp only [List.nil_eq, List.append_eq_nil_iff] at e
            exact absurd e.2 hz
          obtain ⟨xs, rest, e, hg, hc⟩ := ih (s.recvByte t base.toNat x) empty'
          rw [State.recvLoop_byte _ _ _ _ _ _ h hn]
          refine ⟨x :: xs, rest, by rw [e]; rfl, ?_, hc⟩
          intro ys zs hyz hz
          cases ys with
          | nil => exact ⟨h, hn⟩
          | cons y ys =>
            injection hyz with h1 h2
            subst h1
            exact hg ys zs h2 hz

/-- The loop gets past bytes none of which ends it. -/
theorem State.recvLoop_taken (t : PacketType) (base max : Idx) (xs : List Byte) (rest : List SrcAnswer) (s : State)
    (h : ∀ ys zs, xs = ys ++ zs → zs ≠ [] →
      (s.taken t base.toNat ys).rx.state ≠ .done ∧ (s.taken t base.toNat ys).rx.n ≠ max) :
    State.recvLoop t base max (xs.map .byte ++ rest) s = State.recvLoop t base max rest (s.taken t base.toNat xs) := by
  induction xs generalizing s with
  | nil => rfl
  | cons x xs ih =>
    have h0 : s.rx.state ≠ .done ∧ s.rx.n ≠ max := h [] (x :: xs) rfl (by simp)
    rw [List.map_cons, List.cons_append, State.recvLoop_byte _ _ _ _ _ _ h0.1 h0.2, State.taken_cons]
    exact ih _ fun ys zs e hz => h (x :: ys) zs (by rw [e]; rfl) hz

/-! ### The transitions never go back -/

/-- DONE is left by no byte (R185). -/
theorem Rx.take_of_done (r : Rx) (t : PacketType) (x : Byte) (h : r.state = .done) : (r.take t x).state = .done := by
  unfold Rx.take
  simp [h]

theorem foldl_take_of_done (r : Rx) (t : PacketType) (xs : List Byte) (h : r.state = .done) :
    (xs.foldl (fun r x => r.take t x) r).state = .done := by
  induction xs generalizing r with
  | nil => exact h
  | cons x xs ih => exact ih _ (r.take_of_done t x h)

/-- Where some bytes do not end in DONE, no initial part of them does. -/
theorem foldl_take_not_done (r : Rx) (t : PacketType) (ys zs : List Byte)
    (h : ((ys ++ zs).foldl (fun r x => r.take t x) r).state ≠ .done) :
    (ys.foldl (fun r x => r.take t x) r).state ≠ .done := by
  intro e
  exact h (by rw [List.foldl_append]; exact foldl_take_of_done _ _ _ e)

/-! ### The end of a receive -/

/-- What the end of a receive can answer (R178 to R180), and that only `RX.csum` and the response change. -/
theorem State.recvFinish_cases (t : PacketType) (base : Nat) (s : State) :
    (t = .ack ∧ s.recvFinish t base = s.answer .ok s.rx.n s.rx.mark) ∨
    (t ≠ .ack ∧ ∃ st r0 r1, (st = .ok ∨ st = .invalid ∨ st = .checksumError) ∧
      s.recvFinish t base = { s with rx := { s.rx with csum := csum (s.rxPayload base) } }.answer st r0 r1) := by
  unfold State.recvFinish
  by_cases h : t = .ack
  · exact .inl ⟨h, if_pos h⟩
  · refine .inr ⟨h, ?_⟩
    rw [if_neg h]
    simp only []
    have hv : ∀ f c, validateStatus f c = .ok ∨ validateStatus f c = .invalid ∨ validateStatus f c = .checksumError := by
      intro f c
      unfold validateStatus
      cases f with
      | none => simp
      | some d => simp only []; split <;> simp
    rcases hv (s.rxField base) (csum (s.rxPayload base)) with e | e | e <;> rw [e]
    · exact ⟨.ok, _, _, .inl rfl, rfl⟩
    · exact ⟨.invalid, _, _, .inr (.inl rfl), rfl⟩
    · exact ⟨.checksumError, _, _, .inr (.inr rfl), rfl⟩

end Sys2Proof.Machine
end

