-- ==== Sys2Proof/Laws/RunLength.lean ====
section
/-! SUPPORT. The run-length encoder: the emission of a run with its numbers written out (R131, R132), the fuel it
needs, the maximal runs of a window (R130), and the inner loop of R133. -/

namespace Sys2Proof.Machine

/-! ### The emission of a run -/

theorem rleShort_eq (v : Byte) (n : Nat) :
    rleShort v n =
      if n < 4 then List.replicate n v
      else if n ≤ 6 then rleEntry v n
      else if n ≤ 9 then rleEntry v 6 ++ List.replicate (n - 6) v
      else rleEntry v n := rfl

@[simp] theorem rleRun_zero (v : Byte) (n : Nat) : rleRun 0 v n = rleShort v n := rfl

theorem rleRun_succ (k : Nat) (v : Byte) (n : Nat) :
    rleRun (k + 1) v n = if 98 < n then rleEntry v 98 ++ rleRun k v (n - 98) else rleShort v n := rfl

/-- A run of at most 98 is one row of the table. -/
theorem rleRun_short (k : Nat) (v : Byte) (n : Nat) (h : n ≤ 98) : rleRun k v n = rleShort v n := by
  cases k with
  | zero => rfl
  | succ k => rw [rleRun_succ, if_neg (by omega)]

/-- Any fuel of at least `(n - 98) / 98` gives the same emission. -/
theorem rleRun_fuel (k j : Nat) (v : Byte) (n : Nat) (hk : n ≤ 98 * k + 98) (hj : n ≤ 98 * j + 98) :
    rleRun k v n = rleRun j v n := by
  induction k generalizing n j with
  | zero => rw [rleRun_short _ _ _ (by omega), rleRun_short _ _ _ (by omega)]
  | succ k ih =>
    cases j with
    | zero => rw [rleRun_short _ _ _ (by omega), rleRun_short _ _ _ (by omega)]
    | succ j =>
      rw [rleRun_succ, rleRun_succ]
      split
      · rw [ih j (n - 98) (by omega) (by omega)]
      · rfl

@[simp] theorem rleEntry_length (v : Byte) (n : Nat) : (rleEntry v n).length = 3 := rfl

/-- The length byte of an entry (R132). -/
theorem lengthByte_toNat (n : Nat) (h1 : 1 ≤ n) (h2 : n ≤ 98) : (lengthByte n).toNat = n + 28 := by
  unfold lengthByte
  rw [BitVec.toNat_ofNat, show rleBias = 29 from rfl]
  omega

/-- The first byte of an emission is the run's value. -/
theorem rleRun_head? (k : Nat) (v : Byte) (n : Nat) (h : 0 < n) : (rleRun k v n).head? = some v := by
  have hs : (rleShort v n).head? = some v := by
    rw [rleShort_eq]
    split
    · cases n with
      | zero => omega
      | succ n => rfl
    · split
      · rfl
      · split <;> rfl
  cases k with
  | zero => exact hs
  | succ k =>
    rw [rleRun_succ]
    split
    · rfl
    · exact hs

/-! ### The maximal runs of a window -/

theorem runs_cons (x : Byte) (xs : List Byte) :
    runs (x :: xs) = match runs xs with
      | [] => [(x, 1)]
      | (v, n) :: rest => if x = v then (v, n + 1) :: rest else (x, 1) :: (v, n) :: rest := rfl

/-- The runs, written out, are the window. -/
theorem runs_flat (xs : List Byte) : (runs xs).flatMap (fun r => List.replicate r.2 r.1) = xs := by
  induction xs with
  | nil => rfl
  | cons x xs ih =>
    rw [runs_cons]
    split
    · rename_i h
      rw [h] at ih
      simpa using ih
    · rename_i v n rest h
      rw [h, List.flatMap_cons] at ih
      split
      · rename_i e
        subst e
        rw [List.flatMap_cons, List.replicate_succ, List.cons_append, ih]
      · rw [List.flatMap_cons, List.flatMap_cons, ih]
        rfl

/-- A window begins with its first run: `n` further copies of the first byte, then another byte or the end. -/
theorem runs_first (x : Byte) (xs : List Byte) :
    ∃ n rest, n ≤ xs.length ∧ xs = List.replicate n x ++ rest ∧ rest.head? ≠ some x ∧
      runs (x :: xs) = (x, n + 1) :: runs rest := by
  induction xs generalizing x with
  | nil => exact ⟨0, [], by simp, by simp, by simp, rfl⟩
  | cons y ys ih =>
    obtain ⟨n, rest, hn, e, hh, hr⟩ := ih y
    by_cases h : x = y
    · subst h
      refine ⟨n + 1, rest, by simpa using hn, ?_, hh, ?_⟩
      · rw [List.replicate_succ, List.cons_append, ← e]
      · rw [runs_cons, hr]
        exact if_pos rfl
    · refine ⟨0, y :: ys, by simp, by simp, by simpa using Ne.symm h, ?_⟩
      rw [runs_cons, hr]
      exact if_neg h

/-! ### The inner loop of R133 -/

/-- The loop counts the copies of `v` at the front. -/
theorem State.sameBytes_eq (s : State) (v : Byte) (a n k : Nat) (rest : List Byte)
    (h : s.bytes a n = List.replicate k v ++ rest) (hr : rest.head? ≠ some v) : s.sameBytes v a n = k := by
  induction n generalizing a k with
  | zero =>
    have hk : k = 0 := by
      have := congrArg List.length h
      simp only [State.bytes_zero, List.length_nil, List.length_append, List.length_replicate] at this
      omega
    rw [hk]
    rfl
  | succ n ih =>
    rw [State.bytes_succ] at h
    rw [State.sameBytes]
    cases k with
    | zero =>
      rw [List.replicate_zero, List.nil_append] at h
      subst h
      rw [if_neg (by simpa using hr)]
    | succ k =>
      rw [List.replicate_succ, List.cons_append] at h
      injection h with h1 h2
      rw [if_pos h1, ih _ _ h2]

/-! ### The outer loop of R133 -/

@[simp] theorem State.rleLoop_zero (base len : Nat) (s : State) (r w : Nat) :
    State.rleLoop base len 0 s r w = (s, w) := rfl

/-- One turn of the loop. -/
theorem State.rleLoop_succ (base len k : Nat) (s : State) (r w : Nat) :
    State.rleLoop base len (k + 1) s r w =
      if r < len then
        State.rleLoop base len k
          (s.setBytes (base + w)
            (rleRun (1 + s.sameBytes (s.byteAt (base + r)) (base + r + 1) (len - r - 1)) (s.byteAt (base + r))
              (1 + s.sameBytes (s.byteAt (base + r)) (base + r + 1) (len - r - 1))))
          (r + (1 + s.sameBytes (s.byteAt (base + r)) (base + r + 1) (len - r - 1)))
          (w + (rleRun (1 + s.sameBytes (s.byteAt (base + r)) (base + r + 1) (len - r - 1)) (s.byteAt (base + r))
              (1 + s.sameBytes (s.byteAt (base + r)) (base + r + 1) (len - r - 1))).length)
      else (s, w) := rfl

theorem State.setBytes_append (s : State) (a : Nat) (xs ys : List Byte) :
    s.setBytes a (xs ++ ys) = (s.setBytes a xs).setBytes (a + xs.length) ys := by
  induction xs generalizing s a with
  | nil => simp
  | cons x xs ih =>
    rw [List.cons_append, State.setBytes_cons, State.setBytes_cons, ih, List.length_cons,
      show a + 1 + xs.length = a + (xs.length + 1) by omega]

end Sys2Proof.Machine
end

