-- ==== Sys2Proof/Laws/Step.lean ====
section
/-! SUPPORT. What a step does in each situation of the engine. -/

namespace Sys2Proof.Machine

/-- A pending reset is taken first. -/
theorem step_reset {s : State} {rest : List HostEvent} (h : s.host = .reset :: rest) :
    step s = .next s.afterEvent.afterReset := by
  simp [step, engineStep, h]

/-- Without a pending reset an operation in flight goes on. -/
theorem step_busy {s : State} {i : Instr} (hb : s.busy = some i) (hr : ∀ rest, s.host ≠ .reset :: rest) :
    step s = resume i s := by
  unfold step engineStep
  split <;> simp_all

/-- A command is taken when no operation is in flight. -/
theorem step_command {s : State} {w : CmdWord} {rest : List HostEvent} (h : s.host = .command w :: rest)
    (hb : s.busy = none) : step s = runCommand w { s with host := rest } := by
  simp [step, engineStep, h, hb, State.afterEvent]

/-- With nothing to do nothing changes. -/
theorem step_idle {s : State} (h : s.host = []) (hb : s.busy = none) : step s = .next s := by
  simp [step, engineStep, h, hb]

/-- Everything a step can do. -/
theorem step_cases {s : State} {r : Result} (h : step s = r) :
    (∃ rest, s.host = .reset :: rest ∧ r = .next s.afterEvent.afterReset) ∨
    (∃ i, s.busy = some i ∧ (∀ rest, s.host ≠ .reset :: rest) ∧ r = resume i s) ∨
    (∃ w rest, s.host = .command w :: rest ∧ s.busy = none ∧ r = runCommand w { s with host := rest }) ∨
    (s.host = [] ∧ s.busy = none ∧ r = .next s) := by
  by_cases hr : ∃ rest, s.host = .reset :: rest
  · obtain ⟨rest, hr⟩ := hr
    exact .inl ⟨rest, hr, h.symm.trans (step_reset hr)⟩
  · replace hr : ∀ rest, s.host ≠ .reset :: rest := fun rest e => hr ⟨rest, e⟩
    right
    obtain hb | ⟨i, hb⟩ : s.busy = none ∨ ∃ i, s.busy = some i := by cases s.busy <;> simp
    · right
      obtain hh | ⟨w, rest, hh⟩ : s.host = [] ∨ ∃ w rest, s.host = .command w :: rest := by
        match hh : s.host with
        | [] => simp
        | .command w :: rest => simp
        | .reset :: rest => exact absurd hh (hr rest)
      · exact .inr ⟨hh, hb, h.symm.trans (step_idle hh hb)⟩
      · exact .inl ⟨w, rest, hh, hb, h.symm.trans (step_command hh hb)⟩
    · exact .inl ⟨i, hb, hr, h.symm.trans (step_busy hb hr)⟩

end Sys2Proof.Machine
end

