-- ==== Sys2Proof/Laws/Tokenizer.lean ====
section
/-! SUPPORT. The tokenizer: what the scan of R195 finds, what R17 gives an advance, and the bits of the registers as
numbers (R22). -/

namespace Sys2Proof.Machine

theorem skipLen_eq (b : Bool) : skipLen b = if b = true then 1 else 0 := rfl

/-- The token before the delimiter is an initial part of the domain, a proper one where a delimiter was found. -/
theorem untilDelim_length (d : Byte) (esc : Bool) (xs : List Byte) :
    (untilDelim d esc xs).1.length ≤ xs.length ∧
      ((untilDelim d esc xs).2 = true → (untilDelim d esc xs).1.length < xs.length) := by
  induction xs generalizing esc with
  | nil => cases esc <;> simp [untilDelim]
  | cons x xs ih =>
    cases esc
    · rw [untilDelim]
      split
      · simpa using ih true
      · split
        · simp
        · simpa using ih false
    · rw [untilDelim]
      simpa using ih false

/-- The scan gives the length of the token before the first delimiter outside an escape pair (R195). -/
theorem State.scan_eq (s : State) (d : Byte) (n a : Nat) (esc : Bool) :
    s.scan d n a esc = ((untilDelim d esc (s.bytes a n)).1.length, (untilDelim d esc (s.bytes a n)).2) := by
  induction n generalizing a esc with
  | zero => cases esc <;> rfl
  | succ n ih =>
    rw [State.bytes_succ, State.scan]
    dsimp only
    cases esc with
    | true =>
      rw [unescapedIs_true, escAfter_true, ih]
      rfl
    | false =>
      rw [unescapedIs_false, escAfter_false, untilDelim]
      by_cases h1 : s.byteAt a = 0x7D
      · rw [if_pos h1, decide_eq_true h1, ih]
        rfl
      · rw [if_neg h1, decide_eq_false h1, ih]
        by_cases h2 : s.byteAt a = d
        · rw [if_pos h2, decide_eq_true h2]
          rfl
        · rw [if_neg h2, decide_eq_false h2]
          rfl

/-- R17 for the current triple is what an advance needs. -/
theorem TokOk.cursorInside {s : State} (h : TokOk s.params s.tok) (hv : s.tok.valid = true) :
    s.tok.cursorInside s.params = true := by
  unfold TokOk at h
  rw [if_pos hv] at h
  unfold Tok.cursorInside Tok.scanStart
  simp [h.1, h.2.2]

/-- The token of an advance starts at `p` and stays in the domain; a matched delimiter does too (R195 to R197). -/
theorem State.tokenEnd_bounds (s : State) (m : DelimMode) (d : Byte) (p : Nat) (hp : p < s.tok.domEnd.toNat) :
    p ≤ (s.tokenEnd m d p).1 ∧ (s.tokenEnd m d p).1 + skipLen (s.tokenEnd m d p).2 ≤ s.tok.domEnd.toNat := by
  have hs : ∀ n a esc, (s.scan d n a esc).1 + skipLen (s.scan d n a esc).2 ≤ n := by
    intro n
    induction n with
    | zero => intro a esc; exact le_rfl
    | succ n ih =>
      intro a esc
      rw [State.scan]
      dsimp only
      split
      · simp [skipLen]
      · have := ih (a + 1) (escAfter esc (s.byteAt a))
        dsimp only
        omega
  cases m with
  | literal =>
    have := hs (s.tok.domEnd.toNat - p) (s.tok.base.toNat + p) false
    unfold State.tokenEnd
    dsimp only
    omega
  | single =>
    unfold State.tokenEnd skipLen
    simp
    omega
  | toEnd =>
    unfold State.tokenEnd skipLen
    simp
    omega

/-- The number that two fields put together stand for. -/
theorem append_toNat {n m : Nat} (a : BitVec n) (b : BitVec m) : (a ++ b).toNat = a.toNat * 2 ^ m + b.toNat := by
  rw [BitVec.toNat_append, Nat.shiftLeft_eq, Nat.mul_comm, ← Nat.two_pow_add_eq_or_of_lt b.isLt]

/-- A bit as a number. -/
theorem ofBool_toNat (b : Bool) : (BitVec.ofBool b).toNat = b.toNat := by
  cases b <;> rfl

end Sys2Proof.Machine
end

