-- ==== Sys2Proof/Tests/Slice0.lean ====
section
/-! SUPPORT. Tests of the syntax, the decoder and one step of each operation. Expected values come from the spec:
`E<n>`, `V<n>`, `W<n>`, `T<n>` name the vectors of spec/95_test_vectors.md and spec/96_test_vectors_part2.md. Below
them, for every statement with hypotheses, a witness that meets them. -/

namespace Sys2Proof.Machine.Tests

/-! ## Helpers -/

/-- An engine after reset with 256 bytes of `BUF`, these bytes at index 0 and these answers to come. -/
def engine (bytes : List Byte) (src : List SrcAnswer := []) (sink : List SinkAnswer := []) : State :=
  { (State.resetWith ⟨256, [], false⟩).setBytes 0 bytes with src := src, sink := sink }

/-- One step on a command word. -/
def one (w : Nat) (s : State) : Result := step (s.withFetchWord 48 w)

/-- The response word after a step. -/
def rspOf : Result → Option RspWord
  | .next t => t.rsp
  | .fault _ => none
  | .refused _ => none

/-- What holds of the next state, if there is one. -/
def after (r : Result) (p : State → Bool) : Bool :=
  match r with
  | .next t => p t
  | .fault _ => false
  | .refused _ => false

/-- `$foo#44`. -/
def fooPacket : List Byte := [0x24, 0x66, 0x6F, 0x6F, 0x23, 0x34, 0x34]

/-- A writer with a Message in progress and these bytes of it queued. -/
def msgWriter (la0 : Byte) (csum : Byte) : Wr := ⟨true, .msg, la0, 0, 0, 1, csum, false, false, false⟩

/-- A writer with a Message in progress whose whole trailer `#3F` is queued. -/
def trailerWriter : Wr := ⟨true, .msg, 0x23, 0x33, 0x46, 3, 0x3F, false, false, true⟩

/-- A writer with an Ack packet in progress. -/
def ackWriter (sent : Bool) : Wr := ⟨true, .ack, 0, 0, 0, 0, 0, false, sent, false⟩

/-! ## Well-formedness: every check refuses an ill-formed term -/

theorem test_wellFormed_single_delim : (Instr.tokAdv .single 0x2C).wellFormed = false := by decide
theorem test_wellFormed_toEnd_delim : (Instr.tokAdv .toEnd 0x2C).wellFormed = false := by decide
theorem test_wellFormed_literal_delim : (Instr.tokAdv .literal 0x2C).wellFormed = true := by decide

/-! ## The decoder: one word for each operation, its fields written out from R70 to R73 -/

theorem test_decode_csumCalc :
    decode ((0x10#8 ++ 0x00#8 ++ 0x000A#16 ++ 0x0004#16 : CmdWord)) = .ok (.csumCalc 10 4) := by decide
theorem test_decode_hexDec :
    decode ((0x20#8 ++ 0x41#8 ++ 0x0042#16 ++ 0x0002#16 : CmdWord)) = .ok (.hexDec 0x41 0x42 2) := by decide
theorem test_decode_hexEnc :
    decode ((0x21#8 ++ 0xAB#8 ++ 0x0000#16 ++ 0x0000#16 : CmdWord)) = .ok (.hexEnc 0xAB) := by decide
theorem test_decode_binEnc :
    decode ((0x30#8 ++ 0x41#8 ++ 0x0000#16 ++ 0x0000#16 : CmdWord)) = .ok (.binEnc 0x41) := by decide
theorem test_decode_binDec :
    decode ((0x31#8 ++ 0x20#8 ++ 0x0000#16 ++ 0x0000#16 : CmdWord)) = .ok (.binDec 0x20) := by decide
theorem test_decode_rleEnc :
    decode ((0x40#8 ++ 0x00#8 ++ 0x0001#16 ++ 0x0010#16 : CmdWord)) = .ok (.rleEnc 1 16) := by decide
theorem test_decode_wrInit :
    decode ((0x50#8 ++ 0x02#8 ++ 0x0000#16 ++ 0x0000#16 : CmdWord)) = .ok (.wrInit .notif) := by decide
theorem test_decode_wrPush :
    decode ((0x51#8 ++ 0x3F#8 ++ 0x0000#16 ++ 0x0000#16 : CmdWord)) = .ok (.wrPush 0x3F) := by decide
theorem test_decode_wrPushAck :
    decode ((0x52#8 ++ 0x01#8 ++ 0x0000#16 ++ 0x0000#16 : CmdWord)) = .ok (.wrPushAck true) := by decide
theorem test_decode_wrFinish :
    decode ((0x53#8 ++ 0x00#8 ++ 0x0000#16 ++ 0x0000#16 : CmdWord)) = .ok .wrFinish := by decide
theorem test_decode_rxRecv :
    decode ((0x60#8 ++ 0x01#8 ++ 0x0010#16 ++ 0x0020#16 : CmdWord)) = .ok (.rxRecv .msg 16 32) := by decide
theorem test_decode_tokInit :
    decode ((0x70#8 ++ 0x00#8 ++ 0x0002#16 ++ 0x0011#16 : CmdWord)) = .ok (.tokInit .ack 2 17) := by decide
theorem test_decode_tokAdv :
    decode ((0x71#8 ++ 0x2C#8 ++ 0x0000#16 ++ 0x0000#16 : CmdWord)) = .ok (.tokAdv .literal 0x2C) := by decide
theorem test_decode_tokAdv_end :
    decode ((0x71#8 ++ 0x00#8 ++ 0x0002#16 ++ 0x0000#16 : CmdWord)) = .ok (.tokAdv .toEnd 0) := by decide
theorem test_decode_tokRewind :
    decode ((0x72#8 ++ 0x00#8 ++ 0x0000#16 ++ 0x0000#16 : CmdWord)) = .ok .tokRewind := by decide
theorem test_decode_bufLd :
    decode ((0x80#8 ++ 0x00#8 ++ 0x00FF#16 ++ 0x0000#16 : CmdWord)) = .ok (.bufLd 255) := by decide
theorem test_decode_bufSt :
    decode ((0x81#8 ++ 0x41#8 ++ 0x00FE#16 ++ 0x0000#16 : CmdWord)) = .ok (.bufSt 254 0x41) := by decide
theorem test_decode_csrRd :
    decode ((0x90#8 ++ 0x30#8 ++ 0x0000#16 ++ 0x0000#16 : CmdWord)) = .ok (.csrRd 0x30) := by decide

/-- Reserved words (V3.16, V3.46, V6.32 to V6.34, V7.48, V9.8, V9.37). -/
theorem test_decode_reserved :
    [0x100100000003, 0x204101420002, 0x520200000000, 0x500300000000, 0x530000000001, 0x600300000020,
      0x800100000000, 0x000000000000, 0x710000030000, 0x712C00010000, 0x510000010000].all
      (fun w => decodeTableWord 48 w == none) = true := by decide

/-! ## One step of each operation -/

theorem test_csumCalc_foo : rspOf (one 0x100000000003 (engine [0x66, 0x6F, 0x6F])) = some 0x0000440000 := by
  decide -- V3.2
theorem test_csumCalc_badWindow : rspOf (one 0x100000FA0007 (engine [])) = some 0xFF00020000 := by decide -- V3.13
theorem test_hexDec_mixedCase : rspOf (one 0x206100420002 (engine [])) = some 0x0000AB0000 := by decide -- V3.23
theorem test_hexDec_invalid : rspOf (one 0x206800690002 (engine [])) = some 0x0100000000 := by decide -- V3.34
theorem test_hexEnc_3F : rspOf (one 0x213F00000000 (engine [])) = some 0x0000330046 := by decide -- V3.56
theorem test_hexEnc_A0 : rspOf (one 0x21A000000000 (engine [])) = some 0x0000410030 := by decide -- V3.59
theorem test_binEnc_escaped : rspOf (one 0x300000000000 (engine [])) = some 0x000002207D := by decide -- E1
theorem test_binEnc_plain : rspOf (one 0x304100000000 (engine [])) = some 0x0000010041 := by decide -- E1
theorem test_binDec_00 : rspOf (one 0x312000000000 (engine [])) = some 0x0000000000 := by decide -- program P2
theorem test_binDec_23 : rspOf (one 0x310300000000 (engine [])) = some 0x0000230000 := by decide -- program P2

/-- E2: `ABCCCCCCDDDEEEEF` becomes `ABC*"DDDE* F`; the bytes behind the output stay. -/
theorem test_rleEnc_E2 :
    after (one 0x400000000010 (engine [0x41, 0x42, 0x43, 0x43, 0x43, 0x43, 0x43, 0x43, 0x44, 0x44, 0x44, 0x45, 0x45,
      0x45, 0x45, 0x46])) (fun t => t.rsp == some 0x00000C0000 && t.bytes 0 16 ==
      [0x41, 0x42, 0x43, 0x2A, 0x22, 0x44, 0x44, 0x44, 0x45, 0x2A, 0x20, 0x46, 0x45, 0x45, 0x45, 0x46]) = true := by
  decide

/-- W1, step 1. -/
theorem test_wrInit_msg :
    after (one 0x500100000000 (engine [])) (fun t => t.rsp == some 0 && t.wr == msgWriter 0x24 0 && t.sent == []) =
      true := by decide

/-- W1, step 2: the marker is sent, the payload byte is held back. -/
theorem test_wrPush_sendsMarker :
    after (one 0x513F00000000 { engine [] [] [.done] with wr := msgWriter 0x24 0 })
      (fun t => t.rsp == some 0 && t.sent == [0x24] && t.wr == msgWriter 0x3F 0x3F) = true := by decide

/-- W9, step 2: a failed push does not take its byte. -/
theorem test_wrPush_sinkError :
    after (one 0x513F00000000 { engine [] [] [.err 0x7FFB] with wr := msgWriter 0x24 0 })
      (fun t => t.rsp == some 0x80FFFB0000 && t.sent == [] && t.wr == msgWriter 0x24 0) = true := by decide

/-- W5, step 2. -/
theorem test_wrPushAck_nack :
    after (one 0x520000000000 { engine [] [] [.done] with wr := ackWriter false })
      (fun t => t.rsp == some 0 && t.sent == [0x2D] && t.wr == ackWriter true) = true := by decide

/-- W14, step 2. -/
theorem test_wrPushAck_sinkError :
    after (one 0x520100000000 { engine [] [] [.err 0x7FF9] with wr := ackWriter false })
      (fun t => t.rsp == some 0x80FFF90000 && t.sent == [] && t.wr == ackWriter false) = true := by decide

/-- W1, step 3: `?#3F`. -/
theorem test_wrFinish_msg :
    after (one 0x530000000000 { engine [] [] [.done, .done, .done, .done] with wr := msgWriter 0x3F 0x3F })
      (fun t => t.rsp == some 0 && t.sent == [0x3F, 0x23, 0x33, 0x46] && wrCtlWord t.wr == 0x2B) = true := by decide

/-- W12, step 3: the failure is on the first digit; both digits stay queued. -/
theorem test_wrFinish_sinkError :
    after (one 0x530000000000 { engine [] [] [.done, .done, .err 0x7FFE] with wr := msgWriter 0x3F 0x3F })
      (fun t => t.rsp == some 0x80FFFE0000 && t.sent == [0x3F, 0x23] && wrCtlWord t.wr == 0xA3 &&
        wrLa01Word t.wr == 0x4633) = true := by decide

/-- V7.1 (E4). -/
theorem test_rxRecv_foo :
    after (one 0x600100000020 (engine [] (fooPacket.map .byte)))
      (fun t => t.rsp == some 0x0000070000 && t.rx == ⟨.done, false, 2, 7, 0, 4, 0x44⟩ && t.bytes 0 7 == fooPacket) =
      true := by decide

/-- V7.42: a source error in BODY. -/
theorem test_rxRecv_sourceError :
    after (one 0x600100000020 (engine [] [.byte 0x24, .byte 0x66, .byte 0x6F, .err 0x7FFD, .byte 0x6F]))
      (fun t => t.rsp == some 0x80FFFD0000 && t.rx == ⟨.body, false, 0, 3, 0, 0, 0⟩ && t.src == [.byte 0x6F]) =
      true := by decide

/-- T1, step 1. -/
theorem test_tokInit_msg :
    after (one 0x700100000011 (engine [])) (fun t => t.rsp == some 0 &&
      t.tok == ⟨true, false, 0, 14, 0, 0, true, 0, 0, true⟩) = true := by decide

/-- R191, R201: a Message of three bytes is too short. -/
theorem test_tokInit_short : rspOf (one 0x700100000003 (engine [])) = some 0xFF000C0000 := by decide

/-- T7, step 2: an escaped delimiter is no split point (`$X},Y,Z#E0`). -/
theorem test_tokAdv_escaped :
    after (one 0x712C00000000
      { engine [0x24, 0x58, 0x7D, 0x2C, 0x59, 0x2C, 0x5A, 0x23, 0x45, 0x30] with
        tok := ⟨true, false, 0, 7, 0, 0, true, 0, 0, true⟩ })
      (fun t => t.rsp == some 0x0000010004 && t.tok == ⟨true, true, 0, 7, 1, 4, true, 0, 0, true⟩) = true := by decide

/-- T13b, step 3: SINGLE on the last byte with the parameter true. -/
theorem test_tokAdv_singleLast :
    after (one 0x710000010000
      { engine [0x24, 0x61, 0x62, 0x23, 0x43, 0x33] with
        params := ⟨256, [], true⟩, tok := ⟨true, true, 0, 3, 1, 1, false, 0, 0, true⟩ })
      (fun t => t.rsp == some 0x0400020001 && t.tok == ⟨true, true, 0, 3, 2, 1, false, 1, 1, false⟩) = true := by decide

/-- T1, step 6. -/
theorem test_tokRewind :
    after (one 0x720000000000 { engine [] with tok := ⟨true, true, 0, 14, 13, 1, false, 4, 8, true⟩ })
      (fun t => t.rsp == some 0 && t.tok == ⟨true, false, 0, 14, 4, 8, true, 4, 8, true⟩) = true := by decide

/-- T6, step 5: only one rewind. -/
theorem test_tokRewind_twice :
    rspOf (one 0x720000000000 { engine [] with tok := ⟨true, false, 0, 1, 1, 0, false, 1, 0, false⟩ }) =
      some 0xFF000A0000 := by decide

theorem test_bufLd : rspOf (one 0x800000000000 (engine [0x41])) = some 0x0000410000 := by decide -- V9.2
theorem test_bufLd_badWindow : rspOf (one 0x800001000000 (engine [])) = some 0xFF00020000 := by decide -- V9.5

/-- V9.3. -/
theorem test_bufSt_last :
    after (one 0x81FF00FF0000 (engine [])) (fun t => t.rsp == some 0 && t.byteAt 255 == 0xFF) = true := by decide

theorem test_csrRd_cap : rspOf (one 0x900100000000 (engine [])) = some 0x0001000000 := by decide -- V9.11
theorem test_csrRd_badCsr : rspOf (one 0x900200000000 (engine [])) = some 0xFF000D0000 := by decide -- V9.29

/-- R226: a later operation is refused with the cause that was recorded. -/
theorem test_latchedFault :
    after (one 0x900200000000 { engine [] with fstat := ⟨true, 10⟩ })
      (fun t => t.rsp == some 0xFF000A0000 && t.fstat == ⟨true, 10⟩) = true := by decide

/-- R260, R261: reset ends an operation that waits and clears the registers. -/
theorem test_reset_event :
    after (step { engine [0x41] with host := [.reset], fstat := ⟨true, 3⟩, busy := some (.wrPush 1) })
      (fun t => t.fstat == ⟨false, 0⟩ && t.busy == none && t.buf == [] && t.host == []) = true := by decide

/-! ## Witnesses: states and operands that meet the hypotheses of the statements

A name is `witness_<statement>`, with the clause behind it where a statement has several. -/

/-- The same engine with this host event to come. -/
def withEvent (e : HostEvent) (s : State) : State := { s with host := [e] }

/-- An engine with a latched fault. -/
def faulted : State := { engine [] with fstat := ⟨true, 13⟩ }

/-- An engine whose receive of a Message into `BUF[0..255]` waits for the source's first byte; the sink would
answer. -/
def receiving : State := { engine [] [] [.done] with busy := some (.rxRecv .msg 0 256) }

/-- An engine whose writer operation `i` waits for a sink that does not answer; the source would answer. -/
def sending (w : Wr) (i : Instr) : State := { engine [] [.byte 0x24] [.silent] with wr := w, busy := some i }

/-- An engine whose `WR.PUSH` waits for a sink that does not answer. -/
def pushing : State := sending (msgWriter 0x24 0) (.wrPush 0x3F)

/-- An engine whose tokenizer stands before the first token of `$Z1,189D67D8,3#E5` (T1), in a domain of 14 bytes. -/
def tokens : State :=
  { engine [0x24, 0x5A, 0x31, 0x2C, 0x31, 0x38, 0x39, 0x44, 0x36, 0x37, 0x44, 0x38, 0x2C, 0x33, 0x23, 0x45, 0x35] with
    tok := Tok.init .msg 0 17 }

theorem witness_DecodeOfEncodeIsTheInstruction :
    (Instr.tokAdv .literal 0x2C).WellFormed ∧ (Instr.tokAdv .toEnd 0).WellFormed ∧ Instr.wrFinish.WellFormed := by
  decide

theorem witness_EncodeOfDecodeIsTheWord : decode 0x60020010FFFF = .ok (.rxRecv .notif 16 65535) := by decide

theorem witness_StepRunsTheDecodedCommand :
    (withEvent (.command 0x204100420002) (engine [])).host = .command 0x204100420002 :: [] ∧
    (withEvent (.command 0x204100420002) (engine [])).busy = none ∧
    decode 0x204100420002 = .ok (.hexDec 0x41 0x42 2) := by decide

theorem witness_ReservedWordRaisesIllegalCommand :
    (withEvent (.command 0x600300000020) (engine [])).host = .command 0x600300000020 :: [] ∧
    (withEvent (.command 0x600300000020) (engine [])).busy = none ∧
    (withEvent (.command 0x600300000020) (engine [])).fstat.fault = false ∧
    legalWord 0x600300000020 = false ∧ legalWord 0x712C00020000 = false ∧ legalWord 0 = false := by decide

theorem witness_IdleEngineDoesNothing : (engine []).host = [] ∧ (engine []).busy = none := by decide

/-- The invariant of the engine of the tests, whatever the transport's answers. -/
theorem engineOk_engine (src : List SrcAnswer) (sink : List SinkAnswer) : EngineOk (engine [] src sink) := by
  refine ⟨by simp [engine, State.resetWith, State.setBytes], rfl, ⟨rfl, rfl, rfl, rfl, rfl⟩, ?_, ?_, ?_, ?_, trivial⟩
  · simp [engine, State.resetWith, State.setBytes, Rx.reset]
  · simp [TokOk, engine, State.resetWith, State.setBytes, Tok.reset]
  · simp [WrOk, engine, State.resetWith, State.setBytes, Wr.reset]
  · simp [BufOk, engine, State.resetWith, State.setBytes, Memory.wf]

theorem witness_UnansweredOperationStaysInFlight_recv :
    EngineOk receiving ∧ receiving.busy = some (.rxRecv .msg 0 256) ∧ (∀ rest, receiving.host ≠ .reset :: rest) ∧
      NoSrcAnswer receiving.src ∧ ¬ ((∃ v, Instr.rxRecv .msg 0 256 = .wrPush v) ∨
        (∃ f, Instr.rxRecv .msg 0 256 = .wrPushAck f) ∨ Instr.rxRecv .msg 0 256 = .wrFinish) := by
  have h := engineOk_engine [] [.done]
  refine ⟨⟨h.params, h.fstat, h.rx, h.rxInBuf, h.tok, h.wr, h.buf, ?_⟩, rfl, by simp [receiving, engine,
    State.resetWith, State.setBytes], .inl rfl, by simp⟩
  refine ⟨rfl, rfl, by decide, by decide, by decide, by decide, by decide, by decide⟩

/-- The invariant of an engine whose writer operation waits, and the other hypotheses but for the operation's own. -/
theorem sending_ok {w : Wr} {i : Instr} (hw : WrOk w) (hb : BusyOk (sending w i)) :
    EngineOk (sending w i) ∧ (∀ rest, (sending w i).host ≠ .reset :: rest) ∧ NoSinkAnswer (sending w i).sink := by
  have h := engineOk_engine [] []
  exact ⟨⟨h.params, h.fstat, h.rx, h.rxInBuf, h.tok, hw, h.buf, hb⟩, by simp [sending, engine, State.resetWith,
    State.setBytes], .inr ⟨[], rfl⟩⟩

theorem witness_UnansweredOperationStaysInFlight_push :
    EngineOk pushing ∧ (∀ rest, pushing.host ≠ .reset :: rest) ∧ NoSinkAnswer pushing.sink ∧
      pushing.busy = some (.wrPush 0x3F) ∧ ¬ ∃ ty base max, Instr.wrPush 0x3F = .rxRecv ty base max :=
  have h := sending_ok (w := msgWriter 0x24 0) (i := .wrPush 0x3F) (by simp [WrOk, msgWriter])
    ⟨rfl, rfl, by decide, trivial⟩
  ⟨h.1, h.2.1, h.2.2, rfl, by simp⟩

theorem witness_UnansweredOperationStaysInFlight_ack :
    let s := sending (ackWriter false) (.wrPushAck true)
    EngineOk s ∧ (∀ rest, s.host ≠ .reset :: rest) ∧ NoSinkAnswer s.sink ∧ s.busy = some (.wrPushAck true) ∧
      ¬ ∃ ty base max, Instr.wrPushAck true = .rxRecv ty base max :=
  have h := sending_ok (w := ackWriter false) (i := .wrPushAck true) (by simp [WrOk, ackWriter])
    ⟨rfl, rfl, by decide, trivial⟩
  ⟨h.1, h.2.1, h.2.2, rfl, by simp⟩

theorem witness_UnansweredOperationStaysInFlight_finish :
    let s := sending trailerWriter .wrFinish
    EngineOk s ∧ (∀ rest, s.host ≠ .reset :: rest) ∧ NoSinkAnswer s.sink ∧ s.busy = some .wrFinish ∧
      ¬ ∃ ty base max, Instr.wrFinish = .rxRecv ty base max :=
  have h := sending_ok (w := trailerWriter) (i := .wrFinish) (by simp [WrOk, trailerWriter])
    ⟨rfl, rfl, by decide, by decide⟩
  ⟨h.1, h.2.1, h.2.2, rfl, by simp⟩

theorem witness_ResetEventClearsEveryRegister : (withEvent .reset faulted).host = .reset :: [] := rfl

theorem witness_ResetKeepsWhatTheTransportDid :
    ((withEvent .reset (engine [])).host = .reset :: [] ∧ (withEvent .reset (engine [])).busy = none) ∧
    ((withEvent .reset receiving).host = .reset :: [] ∧
      (withEvent .reset receiving).busy = some (.rxRecv .msg 0 256)) ∧
    ((withEvent .reset pushing).host = .reset :: [] ∧ (withEvent .reset pushing).busy = some (.wrPush 0x3F)) ∧
    (withEvent .reset { pushing with busy := some .wrFinish }).busy = some .wrFinish ∧
    (withEvent .reset { pushing with busy := some (.wrPushAck true) }).busy = some (.wrPushAck true) :=
  ⟨⟨rfl, rfl⟩, ⟨rfl, rfl⟩, ⟨rfl, rfl⟩, rfl, rfl⟩

theorem witness_LatchedFaultRefusesEveryOperation : faulted.fstat.fault = true := rfl

theorem witness_FaultsArePrecise :
    (engine []).fstat.fault = false ∧ ∃ t, exec (.csrRd 0x02) (engine []) = .next t ∧ t.fstat.fault = true :=
  ⟨rfl, _, rfl, rfl⟩

theorem witness_FirstFailingCheckDecidesTheFault :
    (engine []).fstat.fault = false ∧ firstFault (.tokInit .msg 255 2) (engine []) = some .badWindow ∧
      firstFault (.tokInit .msg 253 3) (engine []) = some .tokShortPacket ∧
      firstFault (.tokInit .msg 252 4) (engine []) = none ∧
      ∃ t, exec (.tokInit .msg 252 4) (engine []) = .next t := by
  refine ⟨rfl, by decide, by decide, by decide, _, rfl⟩

/-- An operation that ends, and one that is left in flight. -/
theorem witness_OperationsEndWithTheirStatuses :
    (engine []).fstat.fault = false ∧ (∃ t, exec .tokRewind (engine []) = .next t) ∧
      ∃ t, exec (.rxRecv .msg 0 2) (engine []) = .next t ∧ Waits t (.rxRecv .msg 0 2) :=
  ⟨rfl, ⟨_, rfl⟩, _, rfl, ⟨rfl, rfl⟩⟩

theorem witness_EveryStepKeepsTheInvariant :
    EngineOk (withEvent (.command 0x814100FF0000) (engine [])) ∧
      ∃ t, step (withEvent (.command 0x814100FF0000) (engine [])) = .next t :=
  have h := engineOk_engine [] []
  ⟨⟨h.params, h.fstat, h.rx, h.rxInBuf, h.tok, h.wr, h.buf, h.busy⟩, _, rfl⟩

theorem witness_ResetMeetsTheInvariant : Params.Legal ⟨65535, [0x2C], true⟩ := by decide

theorem witness_GoodStatesAlwaysHaveANextState : EngineOk (engine []) := engineOk_engine [] []

/-- Windows that end at the last byte, and the empty one behind it (V3.14, V3.15). -/
theorem witness_CsumCalcSumsItsWindow :
    (engine []).fstat.fault = false ∧ (250#16).toNat + (6#16).toNat ≤ (engine []).params.cap.toNat ∧
      (256#16).toNat + (0#16).toNat ≤ (engine []).params.cap.toNat := by decide

theorem witness_HexDecDecodesTwoDigits :
    (engine []).fstat.fault = false ∧
    (2 ≤ (2#16).toNat ∧ IsHexDigit 0x39 9 ∧ IsHexDigit 0x66 15 ∧ IsHexDigit 0x41 10) ∧ (1#16).toNat < 2 ∧
    (¬ ∃ h, IsHexDigit 0x47 h) ∧ ¬ ∃ l, IsHexDigit 0x60 l := by
  refine ⟨rfl, ⟨by decide, by simp [IsHexDigit], by simp [IsHexDigit], by simp [IsHexDigit]⟩, by decide, ?_, ?_⟩ <;>
  · rintro ⟨n, h⟩
    simp [IsHexDigit] at h
    omega

theorem witness_HexEncGivesUpperCaseDigits : (engine []).fstat.fault = false := rfl
theorem witness_HexDecUndoesHexEnc : (engine []).fstat.fault = false := rfl

/-- The bytes at the ends of the printable range and beside them, and an extra one. -/
theorem witness_BinEncEscapesExactlyTheListedBytes :
    (engine []).fstat.fault = false ∧ (0x1F#8).toNat < 0x20 ∧ 0x7E < (0x7F#8).toNat ∧
    (0x2C#8) ∈ (⟨256, [0x2C], false⟩ : Params).escExtra ∧
    (0x20 ≤ (0x20#8).toNat ∧ (0x20#8).toNat ≤ 0x7E ∧ (0x20#8) ≠ 0x23 ∧ (0x20#8) ≠ 0x24 ∧ (0x20#8) ≠ 0x25 ∧
      (0x20#8) ≠ 0x2A ∧ (0x20#8) ≠ 0x7D ∧ (0x20#8) ∉ (engine []).params.escExtra) ∧
    (0x20 ≤ (0x7E#8).toNat ∧ (0x7E#8).toNat ≤ 0x7E ∧ (0x7E#8) ≠ 0x7D) := by decide

theorem witness_BinDecXorsWith20 : (engine []).fstat.fault = false := rfl
theorem witness_BinDecUndoesBinEnc : (engine []).fstat.fault = false := rfl

/-- Both ends of every row. -/
theorem witness_RunEmissionFollowsThePolicyTable :
    (1 ≤ 1 ∧ 1 ≤ 3) ∧ (1 ≤ 3 ∧ 3 ≤ 3) ∧ (4 ≤ 4 ∧ 4 ≤ 6) ∧ (4 ≤ 6 ∧ 6 ≤ 6) ∧ (7 ≤ 7 ∧ 7 ≤ 9) ∧ (7 ≤ 9 ∧ 9 ≤ 9) ∧
    (10 ≤ 10 ∧ 10 ≤ 98) ∧ (10 ≤ 98 ∧ 98 ≤ 98) ∧ 98 < 99 := by decide

theorem witness_RleEncInPlaceEncodesTheRuns :
    (engine []).fstat.fault = false ∧ (0#16).toNat + (256#16).toNat ≤ (engine []).params.cap.toNat := by decide

theorem witness_RleExpandsBack : (0x2A : Byte) ∉ [0x41, 0x41, 0x41, 0x41, 0x42] := by decide

theorem witness_WrInitQueuesTheMarker : (engine []).fstat.fault = false ∧ pushing.fstat.fault = false := ⟨rfl, rfl⟩

theorem witness_WrPushSendsTheHeldBytes :
    let s := { engine [] [] [.done, .silent] with wr := msgWriter 0x24 0 }
    s.fstat.fault = false ∧ s.wr.valid = true ∧ s.wr.finished = false ∧ s.wr.type ≠ .ack ∧ s.wr.trailer = false ∧
      s.sink = List.replicate s.wr.laN.toNat .done ++ [.silent] := by decide

theorem witness_WrPushAckSendsTheAckByte :
    let s := { engine [] [] [.done] with wr := ackWriter false }
    s.fstat.fault = false ∧ s.wr.valid = true ∧ s.wr.finished = false ∧ s.wr.type = .ack ∧ s.wr.ackSent = false ∧
      s.sink = .done :: [] := by decide

theorem witness_WrFinishCompletesThePacket_ack :
    let s := { engine [] with wr := ackWriter true }
    s.fstat.fault = false ∧ s.wr.valid = true ∧ s.wr.finished = false ∧ s.wr.type = .ack ∧ s.wr.ackSent = true := by
  decide

/-- What `WR.FINISH` has to send for the payload `?` (W1). -/
theorem msgQueue : IsFinishQueue (msgWriter 0x3F 0x3F) [0x3F, 0x23, 0x33, 0x46] :=
  .inr ⟨rfl, 0x33, 0x46, by simp [IsUpperHexDigit, msgWriter], by simp [IsUpperHexDigit, msgWriter], rfl⟩

/-- A trailer still to be queued. -/
theorem witness_WrFinishCompletesThePacket_msg :
    let s := { engine [] [] [.done, .done, .done, .done] with wr := msgWriter 0x3F 0x3F }
    s.fstat.fault = false ∧ s.wr.valid = true ∧ s.wr.finished = false ∧ s.wr.type ≠ .ack ∧
      IsFinishQueue s.wr [0x3F, 0x23, 0x33, 0x46] ∧ s.sink = List.replicate 4 .done ++ [] := by
  refine ⟨rfl, rfl, rfl, by decide, msgQueue, rfl⟩

/-- A trailer that an earlier attempt has queued. -/
theorem witness_WrFinishCompletesThePacket_retry :
    let s := { engine [] [] [.done, .done, .done] with wr := trailerWriter }
    s.fstat.fault = false ∧ s.wr.valid = true ∧ s.wr.finished = false ∧ s.wr.type ≠ .ack ∧
      IsFinishQueue s.wr [0x23, 0x33, 0x46] ∧ s.sink = List.replicate 3 .done ++ [] := by
  refine ⟨rfl, rfl, rfl, by decide, .inl ⟨rfl, rfl⟩, rfl⟩

theorem witness_SinkErrorAbortsTheWriter_queue :
    let s := { engine [] [] [.err 0x7FFB] with wr := msgWriter 0x24 0 }
    s.fstat.fault = false ∧ s.wr.valid = true ∧ s.wr.finished = false ∧
      s.sink = List.replicate 0 .done ++ .err 0x7FFB :: [] ∧ s.wr.type ≠ .ack ∧ s.wr.trailer = false ∧
      0 < s.wr.queued.length := by decide

theorem witness_SinkErrorAbortsTheWriter_ack :
    let s := { engine [] [] [.err 0] with wr := ackWriter false }
    s.fstat.fault = false ∧ s.wr.valid = true ∧ s.wr.finished = false ∧
      s.sink = List.replicate 0 .done ++ .err 0 :: [] ∧ s.wr.type = .ack ∧ s.wr.ackSent = false := by decide

theorem witness_SinkErrorAbortsTheWriter_queuedTrailer :
    let s := { engine [] [] [.done, .done, .err 0x7FFF] with wr := trailerWriter }
    s.fstat.fault = false ∧ s.wr.valid = true ∧ s.wr.finished = false ∧
      s.sink = List.replicate 2 .done ++ .err 0x7FFF :: [] ∧ s.wr.type ≠ .ack ∧ 2 < s.wr.queued.length := by decide

/-- The first and the last byte of the trailer that the operation itself queues. -/
theorem witness_SinkErrorAbortsTheWriter_trailer :
    let s := { engine [] [] [.done, .err 1] with wr := msgWriter 0x3F 0x3F }
    let u := { engine [] [] [.done, .done, .done, .err 1] with wr := msgWriter 0x3F 0x3F }
    s.fstat.fault = false ∧ s.wr.valid = true ∧ s.wr.finished = false ∧ s.wr.type ≠ .ack ∧ s.wr.trailer = false ∧
      IsFinishQueue s.wr [0x3F, 0x23, 0x33, 0x46] ∧ s.sink = List.replicate 1 .done ++ .err 1 :: [] ∧
      u.sink = List.replicate 3 .done ++ .err 1 :: [] ∧ s.wr.queued.length ≤ 1 ∧
      3 < [0x3F, 0x23, 0x33, (0x46 : Byte)].length := by
  refine ⟨rfl, rfl, rfl, by decide, rfl, msgQueue, rfl, rfl, by decide,
    by decide⟩

theorem witness_SilentSinkLeavesTheWriterWaiting_queue :
    let s := { engine [] [] [.silent] with wr := msgWriter 0x24 0 }
    s.fstat.fault = false ∧ s.wr.valid = true ∧ s.wr.finished = false ∧ NoSinkAnswer [.silent] ∧
      s.sink = List.replicate 0 .done ++ [.silent] ∧ s.wr.type ≠ .ack ∧ s.wr.trailer = false ∧
      0 < s.wr.queued.length := by
  refine ⟨rfl, rfl, rfl, .inr ⟨[], rfl⟩, rfl, by decide, rfl, by decide⟩

theorem witness_SilentSinkLeavesTheWriterWaiting_ack :
    let s := { engine [] [] [] with wr := ackWriter false }
    s.fstat.fault = false ∧ s.wr.valid = true ∧ s.wr.finished = false ∧ NoSinkAnswer [] ∧
      s.sink = List.replicate 0 .done ++ [] ∧ s.wr.type = .ack ∧ s.wr.ackSent = false := by
  refine ⟨rfl, rfl, rfl, .inl rfl, rfl, rfl, rfl⟩

/-- `WR.FINISH` with a trailer that an earlier attempt has queued: the wait is inside the queue. -/
theorem witness_SilentSinkLeavesTheWriterWaiting_queuedTrailer :
    let s := { engine [] [] [.done, .done] with wr := trailerWriter }
    s.fstat.fault = false ∧ s.wr.valid = true ∧ s.wr.finished = false ∧ NoSinkAnswer [] ∧
      s.sink = List.replicate 2 .done ++ [] ∧ s.wr.type ≠ .ack ∧ 2 < s.wr.queued.length := by
  refine ⟨rfl, rfl, rfl, .inl rfl, rfl, by decide, by decide⟩

theorem witness_SilentSinkLeavesTheWriterWaiting_trailer :
    let s := { engine [] [] [.done] with wr := msgWriter 0x3F 0x3F }
    s.fstat.fault = false ∧ s.wr.valid = true ∧ s.wr.finished = false ∧ NoSinkAnswer [] ∧
      s.sink = List.replicate 1 .done ++ [] ∧ s.wr.type ≠ .ack ∧ s.wr.trailer = false ∧
      IsFinishQueue s.wr [0x3F, 0x23, 0x33, 0x46] ∧ s.wr.queued.length ≤ 1 ∧
      1 < [0x3F, 0x23, 0x33, (0x46 : Byte)].length := by
  refine ⟨rfl, rfl, rfl, .inl rfl, rfl, by decide, rfl, msgQueue, by decide,
    by decide⟩

/-- W11: `WR.FINISH` fails on `#`, then succeeds. -/
theorem witness_RetryLeavesAsIfTheFirstAttemptHadSucceeded_finish :
    let s := { engine [] [] [.done, .err 0, .done, .done, .done] with wr := msgWriter 0x3F 0x3F }
    s.fstat.fault = false ∧ ∃ t u, exec .wrFinish s = .next t ∧ Responds t .transport 0x8000 0 ∧
      exec .wrFinish t = .next u ∧ Responds u .ok 0 0 :=
  ⟨rfl, _, _, rfl, ⟨rfl, rfl⟩, rfl, ⟨rfl, rfl⟩⟩

/-- W9: `WR.PUSH` fails on the marker, then succeeds. -/
theorem witness_RetryLeavesAsIfTheFirstAttemptHadSucceeded_push :
    let s := { engine [] [] [.err 0x7FFB, .done] with wr := msgWriter 0x24 0 }
    s.fstat.fault = false ∧ ∃ t u, exec (.wrPush 0x3F) s = .next t ∧ Responds t .transport 0xFFFB 0 ∧
      exec (.wrPush 0x3F) t = .next u ∧ Responds u .ok 0 0 :=
  ⟨rfl, _, _, rfl, ⟨rfl, rfl⟩, rfl, ⟨rfl, rfl⟩⟩

/-- W14: `WR.PUSHACK` fails, then succeeds. -/
theorem witness_RetryLeavesAsIfTheFirstAttemptHadSucceeded_ack :
    let s := { engine [] [] [.err 0x7FF9, .done] with wr := ackWriter false }
    s.fstat.fault = false ∧ ∃ t u, exec (.wrPushAck true) s = .next t ∧ Responds t .transport 0xFFF9 0 ∧
      exec (.wrPushAck true) t = .next u ∧ Responds u .ok 0 0 :=
  ⟨rfl, _, _, rfl, ⟨rfl, rfl⟩, rfl, ⟨rfl, rfl⟩⟩

theorem witness_WriterPutsThePacketOnTheWire :
    (engine []).fstat.fault = false ∧ IsMarker .msg 0x24 ∧ IsMarker .notif 0x25 ∧
    (engine [] [] (List.replicate 7 .done)).sink = List.replicate ([0x66, 0x6F, (0x6F : Byte)].length + 4) .done ++ [] ∧
    (engine [] [] [.done]).sink = .done :: [] :=
  ⟨rfl, .inl ⟨rfl, rfl⟩, .inr ⟨rfl, rfl⟩, rfl, rfl⟩

theorem witness_AckReplySendsOneByte :
    (engine [] [] [.done]).fstat.fault = false ∧ (engine [] [] [.done]).sink = .done :: [] := ⟨rfl, rfl⟩

/-- Each row of the table is entered by some registers. -/
theorem witness_ReceiverFollowsTheTransitionTable :
    Rx.reset.state = .prefix_ ∧ (⟨.body, true, 0, 2, 0, 0, 0⟩ : Rx).state = .body ∧
    (⟨.body, true, 0, 2, 0, 0, 0⟩ : Rx).esc = true ∧ (⟨.body, false, 0, 1, 0, 0, 0⟩ : Rx).esc = false ∧
    (⟨.suffix, false, 0, 2, 0, 1, 0⟩ : Rx).sfx = 0 ∧ (⟨.suffix, false, 1, 3, 0, 1, 0⟩ : Rx).sfx = 1 := by decide

/-- V7.1, with a budget that the packet just fits and the window at the end of `BUF`. -/
theorem witness_RecvOfAFramedPacketIsValidated :
    let s := engine [] ([0x2B, 0x24, 0x66, 0x6F, 0x6F, 0x23, 0x34, 0x34].map .byte)
    s.fstat.fault = false ∧ (248#16).toNat + (8#16).toNat ≤ s.params.cap.toNat ∧ IsMarker .msg 0x24 ∧
      (0x24 : Byte) ∉ [0x2B] ∧ payloadClean false [0x66, 0x6F, 0x6F] = true ∧
      ([0x2B, 0x24, 0x66, 0x6F, 0x6F, 0x23, 0x34, 0x34] : List Byte) =
        [0x2B] ++ 0x24 :: [0x66, 0x6F, 0x6F] ++ [0x23, 0x34, 0x34] ∧
      ([0x2B, 0x24, 0x66, 0x6F, 0x6F, 0x23, 0x34, 0x34] : List Byte).length ≤ (8#16).toNat ∧
      s.src = ([0x2B, 0x24, 0x66, 0x6F, 0x6F, 0x23, 0x34, 0x34] : List Byte).map .byte ++ [] ∧
      IsHexDigit 0x34 4 ∧ 4 * 16 + 4 = sumMod256 [0x66, 0x6F, 0x6F] := by
  refine ⟨rfl, by decide, .inl ⟨rfl, rfl⟩, by decide, rfl, rfl, by decide, rfl, by simp [IsHexDigit], rfl⟩

/-- The other two outcomes of the validator: a wrong field (V7.2) and a field that is no hex number. -/
theorem witness_RecvOfAFramedPacketIsValidated_digits :
    (IsHexDigit 0x33 3 ∧ IsHexDigit 0x46 15 ∧ 3 * 16 + 15 ≠ sumMod256 [0x66, 0x6F, 0x6F]) ∧
    ¬ ∃ h, IsHexDigit 0x67 h := by
  refine ⟨⟨by simp [IsHexDigit], by simp [IsHexDigit], by decide⟩, ?_⟩
  rintro ⟨n, h⟩
  simp [IsHexDigit] at h
  omega

theorem witness_RecvOfAnAckPacketIsAccepted :
    let s := engine [] [.byte 0x78, .byte 0x2D]
    s.fstat.fault = false ∧ (254#16).toNat + (2#16).toNat ≤ s.params.cap.toNat ∧ (0x2B : Byte) ∉ [0x78] ∧
      (0x2D : Byte) ∉ [0x78] ∧ ([0x78, 0x2D] : List Byte) = [0x78] ++ [0x2D] ∧
      ([0x78, 0x2D] : List Byte).length ≤ (2#16).toNat ∧ s.src = ([0x78, 0x2D] : List Byte).map .byte ++ [] := by
  decide

/-- V7.8: the budget ends one byte short. -/
theorem witness_RecvEndsWhenTheBudgetIsUsedUp :
    let s := engine [] [.byte 0x24, .byte 0x23, .byte 0x30, .byte 0x30]
    s.fstat.fault = false ∧ (0#16).toNat + (3#16).toNat ≤ s.params.cap.toNat ∧
      ([0x24, 0x23, 0x30] : List Byte).length = (3#16).toNat ∧
      (rxAfter .msg [0x24, 0x23, 0x30]).state ≠ .done ∧
      s.src = ([0x24, 0x23, 0x30] : List Byte).map .byte ++ [.byte 0x30] := by decide

/-- V7.46: the most negative code. -/
theorem witness_RecvEndsWithTheSourcesError :
    let s := engine [] [.byte 0x24, .err 0]
    s.fstat.fault = false ∧ (0#16).toNat + (2#16).toNat ≤ s.params.cap.toNat ∧
      ([0x24] : List Byte).length < (2#16).toNat ∧ (rxAfter .msg [0x24]).state ≠ .done ∧
      s.src = ([0x24] : List Byte).map .byte ++ .err 0 :: [] := by decide

theorem witness_RecvWaitsForASilentSource :
    let s := engine [] [.byte 0x24, .silent]
    s.fstat.fault = false ∧ (0#16).toNat + (2#16).toNat ≤ s.params.cap.toNat ∧
      ([0x24] : List Byte).length < (2#16).toNat ∧ (rxAfter .msg [0x24]).state ≠ .done ∧
      NoSrcAnswer [.silent] ∧ s.src = ([0x24] : List Byte).map .byte ++ [.silent] := by
  refine ⟨rfl, by decide, by decide, by decide, .inr ⟨[], rfl⟩, rfl⟩

theorem witness_WaitingOperationGoesOnWhereItStopped_recv :
    let s := engine [] [.byte 0x24]
    s.fstat.fault = false ∧ (0#16).toNat + (2#16).toNat ≤ s.params.cap.toNat ∧
      ([0x24] : List Byte).length < (2#16).toNat ∧ (rxAfter .msg [0x24]).state ≠ .done ∧
      (∀ rest, s.host ≠ .reset :: rest) ∧ s.src = ([0x24] : List Byte).map .byte ∧
      ∃ t, exec (.rxRecv .msg 0 2) s = .next t := by
  refine ⟨rfl, by decide, by decide, by decide, by simp [engine, State.resetWith, State.setBytes], rfl, _, rfl⟩

theorem witness_WaitingOperationGoesOnWhereItStopped_push :
    let s := { engine [] with wr := msgWriter 0x24 0 }
    s.fstat.fault = false ∧ (∀ rest, s.host ≠ .reset :: rest) ∧ s.sink = List.replicate 0 .done ∧
      ∃ t, exec (.wrPush 0x3F) s = .next t ∧ Waits t (.wrPush 0x3F) := by
  refine ⟨rfl, by simp [engine, State.resetWith, State.setBytes], rfl, _, rfl, rfl, rfl⟩

theorem witness_WaitingOperationGoesOnWhereItStopped_ack :
    let s := { engine [] with wr := ackWriter false }
    s.fstat.fault = false ∧ (∀ rest, s.host ≠ .reset :: rest) ∧ s.sink = List.replicate 0 .done ∧
      ∃ t, exec (.wrPushAck true) s = .next t ∧ Waits t (.wrPushAck true) := by
  refine ⟨rfl, by simp [engine, State.resetWith, State.setBytes], rfl, _, rfl, rfl, rfl⟩

/-- `WR.FINISH` that waits before its last trailer byte. -/
theorem witness_WaitingOperationGoesOnWhereItStopped_finish :
    let s := { engine [] [] [.done, .done, .done] with wr := msgWriter 0x3F 0x3F }
    s.fstat.fault = false ∧ (∀ rest, s.host ≠ .reset :: rest) ∧ s.sink = List.replicate 3 .done ∧
      ∃ t, exec .wrFinish s = .next t ∧ Waits t .wrFinish := by
  refine ⟨rfl, by simp [engine, State.resetWith, State.setBytes], rfl, _, rfl, rfl, rfl⟩

theorem witness_WhatTheWriterSendsTheReceiverAccepts :
    let s := engine [] [] (List.replicate 7 .done)
    s.fstat.fault = false ∧ PacketType.msg ≠ .ack ∧ payloadClean false [0x66, 0x7D, 0x23] = true ∧
      (249#16).toNat + (7#16).toNat ≤ s.params.cap.toNat ∧
      ([0x66, 0x7D, 0x23] : List Byte).length + 4 ≤ (7#16).toNat ∧
      s.sink = List.replicate (([0x66, 0x7D, 0x23] : List Byte).length + 4) .done ++ [] := by decide

theorem witness_TokInitPlacesTheCursor :
    (engine []).fstat.fault = false ∧ (252#16).toNat + (4#16).toNat ≤ (engine []).params.cap.toNat ∧
      4 ≤ (4#16).toNat ∧ PacketType.notif ≠ .ack ∧
      (256#16).toNat + (0#16).toNat ≤ (engine []).params.cap.toNat := by decide

theorem tokOk_tokens : TokOk tokens.params tokens.tok := by
  simp [TokOk, tokens, engine, State.resetWith, Tok.init, skipLen, State.setBytes, State.setByte]

/-- Both a delimiter that is found and one that is not. -/
theorem witness_TokAdvSplitsAtTheFirstUnescapedDelimiter :
    tokens.fstat.fault = false ∧ tokens.tok.valid = true ∧ TokOk tokens.params tokens.tok ∧ (0x2C : Byte) ≠ 0x7D ∧
      1 = tokens.tok.curStart.toNat + tokens.tok.curLen.toNat + (if tokens.tok.skip = true then 1 else 0) ∧
      1 + 13 = tokens.tok.domEnd.toNat ∧ 0 < 13 ∧
      ([0x5A, 0x31], true) = untilDelim 0x2C false (tokens.bytes (tokens.tok.base.toNat + 1) 13) ∧
      (tokens.bytes 1 13, false) = untilDelim 0x3B false (tokens.bytes (tokens.tok.base.toNat + 1) 13) :=
  ⟨rfl, rfl, tokOk_tokens, by decide, by decide, by decide, by decide, by decide, by decide⟩

theorem witness_TokAdvTakesOneByteOrTheRest :
    tokens.fstat.fault = false ∧ tokens.tok.valid = true ∧ TokOk tokens.params tokens.tok ∧
      1 = tokens.tok.curStart.toNat + tokens.tok.curLen.toNat + (if tokens.tok.skip = true then 1 else 0) ∧
      1 + 13 = tokens.tok.domEnd.toNat ∧ 0 < 13 :=
  ⟨rfl, rfl, tokOk_tokens, by decide, by decide, by decide⟩

/-- T1 before its last step. -/
theorem witness_TokAdvAtTheDomainsEnd :
    let s := { tokens with tok := ⟨true, true, 0, 14, 13, 1, false, 4, 8, true⟩ }
    s.fstat.fault = false ∧ s.tok.valid = true ∧ TokOk s.params s.tok ∧ (Instr.tokAdv .toEnd 0).WellFormed ∧
      ¬ (DelimMode.toEnd = .literal ∧ (0 : Byte) = 0x7D) ∧
      s.tok.curStart.toNat + s.tok.curLen.toNat + (if s.tok.skip = true then 1 else 0) = s.tok.domEnd.toNat := by
  refine ⟨rfl, rfl, ?_, by decide, by decide, by decide⟩
  simp [TokOk, tokens, engine, State.resetWith, skipLen, State.setBytes, State.setByte]

theorem witness_TokRewindRestoresThePreviousTriple :
    let s := { engine [] with tok := ⟨true, true, 0, 14, 13, 1, false, 4, 8, true⟩ }
    s.fstat.fault = false ∧ s.tok.valid = true ∧ s.tok.armed = true := by decide

theorem witness_AdvanceAfterRewindGivesTheSameToken :
    tokens.fstat.fault = false ∧ ∃ t, exec (.tokAdv .literal 0x2C) tokens = .next t ∧ t.fstat.fault = false :=
  ⟨rfl, _, rfl, rfl⟩

/-- The last byte of `BUF`. -/
theorem witness_BufLdReturnsTheByte :
    (engine []).fstat.fault = false ∧ (255#16).toNat < (engine []).params.cap.toNat := by decide

theorem witness_BufStWritesOneByte :
    (engine []).fstat.fault = false ∧ (255#16).toNat < (engine []).params.cap.toNat := by decide

/-- Registers of each unit, none of them 0. -/
theorem witness_CsrRdReturnsTheListedRegisters :
    let s := { engine [] with
      rx := ⟨.suffix, false, 1, 6, 0, 4, 0⟩, tok := ⟨true, true, 0, 14, 13, 1, true, 4, 8, true⟩, wr := trailerWriter }
    s.fstat.fault = false ∧ FstatOk s.fstat ∧
      10 = rxStateNumber s.rx.state + 4 * s.rx.esc.toNat + 8 * s.rx.sfx.toNat ∧
      15 = s.tok.valid.toNat + 2 * s.tok.armed.toNat + 4 * s.tok.skip.toNat + 8 * s.tok.prevSkip.toNat ∧
      0xE3 = s.wr.valid.toNat + 2 * packetTypeNumber s.wr.type + 8 * s.wr.finished.toNat +
        16 * s.wr.ackSent.toNat + 32 * s.wr.trailer.toNat + 64 * s.wr.laN.toNat ∧
      0x3323 = (s.wr.queued.getD 0 0).toNat + 256 * (s.wr.queued.getD 1 0).toNat ∧
      0x46 = (s.wr.queued.getD 2 0).toNat ∧ (engine []).params.cap.toNat = 256 :=
  ⟨rfl, rfl, rfl, rfl, rfl, rfl, rfl, rfl⟩

end Sys2Proof.Machine.Tests
end

/-! # The invariant of the engine, the reset and the readable registers

Every operation is shown once to answer a next state that satisfies the invariant (`EndsOk`); that a next state exists
and that it keeps the invariant are the two halves of that. -/

namespace Sys2Proof.Machine

/-! ## The invariant without the operation in flight -/

/-- The clauses of `EngineOk` about the parameters, the registers and the memory. An operation is executed from a state
that satisfies these, whether it is issued or goes on after a wait. -/
structure UnitsOk (s : State) : Prop where
  params : s.params.Legal
  fstat : FstatOk s.fstat
  rx : RxOk s.rx
  rxInBuf : s.rx.n.toNat ≤ s.params.cap.toNat
  tok : TokOk s.params s.tok
  wr : WrOk s.wr
  buf : BufOk s.params s.buf

theorem engineOk_iff (s : State) : EngineOk s ↔ UnitsOk s ∧ BusyOk s :=
  ⟨fun ⟨hp, hf, hr, hn, ht, hw, hb, hi⟩ => ⟨⟨hp, hf, hr, hn, ht, hw, hb⟩, hi⟩,
    fun ⟨⟨hp, hf, hr, hn, ht, hw, hb⟩, hi⟩ => ⟨hp, hf, hr, hn, ht, hw, hb, hi⟩⟩

theorem EngineOk.unitsOk {s : State} (h : EngineOk s) : UnitsOk s := ((engineOk_iff s).mp h).1

theorem busyOk_of_idle {s : State} (hb : s.busy = none) : BusyOk s := by
  simp [BusyOk, hb]

theorem UnitsOk.engineOk_of_idle {s : State} (h : UnitsOk s) (hb : s.busy = none) : EngineOk s :=
  (engineOk_iff s).mpr ⟨h, busyOk_of_idle hb⟩

namespace UnitsOk

variable {s : State}

/-! ### Updates of one unit -/

theorem setRx (h : UnitsOk s) {r : Rx} (hr : RxOk r) (hn : r.n.toNat ≤ s.params.cap.toNat) :
    UnitsOk { s with rx := r } :=
  ⟨h.params, h.fstat, hr, hn, h.tok, h.wr, h.buf⟩

theorem setTok (h : UnitsOk s) {t : Tok} (ht : TokOk s.params t) : UnitsOk { s with tok := t } :=
  ⟨h.params, h.fstat, h.rx, h.rxInBuf, ht, h.wr, h.buf⟩

theorem setWr (h : UnitsOk s) {w : Wr} (hw : WrOk w) : UnitsOk { s with wr := w } :=
  ⟨h.params, h.fstat, h.rx, h.rxInBuf, h.tok, hw, h.buf⟩

theorem setBuf (h : UnitsOk s) {m : Memory} (hm : BufOk s.params m) : UnitsOk { s with buf := m } :=
  ⟨h.params, h.fstat, h.rx, h.rxInBuf, h.tok, h.wr, hm⟩

theorem setSrc (h : UnitsOk s) (l : List SrcAnswer) : UnitsOk { s with src := l } :=
  ⟨h.params, h.fstat, h.rx, h.rxInBuf, h.tok, h.wr, h.buf⟩

theorem setHost (h : UnitsOk s) (l : List HostEvent) : UnitsOk { s with host := l } :=
  ⟨h.params, h.fstat, h.rx, h.rxInBuf, h.tok, h.wr, h.buf⟩

theorem setSink (h : UnitsOk s) (l : List SinkAnswer) (sent : List Byte) :
    UnitsOk { s with sink := l, sent := sent } :=
  ⟨h.params, h.fstat, h.rx, h.rxInBuf, h.tok, h.wr, h.buf⟩

/-- Handing over bytes changes the writer's registers and the sink's side alone, so the writer's registers decide. -/
theorem setFlushedWr (h : UnitsOk s) {j : Nat} {rest : List SinkAnswer} {w : Wr} (hw : WrOk w) :
    UnitsOk { s.flushed j rest with wr := w } :=
  ⟨h.params, h.fstat, h.rx, h.rxInBuf, h.tok, hw, h.buf⟩

theorem setByte (h : UnitsOk s) {a : Nat} (ha : a < s.params.cap.toNat) (v : Byte) : UnitsOk (s.setByte a v) :=
  h.setBuf (h.buf.write ha v)

theorem setBytes (h : UnitsOk s) {a : Nat} {xs : List Byte} (ha : a + xs.length ≤ s.params.cap.toNat) :
    UnitsOk (s.setBytes a xs) := by
  rw [State.setBytes_eq]
  exact h.setBuf (State.bufOk_setBytes s a xs h.buf ha)

/-! ### The ways an operation ends -/

theorem answer (h : UnitsOk s) (st : Status) (r0 r1 : Idx) : EngineOk (s.answer st r0 r1) :=
  engineOk_of_idle ⟨h.params, h.fstat, h.rx, h.rxInBuf, h.tok, h.wr, h.buf⟩ rfl

theorem wait (h : UnitsOk s) {i : Instr} (hi : BusyOk (s.wait i)) : EngineOk (s.wait i) :=
  (engineOk_iff _).mpr ⟨⟨h.params, h.fstat, h.rx, h.rxInBuf, h.tok, h.wr, h.buf⟩, hi⟩

theorem refuse (h : UnitsOk s) : EngineOk s.refuse := h.answer .fault _ 0

end UnitsOk

/-- The causes are numbered from 1 to 13 (R227). -/
theorem fstatOk_of_cause (c : Cause) : FstatOk ⟨true, c.code⟩ := by
  have hc : 1 ≤ c.code.toNat ∧ c.code.toNat ≤ 13 := by cases c <;> decide
  simpa [FstatOk] using hc

theorem UnitsOk.raise {s : State} (h : UnitsOk s) (c : Cause) : EngineOk (s.raise c) :=
  engineOk_of_idle ⟨h.params, fstatOk_of_cause c, h.rx, h.rxInBuf, h.tok, h.wr, h.buf⟩ rfl

/-! ## Outcomes that keep the invariant -/

/-- The outcome is a next state that satisfies the invariant. -/
def EndsOk (r : Result) : Prop := ∃ t, r = .next t ∧ EngineOk t

theorem EndsOk.next {t : State} (h : EngineOk t) : EndsOk (.next t) := ⟨t, rfl, h⟩

/-- A latched fault only refuses, so an operation's own meaning matters without one (R226). -/
theorem EndsOk.unlessFaulted {s : State} {k : Result} (h : UnitsOk s) (hk : s.fstat.fault = false → EndsOk k) :
    EndsOk (unlessFaulted s k) := by
  cases hf : s.fstat.fault with
  | true => rw [unlessFaulted_faulted hf]; exact .next h.refuse
  | false => rw [unlessFaulted_clear hf]; exact hk hf

/-- A check that fails only raises its cause, so what follows may use that it passes (R229). -/
theorem EndsOk.check {ok : Bool} {c : Cause} {s : State} {k : Result} (h : UnitsOk s) (hk : ok = true → EndsOk k) :
    EndsOk (check ok c s k) := by
  cases ok with
  | true => exact hk rfl
  | false => exact .next (h.raise c)

end Sys2Proof.Machine

/-! # The run-length encoder -/

namespace Sys2Proof.Machine

theorem State.sameBytes_le (s : State) (v : Byte) (a n : Nat) : s.sameBytes v a n ≤ n := by
  induction n generalizing a with
  | zero => exact le_rfl
  | succ n ih =>
    rw [State.sameBytes]
    split
    · have := ih (a + 1)
      omega
    · omega

theorem rleShort_length_le (v : Byte) (n : Nat) : (rleShort v n).length ≤ n := by
  rw [rleShort_eq]
  split
  · simp
  · split
    · rw [rleEntry_length]; omega
    · split
      · rw [List.length_append, rleEntry_length, List.length_replicate]; omega
      · rw [rleEntry_length]; omega

/-- An emission is no longer than its run (R131), which is why the encoder can work in place (R133). -/
theorem rleRun_length_le (k : Nat) (v : Byte) (n : Nat) : (rleRun k v n).length ≤ n := by
  induction k generalizing n with
  | zero => exact rleShort_length_le v n
  | succ k ih =>
    rw [rleRun_succ]
    split
    · have := ih (n - 98)
      rw [List.length_append, rleEntry_length]
      omega
    · exact rleShort_length_le v n

theorem State.setBytes_params (s : State) (a : Nat) (xs : List Byte) : (s.setBytes a xs).params = s.params := by
  rw [State.setBytes_eq]

/-- The write index never overtakes the read index, so every write of the encoder lies in its window (R133). -/
theorem UnitsOk.rleLoop {base len : Nat} (fuel : Nat) {s : State} {r w : Nat} (h : UnitsOk s)
    (hwin : base + len ≤ s.params.cap.toNat) (hw : w ≤ r) (hr : r ≤ len) :
    UnitsOk (State.rleLoop base len fuel s r w).1 := by
  induction fuel generalizing s r w with
  | zero => exact h
  | succ k ih =>
    rw [State.rleLoop_succ]
    split
    · next hlt =>
      have hrun := s.sameBytes_le (s.byteAt (base + r)) (base + r + 1) (len - r - 1)
      generalize s.byteAt (base + r) = v at *
      generalize s.sameBytes v (base + r + 1) (len - r - 1) = n at *
      have hout := rleRun_length_le (1 + n) v (1 + n)
      refine ih (h.setBytes (by omega)) ?_ (by omega) (by omega)
      rwa [State.setBytes_params]
    · exact h

theorem execRleEnc_endsOk {s : State} (h : UnitsOk s) (base len : Idx) : EndsOk (execRleEnc base len s) :=
  .unlessFaulted h fun _ => .check h fun hwin =>
    .next ((h.rleLoop len.toNat ((windowLegal_iff _ _ _).mp hwin) le_rfl (Nat.zero_le _)).answer _ _ _)

end Sys2Proof.Machine

/-! # The tokenizer -/

namespace Sys2Proof.Machine

/-- R17 once `TOK.INIT` has run. -/
theorem tokOk_of_valid {p : Params} {t : Tok} (hv : t.valid = true) :
    TokOk p t ↔
      t.curStart.toNat + t.curLen.toNat + skipLen t.skip ≤ t.domEnd.toNat ∧
      t.prevStart.toNat + t.prevLen.toNat + skipLen t.prevSkip ≤ t.domEnd.toNat ∧
      t.base.toNat + t.domEnd.toNat ≤ p.cap.toNat := by
  rw [TokOk, if_pos hv]

/-- The cursor before the first token lies in the domain, which `TOK.INIT` makes at least one byte long where the
packet has a marker (R190). -/
theorem tokOk_init {p : Params} {t : PacketType} {base len : Idx} (hwin : base.toNat + len.toNat ≤ p.cap.toNat)
    (hlen : t = .ack ∨ 4 ≤ len.toNat) : TokOk p (Tok.init t base len) := by
  rw [tokOk_of_valid rfl]
  by_cases ht : t = .ack
  · subst ht
    simpa [Tok.init, skipLen] using hwin
  · have h4 := hlen.resolve_left ht
    simp [Tok.init, skipLen, ht]
    omega

/-- A new triple that ends in the domain keeps R17; the old one becomes the previous triple (R193). -/
theorem TokOk.setCur {p : Params} {t : Tok} (h : TokOk p t) (hv : t.valid = true) {start stop : Nat} {found : Bool}
    (hle : start ≤ stop) (hstop : stop + skipLen found ≤ t.domEnd.toNat) :
    TokOk p (t.save.setCur start stop found) := by
  obtain ⟨hcur, -, hdom⟩ := (tokOk_of_valid hv).mp h
  have hend := t.domEnd.isLt
  refine (tokOk_of_valid (t := t.save.setCur start stop found) hv).mpr ⟨?_, hcur, hdom⟩
  simp only [Tok.setCur, Tok.save, BitVec.toNat_ofNat]
  omega

theorem TokOk.rewind {p : Params} {t : Tok} (h : TokOk p t) (hv : t.valid = true) : TokOk p t.rewind := by
  obtain ⟨-, hprev, hdom⟩ := (tokOk_of_valid hv).mp h
  exact (tokOk_of_valid (t := t.rewind) hv).mpr ⟨hprev, hprev, hdom⟩

/-- An advance ends with a triple inside the domain, at its end (R199) or before it (R195 to R197). -/
theorem UnitsOk.advance {s : State} (h : UnitsOk s) (hv : s.tok.valid = true) (m : DelimMode) (d : Byte) :
    EngineOk (s.advance m d) := by
  have hp : s.tok.scanStart ≤ s.tok.domEnd.toNat := ((tokOk_of_valid hv).mp h.tok).1
  have hend : s.tok.scanStart + skipLen false ≤ s.tok.domEnd.toNat := hp
  rw [State.advance]
  split
  · exact (h.setTok (h.tok.setCur hv le_rfl hend)).answer _ _ _
  · next hne =>
    obtain ⟨hle, hstop⟩ := s.tokenEnd_bounds m d _ (lt_of_le_of_ne hp hne)
    exact (h.setTok (h.tok.setCur hv hle hstop)).answer _ _ _

theorem execTokInit_endsOk {s : State} (h : UnitsOk s) (t : PacketType) (base len : Idx) :
    EndsOk (execTokInit t base len s) :=
  .unlessFaulted h fun _ => .check h fun hwin => .check h fun hlen =>
    .next ((h.setTok (tokOk_init ((windowLegal_iff _ _ _).mp hwin) (by simpa using hlen))).answer _ _ _)

theorem execTokAdv_endsOk {s : State} (h : UnitsOk s) (m : DelimMode) (d : Byte) : EndsOk (execTokAdv m d s) :=
  .unlessFaulted h fun _ => .check h fun _ => .check h fun hv => .check h fun _ => by
    rw [if_pos (h.tok.cursorInside hv)]
    exact .next (h.advance hv m d)

theorem execTokRewind_endsOk {s : State} (h : UnitsOk s) : EndsOk (execTokRewind s) :=
  .unlessFaulted h fun _ => .check h fun hv => .check h fun _ =>
    .next ((h.setTok (h.tok.rewind hv)).answer _ _ _)

end Sys2Proof.Machine

/-! # The receiver -/

namespace Sys2Proof.Machine

/-! ## The rows of R185 -/

section
variable {r : Rx} {t : PacketType} {x : Byte}

theorem Rx.take_prefix_of_marker (hs : r.state = .prefix_) (hm : matchesMarker t x = true) :
    r.take t x = { r with n := r.n + 1, mark := r.n, state := if t = .ack then .done else .body } := by
  simp [Rx.take, hs, hm]

theorem Rx.take_prefix_of_garbage (hs : r.state = .prefix_) (hm : matchesMarker t x = false) :
    r.take t x = { r with n := r.n + 1 } := by
  simp [Rx.take, hs, hm]

theorem escAfter_of_unescapedIs_hash {esc : Bool} (h : unescapedIs chHash esc x = true) : escAfter esc x = false := by
  cases esc with
  | true => rfl
  | false =>
    rw [unescapedIs_false] at h
    rw [escAfter_false]
    exact (Bool.not_eq_true' _).mp (Bool.and_eq_true_iff.mp h).1

theorem Rx.take_body_of_hash (hs : r.state = .body) (hu : unescapedIs chHash r.esc x = true) :
    r.take t x = { r with n := r.n + 1, esc := false, hash := r.n, state := .suffix } := by
  simp [Rx.take, hs, hu, escAfter_of_unescapedIs_hash hu]

theorem Rx.take_body_of_other (hs : r.state = .body) (hu : unescapedIs chHash r.esc x = false) :
    r.take t x = { r with n := r.n + 1, esc := escAfter r.esc x } := by
  simp [Rx.take, hs, hu]

theorem Rx.take_suffix (hs : r.state = .suffix) :
    r.take t x =
      { r with n := r.n + 1, sfx := r.sfx + 1, state := if r.sfx + 1 = 2 then .done else .suffix } := by
  simp [Rx.take, hs]

/-! ## The consistency of the registers, state by state -/

theorem rxOk_of_prefix (hs : r.state = .prefix_) :
    RxOk r ↔ r.esc = false ∧ r.sfx = 0 ∧ r.mark = 0 ∧ r.hash = 0 ∧ r.csum = 0 := by
  rw [RxOk, hs]

theorem rxOk_of_body (hs : r.state = .body) :
    RxOk r ↔ r.sfx = 0 ∧ r.mark.toNat < r.n.toNat ∧ r.hash = 0 ∧ r.csum = 0 := by
  rw [RxOk, hs]

theorem rxOk_of_suffix (hs : r.state = .suffix) :
    RxOk r ↔ r.esc = false ∧ r.sfx.toNat < 2 ∧ r.mark.toNat < r.hash.toNat ∧
      r.n.toNat = r.hash.toNat + 1 + r.sfx.toNat ∧ r.csum = 0 := by
  rw [RxOk, hs]

theorem rxOk_of_done (hs : r.state = .done) :
    RxOk r ↔ r.esc = false ∧
      ((r.sfx = 0 ∧ r.hash = 0 ∧ r.n.toNat = r.mark.toNat + 1 ∧ r.csum = 0) ∨
       (r.sfx = 2 ∧ r.mark.toNat < r.hash.toNat ∧ r.n.toNat = r.hash.toNat + 3)) := by
  rw [RxOk, hs]

end

/-! ## The registers during a receive -/

/-- The registers during a receive of type `t` with budget `max` (R171 to R177, R183): an Ack packet has no body, and
any other type reaches DONE with both checksum digits taken. -/
structure Rx.Receiving (t : PacketType) (max : Idx) (r : Rx) : Prop where
  ok : RxOk r
  budget : r.n.toNat ≤ max.toNat
  ack : t = .ack → r.state = .prefix_ ∨ r.state = .done
  framed : t ≠ .ack → r.state = .done → r.sfx = 2

theorem Rx.receiving_reset (t : PacketType) (max : Idx) : Rx.Receiving t max Rx.reset :=
  ⟨⟨rfl, rfl, rfl, rfl, rfl⟩, Nat.zero_le _, fun _ => .inl rfl, fun _ h => by cases h⟩

/-- A byte taken below the budget keeps the registers consistent, whichever state takes it (R174 to R177). -/
theorem Rx.Receiving.take {t : PacketType} {max : Idx} {r : Rx} (h : r.Receiving t max) (hd : r.state ≠ .done)
    (hn : r.n ≠ max) (x : Byte) : (r.take t x).Receiving t max := by
  have hlt : r.n.toNat < max.toNat := lt_of_le_of_ne h.budget fun e => hn (BitVec.eq_of_toNat_eq e)
  have hmax := max.isLt
  have hsucc : (r.n + 1).toNat = r.n.toNat + 1 := by
    rw [BitVec.toNat_add, show (1 : Idx).toNat = 1 from rfl]
    omega
  have hbudget : (r.n + 1).toNat ≤ max.toNat := by omega
  cases hs : r.state with
  | prefix_ =>
    obtain ⟨hesc, hsfx, hmark, hhash, hcsum⟩ := (rxOk_of_prefix hs).mp h.ok
    by_cases hm : matchesMarker t x = true
    · rw [Rx.take_prefix_of_marker hs hm]
      by_cases ht : t = .ack
      · have hdone : (if t = .ack then RxState.done else .body) = .done := if_pos ht
        exact ⟨Iff.mpr (rxOk_of_done hdone) ⟨hesc, .inl ⟨hsfx, hhash, hsucc, hcsum⟩⟩, hbudget, fun _ => .inr hdone,
          fun hne => absurd ht hne⟩
      · have hbody : (if t = .ack then RxState.done else .body) = .body := if_neg ht
        exact ⟨Iff.mpr (rxOk_of_body hbody) ⟨hsfx, by dsimp only; omega, hhash, hcsum⟩, hbudget, fun he => absurd he ht,
          fun _ hdone => by rw [hbody] at hdone; cases hdone⟩
    · rw [Rx.take_prefix_of_garbage hs (Bool.eq_false_iff.mpr hm)]
      exact ⟨Iff.mpr (rxOk_of_prefix hs) ⟨hesc, hsfx, hmark, hhash, hcsum⟩, hbudget, fun _ => .inl hs,
        fun _ hdone => absurd hdone hd⟩
  | body =>
    obtain ⟨hsfx, hmark, hhash, hcsum⟩ := (rxOk_of_body hs).mp h.ok
    have hgrown : r.mark.toNat < (r.n + 1).toNat := by omega
    have ht : t ≠ .ack := fun e => by simpa [hs] using h.ack e
    by_cases hu : unescapedIs chHash r.esc x = true
    · rw [Rx.take_body_of_hash hs hu]
      refine ⟨Iff.mpr (rxOk_of_suffix rfl) ⟨rfl, ?_, hmark, ?_, hcsum⟩, hbudget, fun e => absurd e ht,
        fun _ hdone => by cases hdone⟩
      · rw [hsfx]; decide
      · rw [hsfx]; exact hsucc
    · rw [Rx.take_body_of_other hs (Bool.eq_false_iff.mpr hu)]
      exact ⟨Iff.mpr (rxOk_of_body hs) ⟨hsfx, hgrown, hhash, hcsum⟩, hbudget, fun e => absurd e ht,
        fun _ hdone => absurd hdone hd⟩
  | suffix =>
    obtain ⟨hesc, hsfx, hmark, hcount, hcsum⟩ := (rxOk_of_suffix hs).mp h.ok
    have ht : t ≠ .ack := fun e => by simpa [hs] using h.ack e
    rw [Rx.take_suffix hs]
    by_cases h2 : r.sfx + 1 = 2
    · have hold : r.sfx.toNat = 1 := by bv_omega
      have hdone : (if r.sfx + 1 = 2 then RxState.done else .suffix) = .done := if_pos h2
      exact ⟨Iff.mpr (rxOk_of_done hdone) ⟨hesc, .inr ⟨h2, hmark, by dsimp only; omega⟩⟩, hbudget, fun e => absurd e ht,
        fun _ _ => h2⟩
    · have hold : r.sfx.toNat = 0 := by bv_omega
      have hnew : (r.sfx + 1).toNat = 1 := by bv_omega
      have hsuffix : (if r.sfx + 1 = 2 then RxState.done else .suffix) = .suffix := if_neg h2
      exact ⟨Iff.mpr (rxOk_of_suffix hsuffix) ⟨hesc, by dsimp only; omega, hmark, by dsimp only; omega, hcsum⟩, hbudget,
        fun e => absurd e ht, fun _ hdone => by rw [hsuffix] at hdone; cases hdone⟩
  | done => exact absurd hs hd

/-! ## The loop of R183 -/

/-- The state in which the loop of a receive runs: no latched fault, a legal window, the registers of a receive. -/
structure State.Receives (s : State) (t : PacketType) (base max : Idx) : Prop where
  units : UnitsOk s
  clear : s.fstat.fault = false
  window : base.toNat + max.toNat ≤ s.params.cap.toNat
  rx : s.rx.Receiving t max

section
variable {s : State} {t : PacketType} {base max : Idx}

/-- A byte taken below the budget is stored inside the window (R174). -/
theorem State.Receives.recvByte (h : s.Receives t base max) (hd : s.rx.state ≠ .done) (hn : s.rx.n ≠ max) (x : Byte) :
    (s.recvByte t base.toNat x).Receives t base max := by
  have hlt : s.rx.n.toNat < max.toNat := lt_of_le_of_ne h.rx.budget fun e => hn (BitVec.eq_of_toNat_eq e)
  have hwin := h.window
  have hrx := h.rx.take hd hn x
  have hbudget := hrx.budget
  have hstored : UnitsOk (s.setByte (base.toNat + s.rx.n.toNat) x) := h.units.setByte (by omega) x
  exact ⟨hstored.setRx hrx.ok (by rw [State.setByte_params]; omega), h.clear, hwin, hrx⟩

/-- The validator writes `RX.csum`, which is free once both digits of a framed packet are taken (R179). -/
theorem State.Receives.finish (h : s.Receives t base max) (hd : s.rx.state = .done) (b : Nat) :
    EngineOk (s.recvFinish t b) := by
  obtain ⟨-, e⟩ | ⟨ht, st, r0, r1, -, e⟩ := s.recvFinish_cases t b
  · rw [e]
    exact h.units.answer _ _ _
  · rw [e]
    obtain ⟨hesc, ⟨hsfx, -⟩ | hframed⟩ := (rxOk_of_done hd).mp h.rx.ok
    · rw [h.rx.framed ht hd] at hsfx
      cases hsfx
    · have hrx : RxOk { s.rx with csum := csum (s.rxPayload b) } := Iff.mpr (rxOk_of_done hd) ⟨hesc, .inr hframed⟩
      exact (h.units.setRx hrx h.units.rxInBuf).answer _ _ _

/-- A receive that waits has its checks passed and its budget not used up (R172, R272). -/
theorem State.Receives.wait (h : s.Receives t base max) (hd : s.rx.state ≠ .done) (hn : s.rx.n ≠ max) :
    EngineOk (s.wait (.rxRecv t base max)) :=
  h.units.wait ⟨rfl, h.clear, if_neg (not_lt.mpr h.window), h.window, h.rx.budget, hn, hd,
    fun ht => (h.rx.ack ht).resolve_right hd⟩

theorem State.Receives.setSrc (h : s.Receives t base max) (l : List SrcAnswer) :
    { s with src := l }.Receives t base max :=
  ⟨h.units.setSrc l, h.clear, h.window, h.rx⟩

/-- DONE and a budget used up end the receive before any request is made (R172, R183). -/
theorem State.Receives.recvLoop_of_ended (h : s.Receives t base max) (l : List SrcAnswer)
    (hend : s.rx.state = .done ∨ s.rx.n = max) : EngineOk (State.recvLoop t base max l s) := by
  by_cases hd : s.rx.state = .done
  · rw [State.recvLoop_done _ _ _ _ _ hd]
    exact (h.setSrc l).finish hd _
  · rw [State.recvLoop_full _ _ _ _ _ hd (hend.resolve_left hd)]
    exact (h.setSrc l).units.answer _ _ _

/-- Wherever the loop stops, the invariant holds. -/
theorem State.Receives.recvLoop (h : s.Receives t base max) (l : List SrcAnswer) :
    EngineOk (State.recvLoop t base max l s) := by
  induction l generalizing s with
  | nil =>
    by_cases hend : s.rx.state = .done ∨ s.rx.n = max
    · exact h.recvLoop_of_ended _ hend
    obtain ⟨hd, hn⟩ := not_or.mp hend
    rw [State.recvLoop_silent _ _ _ _ _ hd hn (.inl rfl)]
    exact (h.setSrc _).wait hd hn
  | cons a l ih =>
    by_cases hend : s.rx.state = .done ∨ s.rx.n = max
    · exact h.recvLoop_of_ended _ hend
    obtain ⟨hd, hn⟩ := not_or.mp hend
    cases a with
    | byte x =>
      rw [State.recvLoop_byte _ _ _ _ _ _ hd hn]
      exact ih (h.recvByte hd hn x)
    | err low =>
      rw [State.recvLoop_err _ _ _ _ _ _ hd hn]
      exact (h.setSrc _).units.answer _ _ _
    | silent =>
      rw [State.recvLoop_silent _ _ _ _ _ hd hn (.inr ⟨l, rfl⟩)]
      exact (h.setSrc _).wait hd hn

end

theorem execRxRecv_endsOk {s : State} (h : UnitsOk s) (t : PacketType) (base max : Idx) :
    EndsOk (execRxRecv t base max s) :=
  .unlessFaulted h fun hf => .check h fun hwin =>
    have hrx := Rx.receiving_reset t max
    have hs : State.Receives { s with rx := Rx.reset } t base max :=
      ⟨h.setRx hrx.ok (Nat.zero_le _), hf, (windowLegal_iff _ _ _).mp hwin, hrx⟩
    .next (hs.recvLoop s.src)

/-- What the invariant says of a receive in flight is what its loop needs to go on (R51, R272). -/
theorem continueRxRecv_endsOk {s : State} {t : PacketType} {base max : Idx} (h : EngineOk s)
    (hb : s.busy = some (.rxRecv t base max)) : EndsOk (continueRxRecv t base max s) := by
  have hbusy := h.busy
  rw [BusyOk, hb] at hbusy
  obtain ⟨-, hf, -, hwin, hle, -, hd, hack⟩ := hbusy
  have hs : s.Receives t base max :=
    ⟨h.unitsOk, hf, hwin, h.rx, hle, fun e => .inl (hack e), fun _ e => absurd e hd⟩
  rw [continueRxRecv, if_pos (by simpa [windowLegal_iff] using ⟨hwin, hle⟩)]
  exact .next (hs.recvLoop s.src)

end Sys2Proof.Machine

/-! # The writer -/

namespace Sys2Proof.Machine

section
variable {w : Wr}

theorem wrOk_of_ack (hv : w.valid = true) (ht : w.type = .ack) :
    WrOk w ↔ w.laN = 0 ∧ w.trailer = false ∧ w.csum = 0 ∧ (w.finished = true → w.ackSent = true) := by
  rw [WrOk, if_pos hv, if_pos ht]

theorem wrOk_of_trailer (hv : w.valid = true) (ht : w.type ≠ .ack) (htr : w.trailer = true) :
    WrOk w ↔ w.ackSent = false ∧ (w.finished = true ↔ w.laN = 0) := by
  rw [WrOk, if_pos hv, if_neg ht, if_pos htr]

theorem wrOk_of_payload (hv : w.valid = true) (ht : w.type ≠ .ack) (htr : w.trailer = false) :
    WrOk w ↔ w.ackSent = false ∧ w.laN = 1 ∧ w.finished = false := by
  rw [WrOk, if_pos hv, if_neg ht, if_neg (by simp [htr])]

end

/-- `WR.INIT` leaves consistent registers whatever they were before (R151). -/
theorem wrOk_init (w : Wr) (t : PacketType) : WrOk (w.init t) := by
  cases t with
  | ack => exact ⟨rfl, rfl, rfl, fun h => by cases h⟩
  | msg => exact ⟨rfl, rfl, rfl⟩
  | notif => exact ⟨rfl, rfl, rfl⟩

/-- The registers with a Message or Notification in progress, but for the lookahead buffer: what `WR.PUSH` and
`WR.FINISH` start from once their checks have passed (R159). -/
structure Wr.InProgress (w : Wr) : Prop where
  valid : w.valid = true
  packet : w.type ≠ .ack
  unfinished : w.finished = false
  ackSent : w.ackSent = false

theorem WrOk.inProgress {w : Wr} (h : WrOk w) (hv : w.valid = true) (ht : w.type ≠ .ack) (hf : w.finished = false) :
    w.InProgress := by
  refine ⟨hv, ht, hf, ?_⟩
  cases htr : w.trailer with
  | true => exact ((wrOk_of_trailer hv ht htr).mp h).1
  | false => exact ((wrOk_of_payload hv ht htr).mp h).1

namespace Wr.InProgress

variable {w v : Wr}

/-- Sending queued bytes keeps the packet in progress. -/
theorem of_keeps (h : w.InProgress) (k : KeepsWrProgress w v) : v.InProgress :=
  ⟨k.valid.trans h.valid, k.type ▸ h.packet, k.finished.trans h.unfinished, k.ackSent.trans h.ackSent⟩

/-- A queued trailer is never empty before the packet is complete (R155). -/
theorem wrOk_iff_of_trailer (h : w.InProgress) (htr : w.trailer = true) : WrOk w ↔ w.laN ≠ 0 := by
  rw [wrOk_of_trailer h.valid h.packet htr]
  simp [h.ackSent, h.unfinished]

/-- Exactly one byte is held back before the trailer is queued (R150). -/
theorem wrOk_iff_of_payload (h : w.InProgress) (htr : w.trailer = false) : WrOk w ↔ w.laN = 1 := by
  rw [wrOk_of_payload h.valid h.packet htr]
  simp [h.ackSent, h.unfinished]

/-- Where the sink stops a flush, what is left in the queue fits the packet's progress (R157). -/
theorem wrOk_shiftN (h : w.InProgress) (hw : WrOk w) {j : Nat} (hj : j < w.laN.toNat) : WrOk (w.shiftN j) := by
  obtain ⟨hkeeps, htrailer⟩ := w.shiftN_keeps j
  cases htr : w.trailer with
  | true =>
    rw [(h.of_keeps hkeeps).wrOk_iff_of_trailer (htrailer.trans htr)]
    intro hempty
    have hleft := w.shiftN_laN j hj.le
    rw [hempty, show (0 : BitVec 2).toNat = 0 from rfl] at hleft
    omega
  | false =>
    rw [(h.wrOk_iff_of_payload htr).mp hw, show (1 : BitVec 2).toNat = 1 from rfl] at hj
    obtain rfl : j = 0 := by omega
    exact hw

theorem queueTrailer (h : w.InProgress) : w.queueTrailer.InProgress :=
  ⟨h.valid, h.packet, h.unfinished, h.ackSent⟩

theorem wrOk_queueTrailer (h : w.InProgress) : WrOk w.queueTrailer :=
  (h.queueTrailer.wrOk_iff_of_trailer rfl).mpr (by decide : (3 : BitVec 2) ≠ 0)

theorem accept (h : w.InProgress) (x : Byte) : (w.accept x).InProgress :=
  ⟨h.valid, h.packet, h.unfinished, h.ackSent⟩

theorem wrOk_accept (h : w.InProgress) (htr : w.trailer = false) (x : Byte) : WrOk (w.accept x) :=
  ((h.accept x).wrOk_iff_of_payload htr).mpr rfl

/-- The packet is complete once its trailer has left the queue (R155). -/
theorem wrOk_finish (h : w.InProgress) (htr : w.trailer = true) (hla : w.laN = 0) : WrOk w.finish :=
  Iff.mpr (wrOk_of_trailer h.valid h.packet htr) ⟨h.ackSent, fun _ => hla, fun _ => rfl⟩

end Wr.InProgress

/-! ## Writer operations that wait -/

section
variable {s : State}

theorem wrFault_eq_none {w : Wr} (hv : w.valid = true) (hf : w.finished = false) : wrFault w = none := by
  simp [wrFault, hv, hf]

theorem busyOk_wait_wrPush (hc : s.fstat.fault = false) (hp : s.wr.InProgress) (htr : s.wr.trailer = false)
    (v : Byte) : BusyOk (s.wait (.wrPush v)) := by
  refine ⟨rfl, hc, ?_, trivial⟩
  simp [firstFault, wrFault_eq_none hp.valid hp.unfinished, hp.packet, htr]

theorem busyOk_wait_wrFinish (hc : s.fstat.fault = false) (hp : s.wr.InProgress) : BusyOk (s.wait .wrFinish) := by
  refine ⟨rfl, hc, ?_, hp.packet⟩
  simp [firstFault, wrFault_eq_none hp.valid hp.unfinished, hp.packet]

theorem busyOk_wait_wrPushAck (hc : s.fstat.fault = false) (hv : s.wr.valid = true) (hf : s.wr.finished = false)
    (ht : s.wr.type = .ack) (ha : s.wr.ackSent = false) (f : Bool) : BusyOk (s.wait (.wrPushAck f)) := by
  refine ⟨rfl, hc, ?_, trivial⟩
  simp [firstFault, wrFault_eq_none hv hf, ht, ha]

/-! ## The sink requests of an operation -/

/-- An operation that begins with a flush: what it must do itself is to wait with its checks passed and to go on with
an empty queue (R152, R157, R272). -/
theorem UnitsOk.afterFlush {i : Instr} {k : State → State} (h : UnitsOk s) (hp : s.wr.InProgress)
    (hwait : ∀ j rest, BusyOk ((s.flushed j rest).wait i))
    (hgo : ∀ rest, EngineOk (k (s.flushed s.wr.laN.toNat rest))) : EngineOk (afterSends i s.flush k) := by
  have hstopped : ∀ j rest, j < s.wr.laN.toNat → UnitsOk (s.flushed j rest) := fun j rest hj =>
    h.setFlushedWr (rest := rest) (hp.wrOk_shiftN h.wr hj)
  rw [State.flush]
  obtain ⟨rest, -, e⟩ | ⟨j, low, rest, hj, -, e⟩ | ⟨j, rest, hj, -, -, e⟩ := s.flushN_cases s.wr.laN.toNat
  · rw [e, afterSends_done]
    exact hgo rest
  · rw [e, afterSends_err]
    exact (hstopped j rest hj).answer _ _ _
  · rw [e, afterSends_blocked]
    exact (hstopped j rest hj).wait (hwait j rest)

theorem State.flushed_inProgress (hp : s.wr.InProgress) (j : Nat) (rest : List SinkAnswer) :
    (s.flushed j rest).wr.InProgress :=
  hp.of_keeps (s.wr.shiftN_keeps j).1

/-- The trailer's flush completes the packet or leaves it in progress (R155). -/
theorem UnitsOk.finishTrailer (h : UnitsOk s) (hc : s.fstat.fault = false) (hp : s.wr.InProgress)
    (htr : s.wr.trailer = true) : EngineOk s.finishTrailer :=
  h.afterFlush hp (fun j rest => busyOk_wait_wrFinish hc (State.flushed_inProgress hp j rest)) fun rest => by
    obtain ⟨hkeeps, htrailer⟩ := s.wr.shiftN_keeps s.wr.laN.toNat
    have hempty : (s.wr.shiftN s.wr.laN.toNat).laN = 0 :=
      BitVec.eq_of_toNat_eq ((s.wr.shiftN_laN _ le_rfl).trans (Nat.sub_self _))
    exact (h.setFlushedWr ((hp.of_keeps hkeeps).wrOk_finish (htrailer.trans htr) hempty)).answer _ _ _

theorem execWrInit_endsOk (h : UnitsOk s) (t : PacketType) : EndsOk (execWrInit t s) :=
  .unlessFaulted h fun _ => .next ((h.setWr (wrOk_init s.wr t)).answer _ _ _)

theorem execWrPush_endsOk (h : UnitsOk s) (v : Byte) : EndsOk (execWrPush v s) :=
  .unlessFaulted h fun hc => .check h fun hv => .check h fun hf => .check h fun ht => .check h fun htr => by
    rw [Bool.not_eq_true'] at hf htr
    have hp := h.wr.inProgress hv (bne_iff_ne.mp ht) hf
    have htrailer : ∀ j, (s.wr.shiftN j).trailer = false := fun j => (s.wr.shiftN_keeps j).2.trans htr
    exact .next <| h.afterFlush hp
      (fun j rest => busyOk_wait_wrPush (s := s.flushed j rest) hc (State.flushed_inProgress hp j rest) (htrailer j) v)
      fun rest => (h.setFlushedWr ((State.flushed_inProgress hp _ rest).wrOk_accept (htrailer _) v)).answer _ _ _

theorem execWrPushAck_endsOk (h : UnitsOk s) (f : Bool) : EndsOk (execWrPushAck f s) :=
  .unlessFaulted h fun hc => .check h fun hv => .check h fun hf => .check h fun ht => .check h fun ha => by
    rw [Bool.not_eq_true'] at hf ha
    rw [beq_iff_eq] at ht
    obtain ⟨hla, htr, hcsum, -⟩ := (wrOk_of_ack hv ht).mp h.wr
    have hsent : WrOk { s.wr with ackSent := true } := Iff.mpr (wrOk_of_ack hv ht) ⟨hla, htr, hcsum, fun _ => rfl⟩
    obtain ⟨rest, -, e⟩ | ⟨low, rest, -, e⟩ | ⟨-, e⟩ := s.sinkSend_cases (ackByte f)
    · rw [e, afterSends_done]
      exact .next (((h.setSink rest _).setWr hsent).answer _ _ _)
    · rw [e, afterSends_err]
      exact .next ((h.setSink rest s.sent).answer _ _ _)
    · rw [e, afterSends_blocked]
      exact .next (h.wait (busyOk_wait_wrPushAck hc hv hf ht ha f))

theorem execWrFinish_endsOk (h : UnitsOk s) : EndsOk (execWrFinish s) :=
  .unlessFaulted h fun hc => .check h fun hv => .check h fun hf => by
    rw [Bool.not_eq_true'] at hf
    split
    · next ht =>
      obtain ⟨hla, htr, hcsum, -⟩ := (wrOk_of_ack hv ht).mp h.wr
      refine .check h fun ha => ?_
      have hfin : WrOk s.wr.finish := Iff.mpr (wrOk_of_ack hv ht) ⟨hla, htr, hcsum, fun _ => ha⟩
      exact .next ((h.setWr hfin).answer _ _ _)
    · next ht =>
      have hp := h.wr.inProgress hv ht hf
      split
      · next htr => exact .next (h.finishTrailer hc hp htr)
      · exact .next <| h.afterFlush hp
          (fun j rest => busyOk_wait_wrFinish hc (State.flushed_inProgress hp j rest)) fun rest =>
            have hq := State.flushed_inProgress hp s.wr.laN.toNat rest
            (h.setFlushedWr hq.wrOk_queueTrailer).finishTrailer hc hq.queueTrailer rfl

end

end Sys2Proof.Machine

/-! # Every operation and every step -/

namespace Sys2Proof.Machine

section
variable {s : State}

/-- The register behind a listed number is returned and nothing changes (R212). -/
theorem execCsrRd_of_csr {num : Byte} {v : Idx} (hf : s.fstat.fault = false) (hv : s.csr num = some v) :
    execCsrRd num s = .next (s.answer .ok v 0) := by
  rw [execCsrRd, unlessFaulted_clear hf, hv]

theorem execCsrRd_endsOk (h : UnitsOk s) (num : Byte) : EndsOk (execCsrRd num s) :=
  .unlessFaulted h fun _ => by
    cases s.csr num with
    | some v => exact .next (h.answer _ _ _)
    | none => exact .next (h.raise .badCsr)

theorem execHexDec_endsOk (h : UnitsOk s) (c0 c1 : Byte) (avail : Idx) : EndsOk (execHexDec c0 c1 avail s) :=
  .unlessFaulted h fun _ => by
    split
    · exact .next (h.answer _ _ _)
    · cases hexPair c0 c1 with
      | none => exact .next (h.answer _ _ _)
      | some v => exact .next (h.answer _ _ _)

theorem execBufSt_endsOk (h : UnitsOk s) (idx : Idx) (v : Byte) : EndsOk (execBufSt idx v s) :=
  .unlessFaulted h fun _ => .check h fun hidx =>
    .next ((h.setByte ((indexLegal_iff _ _).mp hidx) v).answer _ _ _)

/-- Executing any operation keeps the invariant; those without a lemma of their own answer without writing a register
or `BUF`. -/
theorem exec_endsOk (h : UnitsOk s) (i : Instr) : EndsOk (exec i s) := by
  cases i with
  | csumCalc base len => exact .unlessFaulted h fun _ => .check h fun _ => .next (h.answer _ _ _)
  | hexDec c0 c1 avail => exact execHexDec_endsOk h c0 c1 avail
  | hexEnc v => exact .unlessFaulted h fun _ => .next (h.answer _ _ _)
  | binEnc v => exact .unlessFaulted h fun _ => .next (h.answer _ _ _)
  | binDec e => exact .unlessFaulted h fun _ => .next (h.answer _ _ _)
  | rleEnc base len => exact execRleEnc_endsOk h base len
  | wrInit t => exact execWrInit_endsOk h t
  | wrPush v => exact execWrPush_endsOk h v
  | wrPushAck f => exact execWrPushAck_endsOk h f
  | wrFinish => exact execWrFinish_endsOk h
  | rxRecv t base max => exact execRxRecv_endsOk h t base max
  | tokInit t base len => exact execTokInit_endsOk h t base len
  | tokAdv m d => exact execTokAdv_endsOk h m d
  | tokRewind => exact execTokRewind_endsOk h
  | bufLd idx => exact .unlessFaulted h fun _ => .check h fun _ => .next (h.answer _ _ _)
  | bufSt idx v => exact execBufSt_endsOk h idx v
  | csrRd num => exact execCsrRd_endsOk h num

/-- A command word is executed, or refused as a reserved one (R74). -/
theorem runCommand_endsOk (h : UnitsOk s) (w : CmdWord) : EndsOk (runCommand w s) := by
  rw [runCommand]
  cases decode w with
  | ok i => exact exec_endsOk h i
  | error e => exact .unlessFaulted h fun _ => .next (h.raise .illegalCommand)

theorem resume_eq_exec {i : Instr} (hi : ∀ t base max, i ≠ .rxRecv t base max) : resume i s = exec i s := by
  cases i with
  | rxRecv t base max => exact absurd rfl (hi t base max)
  | _ => rfl

/-- A receive in flight goes on with its loop; any other operation runs again (R51, R52). -/
theorem resume_endsOk (h : EngineOk s) {i : Instr} (hb : s.busy = some i) : EndsOk (resume i s) := by
  by_cases hi : ∃ t base max, i = .rxRecv t base max
  · obtain ⟨t, base, max, rfl⟩ := hi
    exact continueRxRecv_endsOk h hb
  · rw [resume_eq_exec fun t base max e => hi ⟨t, base, max, e⟩]
    exact exec_endsOk h.unitsOk i

/-! ## Reset -/

theorem tokOk_reset (p : Params) : TokOk p Tok.reset := by
  simp [TokOk, Tok.reset]

theorem wrOk_reset : WrOk Wr.reset := by
  simp [WrOk, Wr.reset]

/-- All registers 0 and no byte of `BUF` written: the units are consistent for every legal value of the parameters. -/
theorem engineOk_resetWith {p : Params} (hp : p.Legal) : EngineOk (State.resetWith p) :=
  ⟨hp, rfl, (Rx.receiving_reset .ack 0).ok, Nat.zero_le _, tokOk_reset p, wrOk_reset, ⟨rfl, fun _ h => by cases h⟩,
    trivial⟩

/-- What reset leaves is the state after the first reset but for the number of resets, the host and the transport
(R260, R261). -/
theorem engineOk_afterReset (hp : s.params.Legal) : EngineOk s.afterReset :=
  have h := engineOk_resetWith hp
  ⟨h.params, h.fstat, h.rx, h.rxInBuf, h.tok, h.wr, h.buf, trivial⟩

/-! ## The step -/

/-- From every state that satisfies the invariant, a step gives a next state that satisfies it. -/
theorem step_endsOk (h : EngineOk s) : EndsOk (step s) := by
  obtain ⟨rest, -, e⟩ | ⟨i, hb, -, e⟩ | ⟨w, rest, -, -, e⟩ | ⟨-, -, e⟩ := step_cases (r := step s) rfl
  · rw [e]
    exact .next (engineOk_afterReset (s := s.afterEvent) h.params)
  · rw [e]
    exact resume_endsOk h hb
  · rw [e]
    exact runCommand_endsOk (h.unitsOk.setHost rest) w
  · rw [e]
    exact .next h

end

/-- Settles O17: the step's outcome is the next state that `step_endsOk` shows to satisfy the invariant. -/
theorem everyStepKeepsTheInvariant : Obligations.EveryStepKeepsTheInvariant := by
  intro s t h hstep
  obtain ⟨u, hu, hok⟩ := step_endsOk h
  rw [hstep] at hu
  cases hu
  exact hok

/-- Settles O19: the other half of `step_endsOk`. -/
theorem goodStatesAlwaysHaveANextState : Obligations.GoodStatesAlwaysHaveANextState := by
  intro s h
  obtain ⟨t, ht, -⟩ := step_endsOk h
  exact ⟨t, ht⟩

/-- Settles O18. -/
theorem resetMeetsTheInvariant : Obligations.ResetMeetsTheInvariant :=
  ⟨fun _ hp => engineOk_resetWith hp, engineOk_resetWith (by decide)⟩

/-- Settles O9: a pending reset is taken first, and what it leaves is `State.afterReset`, in which no byte of `BUF` is
listed as written. -/
theorem resetEventClearsEveryRegister : Obligations.ResetEventClearsEveryRegister := by
  intro s rest hhost
  have hrest : s.afterEvent.afterReset.host = rest := congrArg List.tail hhost
  exact ⟨_, step_reset hhost, rfl, rfl, rfl, rfl, fun _ => rfl, rfl, rfl, hrest, rfl⟩

/-- Settles O11: the reset values of the four units are written out in the model (R261). -/
theorem registersAreZeroAfterReset : Obligations.RegistersAreZeroAfterReset :=
  fun _ => ⟨rfl, rfl, rfl, rfl⟩

end Sys2Proof.Machine

/-! # The readable registers -/

namespace Sys2Proof.Machine

/-! ## The packed words as numbers (R22) -/

theorem fstatWord_of_clear {f : Fstat} (hf : f.fault = false) (hok : FstatOk f) : (fstatWord f).toNat = 0 := by
  rw [FstatOk, if_neg (by simp [hf])] at hok
  rw [fstatWord, hok, hf]
  rfl

theorem RxState.code_toNat (r : RxState) : r.code.toNat = rxStateNumber r := by
  cases r <;> rfl

theorem wrTypeCode_toNat (t : PacketType) : (wrTypeCode t).toNat = packetTypeNumber t := by
  cases t <;> rfl

theorem byteField_toNat (b : Byte) : (byteField b).toNat = b.toNat :=
  BitVec.toNat_setWidth_of_le (by decide)

theorem rxStateWord_toNat (r : Rx) :
    (rxStateWord r).toNat = rxStateNumber r.state + 4 * r.esc.toNat + 8 * r.sfx.toNat := by
  simp only [rxStateWord, append_toNat, ofBool_toNat, RxState.code_toNat, BitVec.toNat_ofNat]
  omega

theorem tokCtlWord_toNat (t : Tok) :
    (tokCtlWord t).toNat = t.valid.toNat + 2 * t.armed.toNat + 4 * t.skip.toNat + 8 * t.prevSkip.toNat := by
  simp only [tokCtlWord, append_toNat, ofBool_toNat, BitVec.toNat_ofNat]
  omega

theorem wrCtlWord_toNat (w : Wr) :
    (wrCtlWord w).toNat = w.valid.toNat + 2 * packetTypeNumber w.type + 8 * w.finished.toNat +
      16 * w.ackSent.toNat + 32 * w.trailer.toNat + 64 * w.laN.toNat := by
  simp only [wrCtlWord, append_toNat, ofBool_toNat, wrTypeCode_toNat, BitVec.toNat_ofNat]
  omega

/-- What a slot reads is the queued byte in its place, 0 where there is none (R22, R212). -/
theorem Wr.queued_getD (w : Wr) (k : Nat) : w.queued.getD k 0 = laRead w k ([w.la0, w.la1, w.la2].getD k 0) := by
  rw [Wr.queued, laRead, List.getD_eq_getElem?_getD, List.getElem?_take, List.getD_eq_getElem?_getD]
  split <;> rfl

theorem wrLa01Word_toNat (w : Wr) :
    (wrLa01Word w).toNat = (w.queued.getD 0 0).toNat + 256 * (w.queued.getD 1 0).toNat := by
  rw [Wr.queued_getD, Wr.queued_getD, wrLa01Word, append_toNat, Nat.mul_comm, Nat.add_comm]
  rfl

theorem wrLa2Word_toNat (w : Wr) : (wrLa2Word w).toNat = (w.queued.getD 2 0).toNat := by
  rw [Wr.queued_getD, wrLa2Word, byteField_toNat]
  rfl

theorem eq_ofNat_of_toNat {w : Idx} {v : Nat} (h : w.toNat = v) : w = BitVec.ofNat 16 v := by
  rw [← h, BitVec.ofNat_toNat, BitVec.setWidth_eq]

/-- Settles O60: each listed number has its register (`State.csr`), whose packed value is the sum of R22. -/
theorem csrRdReturnsTheListedRegisters : Obligations.CsrRdReturnsTheListedRegisters := by
  intro s num v hclear hfstat hlisted
  have hcsr : ∃ w, s.csr num = some w ∧ w.toNat = v := by
    obtain ⟨rfl, rfl⟩ | ⟨rfl, rfl⟩ | ⟨rfl, rfl⟩ | ⟨rfl, rfl⟩ | ⟨rfl, rfl⟩ | ⟨rfl, rfl⟩ | ⟨rfl, rfl⟩ | ⟨rfl, rfl⟩ |
      ⟨rfl, rfl⟩ | ⟨rfl, rfl⟩ | ⟨rfl, rfl⟩ | ⟨rfl, rfl⟩ | ⟨rfl, rfl⟩ | ⟨rfl, rfl⟩ | ⟨rfl, rfl⟩ | ⟨rfl, rfl⟩ |
      ⟨rfl, rfl⟩ | ⟨rfl, rfl⟩ := hlisted
    · exact ⟨fstatWord s.fstat, rfl, fstatWord_of_clear hclear hfstat⟩
    · exact ⟨s.params.cap, rfl, rfl⟩
    · exact ⟨rxStateWord s.rx, rfl, rxStateWord_toNat s.rx⟩
    · exact ⟨s.rx.n, rfl, rfl⟩
    · exact ⟨s.rx.mark, rfl, rfl⟩
    · exact ⟨s.rx.hash, rfl, rfl⟩
    · exact ⟨byteField s.rx.csum, rfl, byteField_toNat s.rx.csum⟩
    · exact ⟨tokCtlWord s.tok, rfl, tokCtlWord_toNat s.tok⟩
    · exact ⟨s.tok.base, rfl, rfl⟩
    · exact ⟨s.tok.domEnd, rfl, rfl⟩
    · exact ⟨s.tok.curStart, rfl, rfl⟩
    · exact ⟨s.tok.curLen, rfl, rfl⟩
    · exact ⟨s.tok.prevStart, rfl, rfl⟩
    · exact ⟨s.tok.prevLen, rfl, rfl⟩
    · exact ⟨wrCtlWord s.wr, rfl, wrCtlWord_toNat s.wr⟩
    · exact ⟨byteField s.wr.csum, rfl, byteField_toNat s.wr.csum⟩
    · exact ⟨wrLa01Word s.wr, rfl, wrLa01Word_toNat s.wr⟩
    · exact ⟨wrLa2Word s.wr, rfl, wrLa2Word_toNat s.wr⟩
  obtain ⟨w, hw, hv⟩ := hcsr
  rw [← eq_ofNat_of_toNat hv]
  exact ⟨_, execCsrRd_of_csr hclear hw, s.onlyResponds_answer .ok w 0⟩

end Sys2Proof.Machine

/-! # Commands -/

namespace Sys2Proof.Machine

/-- Settles O5: with no operation in flight the step takes the command, and a word that decodes is executed. -/
theorem stepRunsTheDecodedCommand : Obligations.StepRunsTheDecodedCommand := by
  intro s w rest i hhost hbusy hdecode
  rw [step_command hhost hbusy, runCommand, hdecode]

end Sys2Proof.Machine

/-! # A receive that waits

What a receive has stored does not depend on when the source gave the bytes, and its loop looks neither at the response
nor at the operation in flight: so the loop, run again from where it stopped, is the rest of the loop. -/

namespace Sys2Proof.Machine

section
variable {s : State} {t : PacketType} {base max : Idx} {xs : List Byte}

/-! ## The bytes a receive has taken -/

/-- The state of a receive that has stored and taken the bytes `xs` from its start (R171, R174). -/
def State.received (s : State) (t : PacketType) (base : Nat) (xs : List Byte) : State :=
  { s with rx := Rx.reset }.taken t base xs

theorem State.received_rx (s : State) (t : PacketType) (base : Nat) (xs : List Byte) :
    (s.received t base xs).rx = rxAfter t xs :=
  State.taken_rx ..

/-- As long as the count fits, it is the number of bytes taken (R174). -/
theorem rxAfter_n_toNat (t : PacketType) (h : xs.length < 65536) : (rxAfter t xs).n.toNat = xs.length := by
  have hreset : Rx.reset.n.toNat = 0 := rfl
  rw [rxAfter, foldl_take_n_toNat _ _ _ (by omega), hreset, Nat.zero_add]

/-- Fewer bytes than the budget do not use it up (R172). -/
theorem rxAfter_n_ne (t : PacketType) (h : xs.length < max.toNat) : (rxAfter t xs).n ≠ max := by
  intro e
  have hmax := max.isLt
  have hn := rxAfter_n_toNat t (xs := xs) (by omega)
  rw [e] at hn
  omega

/-- Where some bytes do not end in DONE, no initial part of them does. -/
theorem rxAfter_not_done_of_append {ys zs : List Byte} (h : (rxAfter t (ys ++ zs)).state ≠ .done) :
    (rxAfter t ys).state ≠ .done :=
  foldl_take_not_done _ _ ys zs h

/-- The bytes taken lie in order from the base of the window on (R55, R174). -/
theorem State.byteAt_received (s : State) (t : PacketType) (base : Nat) (h : xs.length < 65536) (a : Nat) :
    (s.received t base xs).byteAt a = (State.setBytes { s with rx := Rx.reset } base xs).byteAt a := by
  have hreset : Rx.reset.n.toNat = 0 := rfl
  exact State.byteAt_taken { s with rx := Rx.reset } t base xs (by dsimp only; omega) a

theorem State.bytes_received (s : State) (t : PacketType) (base : Nat) (h : xs.length < 65536) :
    (s.received t base xs).bytes base xs.length = xs := by
  rw [State.bytes_congr _ _ _ _ fun a _ _ => s.byteAt_received t base h a, State.bytes_setBytes]

/-- Storing bytes changes the receiver's registers and the bytes of the window they go to (R174). -/
theorem State.received_keeps (s : State) (t : PacketType) (base : Nat) (h : xs.length < 65536) :
    KeepsAllButRx s (s.received t base xs) base xs.length := by
  have houtside : ∀ a, a < base ∨ base + xs.length ≤ a →
      (s.received t base xs).byteAt a = s.byteAt a := fun a ha => by
    rw [s.byteAt_received t base h, State.byteAt_setBytes_outside _ _ _ _ ha]
    rfl
  rw [State.received, State.taken_eq, ← State.received] at houtside ⊢
  exact ⟨⟨rfl, rfl, rfl⟩, rfl, rfl, rfl, rfl, rfl, houtside⟩

/-- Which answers the source has left does not matter to the bytes taken. -/
theorem State.received_setSrc (s : State) (t : PacketType) (base : Nat) (xs : List Byte) (l : List SrcAnswer) :
    State.received { s with src := l } t base xs = { s.received t base xs with src := l } := by
  unfold State.received
  generalize Rx.reset = r
  induction xs generalizing s r with
  | nil => rfl
  | cons x xs ih => exact ih (s := State.recvByte t base x { s with rx := r }) (r := r.take t x)

/-- A receive whose first answers are bytes that neither reach DONE nor exceed the budget goes on behind them (R183). -/
theorem exec_rxRecv_of_bytes {rest : List SrcAnswer} (hf : s.fstat.fault = false)
    (hwin : base.toNat + max.toNat ≤ s.params.cap.toNat) (hlen : xs.length ≤ max.toNat)
    (hopen : (rxAfter t xs).state ≠ .done) (hsrc : s.src = xs.map .byte ++ rest) :
    exec (.rxRecv t base max) s = .next (State.recvLoop t base max rest (s.received t base.toNat xs)) := by
  have hgo : ∀ ys zs, xs = ys ++ zs → zs ≠ [] →
      (s.received t base.toNat ys).rx.state ≠ .done ∧
        (s.received t base.toNat ys).rx.n ≠ max := fun ys zs e hz => by
    have hpos := List.length_pos_of_ne_nil hz
    rw [e] at hopen hlen
    rw [List.length_append] at hlen
    rw [State.received_rx]
    exact ⟨rxAfter_not_done_of_append hopen, rxAfter_n_ne t (by omega)⟩
  have hloop := State.recvLoop_taken t base max xs rest { s with rx := Rx.reset } hgo
  rw [← hsrc] at hloop
  rw [exec, execRxRecv, unlessFaulted_clear hf, (windowLegal_iff _ _ _).mpr hwin, check_true, hloop, State.received]

/-! ## The loop after a wait -/

/-- The end of a receive looks at neither the response nor the operation in flight, and sets both. -/
theorem State.recvFinish_response (t : PacketType) (base : Nat) (s : State) (r : Option RspWord) (b : Option Instr) :
    State.recvFinish t base { s with rsp := r, busy := b } = s.recvFinish t base := by
  have hpayload : State.rxPayload { s with rsp := r, busy := b } base = s.rxPayload base :=
    State.bytes_of_buf s { s with rsp := r, busy := b } rfl rfl _ _
  have hfield : State.rxField { s with rsp := r, busy := b } base = s.rxField base := rfl
  unfold State.recvFinish
  by_cases ht : t = .ack
  · rw [if_pos ht, if_pos ht]
    rfl
  · rw [if_neg ht, if_neg ht, hpayload, hfield]
    cases validateStatus (s.rxField base) (csum (s.rxPayload base)) <;> rfl

/-- A receive in DONE or with its budget used up ends by its registers and memory alone (R172, R178 to R180). -/
theorem State.recvLoop_interface_of_ended (l : List SrcAnswer) (s : State) (a : List SrcAnswer) (r : Option RspWord)
    (b : Option Instr) (hend : s.rx.state = .done ∨ s.rx.n = max) :
    State.recvLoop t base max l { s with src := a, rsp := r, busy := b } = State.recvLoop t base max l s := by
  by_cases hd : s.rx.state = .done
  · rw [State.recvLoop_done _ _ _ _ s hd]
    rw [← State.recvFinish_response t _ { s with src := l } r b]
    exact State.recvLoop_done _ _ _ _ _ hd
  · have hn := hend.resolve_left hd
    rw [State.recvLoop_full _ _ _ _ s hd hn]
    exact State.recvLoop_full _ _ _ _ _ hd hn

/-- The loop looks at neither the response nor the operation in flight, and at no list of answers but its own. -/
theorem State.recvLoop_interface (l : List SrcAnswer) (s : State) (a : List SrcAnswer) (r : Option RspWord)
    (b : Option Instr) :
    State.recvLoop t base max l { s with src := a, rsp := r, busy := b } = State.recvLoop t base max l s := by
  induction l generalizing s with
  | nil =>
    by_cases hend : s.rx.state = .done ∨ s.rx.n = max
    · exact State.recvLoop_interface_of_ended _ s a r b hend
    obtain ⟨hd, hn⟩ := not_or.mp hend
    rw [State.recvLoop_silent _ _ _ _ s hd hn (.inl rfl)]
    exact State.recvLoop_silent _ _ _ _ _ hd hn (.inl rfl)
  | cons x l ih =>
    by_cases hend : s.rx.state = .done ∨ s.rx.n = max
    · exact State.recvLoop_interface_of_ended _ s a r b hend
    obtain ⟨hd, hn⟩ := not_or.mp hend
    cases x with
    | byte x =>
      rw [State.recvLoop_byte _ _ _ _ _ s hd hn, ← ih (s.recvByte t base.toNat x)]
      exact State.recvLoop_byte _ _ _ _ _ _ hd hn
    | err low =>
      rw [State.recvLoop_err _ _ _ _ _ s hd hn]
      exact State.recvLoop_err _ _ _ _ _ _ hd hn
    | silent =>
      rw [State.recvLoop_silent _ _ _ _ s hd hn (.inr ⟨l, rfl⟩)]
      exact State.recvLoop_silent _ _ _ _ _ hd hn (.inr ⟨l, rfl⟩)

/-! ## The receive in flight -/

/-- The receive left in flight behind the bytes `xs`, with these answers of the source to come (R272). -/
def State.recvWaiting (s : State) (t : PacketType) (base max : Idx) (xs : List Byte) (rest : List SrcAnswer) : State :=
  { s.received t base.toNat xs with src := rest }.wait (.rxRecv t base max)

theorem State.recvWaiting_rx (s : State) (rest : List SrcAnswer) :
    (s.recvWaiting t base max xs rest).rx = rxAfter t xs :=
  s.received_rx t base.toNat xs

theorem State.recvWaiting_keeps (s : State) (rest : List SrcAnswer) (h : xs.length < max.toNat) :
    KeepsAllButRx s (s.recvWaiting t base max xs rest) base.toNat xs.length := by
  have hmax := max.isLt
  obtain ⟨⟨hparams, hseed, hhost⟩, hsink, hsent, hfstat, htok, hwr, hbuf⟩ :=
    s.received_keeps t base.toNat (xs := xs) (by omega)
  exact ⟨⟨hparams, hseed, hhost⟩, hsink, hsent, hfstat, htok, hwr, hbuf⟩

theorem State.bytes_recvWaiting (s : State) (rest : List SrcAnswer) (h : xs.length < max.toNat) :
    (s.recvWaiting t base max xs rest).bytes base.toNat xs.length = xs := by
  have hmax := max.isLt
  rw [State.bytes_of_buf (s.received t base.toNat xs) (s.recvWaiting t base max xs rest) rfl rfl,
    s.bytes_received t base.toNat (by omega)]

/-- Where the source gives no answer after bytes that neither reach DONE nor use up the budget, the receive waits
behind them (R272). -/
theorem exec_rxRecv_waits {rest : List SrcAnswer} (hf : s.fstat.fault = false)
    (hwin : base.toNat + max.toNat ≤ s.params.cap.toNat) (hlen : xs.length < max.toNat)
    (hopen : (rxAfter t xs).state ≠ .done) (hrest : NoSrcAnswer rest) (hsrc : s.src = xs.map .byte ++ rest) :
    exec (.rxRecv t base max) s = .next (s.recvWaiting t base max xs rest) := by
  have hn := rxAfter_n_ne t hlen
  rw [exec_rxRecv_of_bytes hf hwin hlen.le hopen hsrc]
  rw [← State.received_rx s t base.toNat] at hopen hn
  rw [State.recvLoop_silent _ _ _ _ _ hopen hn hrest, State.recvWaiting]

/-- A receive in flight goes on with the loop behind the bytes it has taken (R51). -/
theorem continueRxRecv_recvWaiting (hwin : base.toNat + max.toNat ≤ s.params.cap.toNat) (hlen : xs.length < max.toNat)
    (rest : List SrcAnswer) :
    continueRxRecv t base max (s.recvWaiting t base max xs rest) =
      .next (State.recvLoop t base max rest (s.received t base.toNat xs)) := by
  have hmax := max.isLt
  have hlegal : windowLegal (s.recvWaiting t base max xs rest).params base max = true := by
    rwa [windowLegal_iff, (s.recvWaiting_keeps rest hlen).outside.params]
  have hbudget : (s.recvWaiting t base max xs rest).rx.n.toNat ≤ max.toNat := by
    rw [State.recvWaiting_rx, rxAfter_n_toNat t (by omega)]
    exact hlen.le
  rw [continueRxRecv, hlegal, decide_eq_true hbudget, Bool.true_and, if_pos rfl]
  exact congrArg _ (State.recvLoop_interface rest (s.received t base.toNat xs) _ _ _)

/-- A receive that waits behind the bytes of the source goes on as if the further answers had been there at once
(R51). -/
theorem step_recvWaiting (hf : s.fstat.fault = false) (hwin : base.toNat + max.toNat ≤ s.params.cap.toNat)
    (hlen : xs.length < max.toNat) (hopen : (rxAfter t xs).state ≠ .done)
    (hhost : ∀ rest, s.host ≠ .reset :: rest) (more : List SrcAnswer) :
    step (s.recvWaiting t base max xs more) =
      exec (.rxRecv t base max) { s with src := xs.map .byte ++ more } := by
  have hkeeps := s.recvWaiting_keeps (t := t) (base := base) more hlen
  calc
    step (s.recvWaiting t base max xs more)
      = continueRxRecv t base max (s.recvWaiting t base max xs more) := step_busy rfl (by rwa [hkeeps.outside.host])
    _ = .next (State.recvLoop t base max more (s.received t base.toNat xs)) := continueRxRecv_recvWaiting hwin hlen more
    _ = .next (State.recvLoop t base max more { s.received t base.toNat xs with src := xs.map .byte ++ more }) :=
      congrArg _ (State.recvLoop_interface more (s.received t base.toNat xs) _ _ _).symm
    _ = _ := by
      rw [exec_rxRecv_of_bytes (s := { s with src := xs.map .byte ++ more }) hf hwin hlen.le hopen rfl,
        State.received_setSrc s t base.toNat xs (xs.map SrcAnswer.byte ++ more)]

end

/-- Settles O49: the receive is left behind the bytes it has stored. -/
theorem recvWaitsForASilentSource : Obligations.RecvWaitsForASilentSource := by
  intro s ty base max xs rest hf hwin hlen hopen hrest hsrc
  exact ⟨_, exec_rxRecv_waits hf hwin hlen hopen hrest hsrc, ⟨rfl, rfl⟩, rfl, s.recvWaiting_rx rest,
    s.recvWaiting_keeps rest hlen, s.bytes_recvWaiting rest hlen⟩

end Sys2Proof.Machine

/-! # A writer operation that waits

A flush that the sink stops after `j` bytes leaves `State.flushed`, and a flush from there is what is left of the flush
that meets all the answers at once. An operation that waits runs again with its checks still passed, so it goes on with
that flush; a `WR.FINISH` stopped in the trailer it has queued goes on with the flush of the trailer. -/

namespace Sys2Proof.Machine

section
variable {s t : State} {i : Instr} {j : Nat} {rest : List SinkAnswer} {k : State → State}

/-! ## Operations whose checks pass -/

/-- `WR.PUSH` with the checks of R159 passed flushes and takes its byte (R153). -/
theorem exec_wrPush_of_checks (hc : s.fstat.fault = false) (hv : s.wr.valid = true) (hf : s.wr.finished = false)
    (ht : s.wr.type ≠ .ack) (htr : s.wr.trailer = false) (v : Byte) :
    exec (.wrPush v) s =
      .next (afterSends (.wrPush v) s.flush fun u => { u with wr := u.wr.accept v }.answer .ok 0 0) := by
  rw [exec, execWrPush, unlessFaulted_clear hc, hv, check_true, hf, Bool.not_false, check_true, bne_iff_ne.mpr ht,
    check_true, htr, Bool.not_false, check_true]

/-- `WR.PUSHACK` with the checks of R159 passed makes its one request (R154). -/
theorem exec_wrPushAck_of_checks (hc : s.fstat.fault = false) (hv : s.wr.valid = true) (hf : s.wr.finished = false)
    (ht : s.wr.type = .ack) (ha : s.wr.ackSent = false) (f : Bool) :
    exec (.wrPushAck f) s = .next (afterSends (.wrPushAck f) (s.sinkSend (ackByte f))
      fun u => { u with wr := { u.wr with ackSent := true } }.answer .ok 0 0) := by
  rw [exec, execWrPushAck, unlessFaulted_clear hc, hv, check_true, hf, Bool.not_false, check_true, ht,
    PacketType.ack_beq_ack, check_true, ha, Bool.not_false, check_true]

/-- `WR.FINISH` with a trailer queued by an earlier attempt flushes what is left of it (R155). -/
theorem exec_wrFinish_of_trailer (hc : s.fstat.fault = false) (hv : s.wr.valid = true) (hf : s.wr.finished = false)
    (ht : s.wr.type ≠ .ack) (htr : s.wr.trailer = true) : exec .wrFinish s = .next s.finishTrailer := by
  rw [exec, execWrFinish, unlessFaulted_clear hc, hv, check_true, hf, Bool.not_false, check_true, if_neg ht, if_pos htr]

/-- `WR.FINISH` without a trailer flushes, queues the trailer and flushes it (R155). -/
theorem exec_wrFinish_of_payload (hc : s.fstat.fault = false) (hv : s.wr.valid = true) (hf : s.wr.finished = false)
    (ht : s.wr.type ≠ .ack) (htr : s.wr.trailer = false) :
    exec .wrFinish s =
      .next (afterSends .wrFinish s.flush fun u => { u with wr := u.wr.queueTrailer }.finishTrailer) := by
  rw [exec, execWrFinish, unlessFaulted_clear hc, hv, check_true, hf, Bool.not_false, check_true, if_neg ht,
    if_neg (by rw [htr]; exact Bool.false_ne_true)]

/-! ## Where the sink stops an operation -/

/-- The state in which `WR.FINISH` has sent the queue and queued the trailer, with these answers of the sink to come
(R155). -/
def State.trailerQueued (s : State) (rest : List SinkAnswer) : State :=
  { s with
    wr := (s.wr.shiftN s.wr.laN.toNat).queueTrailer
    sink := rest
    sent := s.sent ++ s.wr.firstOut s.wr.laN.toNat }

theorem State.flush_blocked (hj : j < s.wr.laN.toNat) (hr : NoSinkAnswer rest)
    (hs : s.sink = List.replicate j .done ++ rest) : s.flush = (.blocked, s.flushed j rest) :=
  s.flushN_blocked _ j rest hj hr hs

theorem State.flush_done (hs : s.sink = List.replicate s.wr.laN.toNat .done ++ rest) :
    s.flush = (.done, s.flushed s.wr.laN.toNat rest) :=
  s.flushN_done _ rest hs

/-- A sink that does not answer inside the queue leaves `WR.PUSH` in flight there (R272). -/
theorem exec_wrPush_waits (hc : s.fstat.fault = false) (hv : s.wr.valid = true) (hf : s.wr.finished = false)
    (ht : s.wr.type ≠ .ack) (htr : s.wr.trailer = false) (hj : j < s.wr.laN.toNat) (hr : NoSinkAnswer rest)
    (hs : s.sink = List.replicate j .done ++ rest) (v : Byte) :
    exec (.wrPush v) s = .next ((s.flushed j rest).wait (.wrPush v)) := by
  rw [exec_wrPush_of_checks hc hv hf ht htr, State.flush_blocked hj hr hs, afterSends_blocked]

/-- A sink that does not answer the one request leaves `WR.PUSHACK` in flight (R272). -/
theorem exec_wrPushAck_waits (hc : s.fstat.fault = false) (hv : s.wr.valid = true) (hf : s.wr.finished = false)
    (ht : s.wr.type = .ack) (ha : s.wr.ackSent = false) (hr : NoSinkAnswer s.sink) (f : Bool) :
    exec (.wrPushAck f) s = .next (s.wait (.wrPushAck f)) := by
  have hsend : s.sinkSend (ackByte f) = (.blocked, s) := by
    obtain hr | ⟨rest, hr⟩ := hr <;> rw [State.sinkSend, hr]
  rw [exec_wrPushAck_of_checks hc hv hf ht ha, hsend, afterSends_blocked]

/-- A sink that does not answer inside the queue leaves `WR.FINISH` in flight there, whatever is queued (R272). -/
theorem exec_wrFinish_waits_in_queue (hc : s.fstat.fault = false) (hv : s.wr.valid = true)
    (hf : s.wr.finished = false) (ht : s.wr.type ≠ .ack) (hj : j < s.wr.laN.toNat) (hr : NoSinkAnswer rest)
    (hs : s.sink = List.replicate j .done ++ rest) :
    exec .wrFinish s = .next ((s.flushed j rest).wait .wrFinish) := by
  cases htr : s.wr.trailer with
  | true =>
    rw [exec_wrFinish_of_trailer hc hv hf ht htr, State.finishTrailer, State.flush_blocked hj hr hs, afterSends_blocked]
  | false => rw [exec_wrFinish_of_payload hc hv hf ht htr, State.flush_blocked hj hr hs, afterSends_blocked]

/-- Where the sink takes the whole queue, `WR.FINISH` goes on to the trailer (R155). -/
theorem exec_wrFinish_to_trailer (hc : s.fstat.fault = false) (hv : s.wr.valid = true)
    (hf : s.wr.finished = false) (ht : s.wr.type ≠ .ack) (htr : s.wr.trailer = false)
    (hs : s.sink = List.replicate s.wr.laN.toNat .done ++ rest) :
    exec .wrFinish s = .next (s.trailerQueued rest).finishTrailer := by
  rw [exec_wrFinish_of_payload hc hv hf ht htr, State.flush_done hs, afterSends_done]
  rfl

/-- A sink that does not answer inside the trailer leaves the operation in flight there (R272). -/
theorem State.finishTrailer_waits (hj : j < s.wr.laN.toNat) (hr : NoSinkAnswer rest)
    (hs : s.sink = List.replicate j .done ++ rest) : s.finishTrailer = (s.flushed j rest).wait .wrFinish := by
  rw [State.finishTrailer, State.flush_blocked hj hr hs, afterSends_blocked]

/-! ## What the stop leaves -/

theorem KeepsAllButWr.wait (h : KeepsAllButWr s t) (i : Instr) : KeepsAllButWr s (t.wait i) :=
  ⟨⟨h.outside.params, h.outside.seed, h.outside.host⟩, h.src, h.fstat, h.rx, h.tok, h.buf⟩

theorem StoppedInQueue.wait (h : StoppedInQueue s t j) (i : Instr) : StoppedInQueue s (t.wait i) j :=
  ⟨h.keeps.wait i, h.progress, h.trailer, h.queued, h.sent⟩

theorem StoppedInTrailer.wait {q : List Byte} (h : StoppedInTrailer s t q j) (i : Instr) :
    StoppedInTrailer s (t.wait i) q j :=
  ⟨h.keeps.wait i, h.progress, h.trailer, h.queued, h.sent⟩

theorem KeepsWrProgress.trans {u v w : Wr} (h : KeepsWrProgress u v) (h' : KeepsWrProgress v w) :
    KeepsWrProgress u w :=
  ⟨h'.valid.trans h.valid, h'.type.trans h.type, h'.csum.trans h.csum, h'.finished.trans h.finished,
    h'.ackSent.trans h.ackSent⟩

/-- The bytes of a `WR.FINISH` that has yet to queue the trailer are the queue and the trailer it will queue (R156). -/
theorem IsFinishQueue.eq_append {w : Wr} {q : List Byte} (h : IsFinishQueue w q) (htr : w.trailer = false) :
    q = w.queued ++ w.queueTrailer.queued := by
  obtain ⟨htrailer, -⟩ | ⟨-, c0, c1, h0, h1, rfl⟩ := h
  · rw [htr] at htrailer
    cases htrailer
  · rw [h0.unique (hexHigh_upper _), h1.unique (hexLow_upper _)]
    rfl

/-- The trailer depends on the checksum alone, which sending the queue keeps (R156). -/
theorem Wr.queueTrailer_queued_shiftN (w : Wr) (n : Nat) :
    (w.shiftN n).queueTrailer.queued = w.queueTrailer.queued := by
  have hcsum := (w.shiftN_keeps n).1.csum
  show [chHash, hexHigh (w.shiftN n).csum, hexLow (w.shiftN n).csum] = [chHash, hexHigh w.csum, hexLow w.csum]
  rw [hcsum]

/-- What the sink's stop in the trailer leaves: the queue and `m` bytes of the trailer are sent (R157). -/
theorem State.stoppedInTrailer_flushed (s : State) (m : Nat) (rest : List SinkAnswer) (hm : m ≤ 3) :
    StoppedInTrailer s ((s.trailerQueued rest).flushed m rest) (s.wr.queued ++ s.wr.queueTrailer.queued)
      (s.wr.queued.length + m) := by
  obtain ⟨-, hprogress, htrailer, hqueued, hsent⟩ := (s.trailerQueued rest).stoppedInQueue_flushed m rest hm
  have hq : (s.trailerQueued rest).wr.queued = s.wr.queueTrailer.queued := s.wr.queueTrailer_queued_shiftN _
  have hkept : KeepsWrProgress s.wr (s.trailerQueued rest).wr := by
    obtain ⟨hv, ht, hc, hf, ha⟩ := (s.wr.shiftN_keeps s.wr.laN.toNat).1
    exact ⟨hv, ht, hc, hf, ha⟩
  have hfirst : (s.trailerQueued rest).sent = s.sent ++ s.wr.queued := by
    rw [State.trailerQueued, s.wr.firstOut_eq _ le_rfl, ← s.wr.queued_length, List.take_length]
  refine ⟨⟨⟨rfl, rfl, rfl⟩, rfl, rfl, rfl, rfl, fun _ => rfl⟩, hkept.trans hprogress, htrailer, ?_, ?_⟩
  · rw [hqueued, hq, List.drop_length_add_append]
  · rw [hsent, hq, hfirst, List.take_length_add_append, List.append_assoc]

end

/-- Settles O40: `State.flushed` is what the stop leaves, in the queue or in the trailer. -/
theorem silentSinkLeavesTheWriterWaiting : Obligations.SilentSinkLeavesTheWriterWaiting := by
  intro s j rest hc hv hf hr hs
  have hstopped : j < s.wr.queued.length → StoppedInQueue s (s.flushed j rest) j := fun hj =>
    s.stoppedInQueue_flushed j rest (s.wr.queued_length ▸ hj.le)
  refine ⟨fun v ht htr hj => ?_, fun f ht ha hj => ?_, fun ht hj => ?_, fun q ht htr hq hle hlt => ?_⟩
  · exact ⟨_, exec_wrPush_waits hc hv hf ht htr (s.wr.queued_length ▸ hj) hr hs v, ⟨rfl, rfl⟩, rfl,
      (hstopped hj).wait _⟩
  · obtain rfl : s.sink = rest := by rw [hs, hj, List.replicate_zero, List.nil_append]
    exact ⟨_, exec_wrPushAck_waits hc hv hf ht ha hr f, ⟨rfl, rfl⟩, rfl, rfl, rfl,
      ⟨rfl, rfl, rfl⟩, rfl, rfl, rfl, rfl, fun _ => rfl⟩
  · exact ⟨_, exec_wrFinish_waits_in_queue hc hv hf ht (s.wr.queued_length ▸ hj) hr hs, ⟨rfl, rfl⟩, rfl,
      (hstopped hj).wait _⟩
  · obtain ⟨m, rfl⟩ := Nat.exists_eq_add_of_le hle
    obtain rfl := hq.eq_append htr
    have hm : m < 3 := by
      rw [List.length_append] at hlt
      exact Nat.lt_of_add_lt_add_left hlt
    rw [← List.replicate_append_replicate, List.append_assoc, s.wr.queued_length] at hs
    have hwait : (s.trailerQueued (List.replicate m .done ++ rest)).finishTrailer =
        ((s.trailerQueued rest).flushed m rest).wait .wrFinish := State.finishTrailer_waits hm hr rfl
    refine ⟨_, (exec_wrFinish_to_trailer hc hv hf ht htr hs).trans (congrArg _ hwait), ⟨rfl, rfl⟩, rfl, ?_⟩
    exact (s.stoppedInTrailer_flushed m rest hm.le).wait _

/-! ## Operations that are left waiting -/

section
variable {s t : State} {i : Instr} {j : Nat} {k : State → State}

/-- A check that fails ends the operation, so an operation that waits has passed it (R229). -/
theorem check_of_waits {ok : Bool} {c : Cause} {r : Result} (h : check ok c s r = .next t) (hw : Waits t i) :
    ok = true ∧ r = .next t := by
  obtain hpass | ⟨-, rfl⟩ := check_cases h
  · exact hpass
  · cases hw.busy

/-- A flush that is left waiting by a sink that accepts `j` bytes has more to send than those. -/
theorem lt_laN_of_waits (hs : s.sink = List.replicate j .done) (hk : ∀ u, (k u).busy = none)
    (hw : Waits (afterSends i s.flush k) i) : j < s.wr.laN.toNat := by
  by_contra hle
  obtain ⟨m, rfl⟩ := Nat.exists_eq_add_of_le (not_lt.mp hle)
  rw [← List.replicate_append_replicate] at hs
  rw [State.flush_done hs, afterSends_done] at hw
  cases (hk _).symm.trans hw.busy

/-! ## The requests of an operation that runs again -/

/-- A flush that was stopped goes on as if the further answers had been there at once (R152). -/
theorem State.flush_flushed (hj : j ≤ s.wr.laN.toNat) (more : List SinkAnswer) :
    (s.flushed j more).flush = State.flush { s with sink := List.replicate j .done ++ more } := by
  obtain ⟨m, hm⟩ := Nat.exists_eq_add_of_le hj
  have hleft : (s.flushed j more).wr.laN.toNat = m := by
    have hlaN : (s.flushed j more).wr.laN.toNat = s.wr.laN.toNat - j := s.wr.shiftN_laN j hj
    omega
  rw [State.flush, State.flush, hleft, hm, State.flushN_add]

/-- Waiting does not matter to an operation that sets the response whenever it ends. -/
theorem afterSends_wait (hk : ∀ u : State, k (u.wait i) = k u) (e : SendEnd) (u : State) :
    afterSends i (e, u.wait i) k = afterSends i (e, u) k := by
  cases e with
  | done => exact hk u
  | err c => rfl
  | blocked => rfl

theorem afterSends_flush_wait (hk : ∀ u : State, k (u.wait i) = k u) (s : State) :
    afterSends i (s.wait i).flush k = afterSends i s.flush k := by
  have hflush : (s.wait i).flush = (s.flush.1, s.flush.2.wait i) := State.flushN_response _ s _ _
  rw [hflush, afterSends_wait hk]

theorem State.finishTrailer_wait (s : State) : (s.wait .wrFinish).finishTrailer = s.finishTrailer :=
  afterSends_flush_wait (fun _ => rfl) s

/-- The requests of an operation that waits after `j` bytes go on as if the further answers had been there at once. -/
theorem afterSends_flushed_wait (hk : ∀ u : State, k (u.wait i) = k u) (hj : j ≤ s.wr.laN.toNat)
    (more : List SinkAnswer) :
    afterSends i ((s.flushed j more).wait i).flush k =
      afterSends i (State.flush { s with sink := List.replicate j .done ++ more }) k := by
  rw [afterSends_flush_wait hk, State.flush_flushed hj]

theorem State.finishTrailer_flushed_wait (hj : j ≤ s.wr.laN.toNat) (more : List SinkAnswer) :
    ((s.flushed j more).wait .wrFinish).finishTrailer =
      State.finishTrailer { s with sink := List.replicate j .done ++ more } :=
  afterSends_flushed_wait (fun _ => rfl) hj more

/-! ## The operations that run again -/

/-- The operation that waits in `t`, run again with the sink's answers `more`, does what it does from `s` with all the
answers at once; the host's events are still those of `s`. -/
structure GoesOnAsFrom (s t : State) (i : Instr) (j : Nat) (more : List SinkAnswer) : Prop where
  host : t.host = s.host
  runs : exec i { t with sink := more } = exec i { s with sink := List.replicate j .done ++ more }

/-- `WR.PUSH` waits in its flush, and the checks it has passed still pass there. -/
theorem wrPush_goesOn {v : Byte} (hc : s.fstat.fault = false) (hs : s.sink = List.replicate j .done)
    (hexec : exec (.wrPush v) s = .next t) (hw : Waits t (.wrPush v)) (more : List SinkAnswer) :
    GoesOnAsFrom s t (.wrPush v) j more := by
  have hchecks := hexec
  rw [exec, execWrPush, unlessFaulted_clear hc] at hchecks
  obtain ⟨hv, hchecks⟩ := check_of_waits hchecks hw
  obtain ⟨hf, hchecks⟩ := check_of_waits hchecks hw
  obtain ⟨ht, hchecks⟩ := check_of_waits hchecks hw
  obtain ⟨htr, hchecks⟩ := check_of_waits hchecks hw
  rw [Bool.not_eq_true'] at hf htr
  rw [bne_iff_ne] at ht
  have hj : j < s.wr.laN.toNat := by
    cases hchecks
    exact lt_laN_of_waits hs (fun _ => rfl) hw
  rw [exec_wrPush_waits hc hv hf ht htr hj (.inl rfl) (by rw [hs, List.append_nil])] at hexec
  cases hexec
  obtain ⟨⟨hv', ht', -, hf', -⟩, htr'⟩ := s.wr.shiftN_keeps j
  refine ⟨rfl, ?_⟩
  rw [exec_wrPush_of_checks (s := { s with sink := List.replicate j .done ++ more }) hc hv hf ht htr,
    ← afterSends_flushed_wait (fun _ => rfl) hj.le]
  exact exec_wrPush_of_checks (s := (s.flushed j more).wait (.wrPush v)) hc (hv'.trans hv) (hf'.trans hf)
    (ht' ▸ ht) (htr'.trans htr) v

/-- `WR.PUSHACK` waits in its one request, so the sink has accepted nothing. -/
theorem wrPushAck_goesOn {f : Bool} (hc : s.fstat.fault = false) (hs : s.sink = List.replicate j .done)
    (hexec : exec (.wrPushAck f) s = .next t) (hw : Waits t (.wrPushAck f)) (more : List SinkAnswer) :
    GoesOnAsFrom s t (.wrPushAck f) j more := by
  have hchecks := hexec
  rw [exec, execWrPushAck, unlessFaulted_clear hc] at hchecks
  obtain ⟨hv, hchecks⟩ := check_of_waits hchecks hw
  obtain ⟨hf, hchecks⟩ := check_of_waits hchecks hw
  obtain ⟨ht, hchecks⟩ := check_of_waits hchecks hw
  obtain ⟨ha, hchecks⟩ := check_of_waits hchecks hw
  rw [Bool.not_eq_true'] at hf ha
  rw [beq_iff_eq] at ht
  obtain rfl : j = 0 := by
    cases j with
    | zero => rfl
    | succ j =>
      rw [State.sinkSend, hs, List.replicate_succ, afterSends_done] at hchecks
      cases hchecks
      cases hw.busy
  rw [exec_wrPushAck_waits hc hv hf ht ha (.inl hs)] at hexec
  cases hexec
  have hsend : State.sinkSend ({ s with sink := more }.wait (.wrPushAck f)) (ackByte f) =
      ((State.sinkSend { s with sink := more } (ackByte f)).1,
        (State.sinkSend { s with sink := more } (ackByte f)).2.wait (.wrPushAck f)) := by
    obtain _ | ⟨_ | _ | _, rest⟩ := more <;> rfl
  refine ⟨rfl, ?_⟩
  rw [List.replicate_zero, List.nil_append,
    exec_wrPushAck_of_checks (s := { s with sink := more }) hc hv hf ht ha]
  refine (exec_wrPushAck_of_checks (s := { s with sink := more }.wait (.wrPushAck f)) hc hv hf ht ha f).trans ?_
  rw [hsend, afterSends_wait fun _ => rfl]

/-- Stopped in the queue, `WR.FINISH` goes on with the queue. -/
theorem wrFinish_goesOn_in_queue (hc : s.fstat.fault = false) (hv : s.wr.valid = true) (hf : s.wr.finished = false)
    (ht : s.wr.type ≠ .ack) (hj : j ≤ s.wr.laN.toNat) (more : List SinkAnswer) :
    GoesOnAsFrom s ((s.flushed j []).wait .wrFinish) .wrFinish j more := by
  obtain ⟨⟨hv', ht', -, hf', -⟩, htr'⟩ := s.wr.shiftN_keeps j
  refine ⟨rfl, ?_⟩
  cases htr : s.wr.trailer with
  | true =>
    rw [exec_wrFinish_of_trailer (s := { s with sink := List.replicate j .done ++ more }) hc hv hf ht htr,
      ← State.finishTrailer_flushed_wait hj]
    exact exec_wrFinish_of_trailer (s := (s.flushed j more).wait .wrFinish) hc (hv'.trans hv) (hf'.trans hf)
      (ht' ▸ ht) (htr'.trans htr)
  | false =>
    rw [exec_wrFinish_of_payload (s := { s with sink := List.replicate j .done ++ more }) hc hv hf ht htr,
      ← afterSends_flushed_wait (fun u => State.finishTrailer_wait { u with wr := u.wr.queueTrailer }) hj]
    exact exec_wrFinish_of_payload (s := (s.flushed j more).wait .wrFinish) hc (hv'.trans hv) (hf'.trans hf)
      (ht' ▸ ht) (htr'.trans htr)

/-- Stopped in the trailer it has queued, `WR.FINISH` goes on with the trailer (R155). -/
theorem wrFinish_goesOn_in_trailer (hc : s.fstat.fault = false) (hv : s.wr.valid = true) (hf : s.wr.finished = false)
    (ht : s.wr.type ≠ .ack) (htr : s.wr.trailer = false) {m : Nat} (hm : m ≤ 3) (more : List SinkAnswer) :
    GoesOnAsFrom s (((s.trailerQueued []).flushed m []).wait .wrFinish) .wrFinish (s.wr.laN.toNat + m) more := by
  obtain ⟨hv', ht', -, hf', -⟩ := (s.wr.shiftN_keeps s.wr.laN.toNat).1
  obtain ⟨⟨hv'', ht'', -, hf'', -⟩, htr''⟩ := (s.trailerQueued []).wr.shiftN_keeps m
  refine ⟨rfl, ?_⟩
  calc
    _ = exec .wrFinish (((s.trailerQueued []).flushed m more).wait .wrFinish) := rfl
    _ = .next (((s.trailerQueued []).flushed m more).wait .wrFinish).finishTrailer :=
      exec_wrFinish_of_trailer hc (hv''.trans (hv'.trans hv)) (hf''.trans (hf'.trans hf))
        (fun e => ht (ht'.symm.trans (ht''.symm.trans e))) htr''
    _ = .next (s.trailerQueued (List.replicate m .done ++ more)).finishTrailer :=
      congrArg _ (State.finishTrailer_flushed_wait (s := s.trailerQueued []) hm more)
    _ = _ := by
      rw [← List.replicate_append_replicate, List.append_assoc]
      exact (exec_wrFinish_to_trailer
        (s := { s with sink := List.replicate s.wr.laN.toNat .done ++ (List.replicate m .done ++ more) })
        hc hv hf ht htr rfl).symm

/-- `WR.FINISH` waits in the queue or in the trailer it has queued. -/
theorem wrFinish_goesOn (hc : s.fstat.fault = false) (hs : s.sink = List.replicate j .done)
    (hexec : exec .wrFinish s = .next t) (hw : Waits t .wrFinish) (more : List SinkAnswer) :
    GoesOnAsFrom s t .wrFinish j more := by
  have hchecks := hexec
  rw [exec, execWrFinish, unlessFaulted_clear hc] at hchecks
  obtain ⟨hv, hchecks⟩ := check_of_waits hchecks hw
  obtain ⟨hf, hchecks⟩ := check_of_waits hchecks hw
  rw [Bool.not_eq_true'] at hf
  have ht : s.wr.type ≠ .ack := fun e => by
    rw [if_pos e] at hchecks
    obtain ⟨-, hchecks⟩ := check_of_waits hchecks hw
    cases hchecks
    cases hw.busy
  by_cases hj : j < s.wr.laN.toNat
  · rw [exec_wrFinish_waits_in_queue hc hv hf ht hj (.inl rfl) (by rw [hs, List.append_nil])] at hexec
    cases hexec
    exact wrFinish_goesOn_in_queue hc hv hf ht hj.le more
  · have htr : s.wr.trailer = false := by
      by_contra htr
      rw [exec_wrFinish_of_trailer hc hv hf ht (Bool.eq_true_of_not_eq_false htr)] at hexec
      cases hexec
      exact hj (lt_laN_of_waits hs (fun _ => rfl) hw)
    obtain ⟨m, rfl⟩ := Nat.exists_eq_add_of_le (not_lt.mp hj)
    rw [← List.replicate_append_replicate] at hs
    rw [exec_wrFinish_to_trailer hc hv hf ht htr hs] at hexec
    cases hexec
    have hm : m < 3 := lt_laN_of_waits (s := s.trailerQueued (List.replicate m .done)) rfl (fun _ => rfl) hw
    rw [State.finishTrailer_waits (s := s.trailerQueued (List.replicate m .done)) hm (.inl rfl)
      (List.append_nil _).symm]
    exact wrFinish_goesOn_in_trailer hc hv hf ht htr hm.le more

/-- A step with the sink's further answers is the operation run again. -/
theorem GoesOnAsFrom.step {more : List SinkAnswer} (h : GoesOnAsFrom s t i j more) (hw : Waits t i)
    (hi : ∀ ty base max, i ≠ .rxRecv ty base max) (hhost : ∀ rest, s.host ≠ .reset :: rest) :
    step { t with sink := more } = exec i { s with sink := List.replicate j .done ++ more } := by
  rw [step_busy (s := { t with sink := more }) hw.busy (h.host ▸ hhost), resume_eq_exec hi, h.runs]

end

/-- Settles O50: a receive by `step_recvWaiting`, a writer operation by running again where it waits. -/
theorem waitingOperationGoesOnWhereItStopped : Obligations.WaitingOperationGoesOnWhereItStopped := by
  refine ⟨fun s t ty base max xs more hf hwin hlen hopen hhost hsrc hexec => ?_,
    fun s t i j more hi hc hhost hs hexec hw => ?_⟩
  · rw [exec_rxRecv_waits hf hwin hlen hopen (.inl rfl) (by rw [hsrc, List.append_nil])] at hexec
    cases hexec
    exact step_recvWaiting hf hwin hlen hopen hhost more
  · obtain ⟨v, rfl⟩ | ⟨f, rfl⟩ | rfl := hi
    · exact (wrPush_goesOn hc hs hexec hw more).step hw (by simp) hhost
    · exact (wrPushAck_goesOn hc hs hexec hw more).step hw (by simp) hhost
    · exact (wrFinish_goesOn hc hs hexec hw more).step hw (by simp) hhost

end Sys2Proof.Machine

/-! # Command words

A word is put together from its four fields. For each row of R70 one equivalence says what the decoder makes of the
fields; the two round trips, the words of the table and the legal words (R71 to R74) follow from these. -/

namespace Sys2Proof

/-! ## The fields of a word -/

theorem CmdWord.fields_ofFields (op c : Byte) (a b : Idx) :
    (CmdWord.ofFields op c a b).op = op ∧ (CmdWord.ofFields op c a b).c = c ∧
      (CmdWord.ofFields op c a b).a = a ∧ (CmdWord.ofFields op c a b).b = b :=
  ⟨ofFields_op op c a b, ofFields_c op c a b, ofFields_a op c a b, ofFields_b op c a b⟩

/-- A mask acts on each field of a word. -/
theorem CmdWord.ofFields_and_eq_iff {op c : Byte} {a b : Idx} {mask w : CmdWord} :
    CmdWord.ofFields op c a b &&& mask = w ↔
      op &&& mask.op = w.op ∧ c &&& mask.c = w.c ∧ a &&& mask.a = w.a ∧ b &&& mask.b = w.b := by
  have hfields := fields_ofFields op c a b
  simp only [CmdWord.op, CmdWord.c, CmdWord.a, CmdWord.b] at hfields
  simp only [CmdWord.eq_iff, CmdWord.op, CmdWord.c, CmdWord.a, CmdWord.b, BitVec.extractLsb'_and, hfields]

/-! ## The parts of the decoder -/

theorem requireZero_eq_ok {z : Bool} {i j : Instr} : requireZero z i = .ok j ↔ z = true ∧ j = i := by
  cases z <;> simp [requireZero, eq_comm]

/-- A packet type decodes from its number alone (R73). -/
theorem PacketType.ofByte_eq_ok {c : Byte} {t : PacketType} :
    PacketType.ofByte c = .ok t ↔ c = t.code.setWidth 8 := by
  refine ⟨fun h => ?_, fun h => by subst h; cases t <;> rfl⟩
  unfold PacketType.ofByte at h
  split_ifs at h with h0 h1 h2 <;> cases h
  · exact h0
  · exact h1
  · exact h2

/-- A delimiter mode decodes from its number alone (R73). -/
theorem DelimMode.ofIdx_eq_ok {a : Idx} {m : DelimMode} : DelimMode.ofIdx a = .ok m ↔ a = m.code.setWidth 16 := by
  refine ⟨fun h => ?_, fun h => by subst h; cases m <;> rfl⟩
  unfold DelimMode.ofIdx at h
  split_ifs at h with h0 h1 h2 <;> cases h
  · exact h0
  · exact h1
  · exact h2

theorem withType_eq_ok {c : Byte} {z : Bool} {f : PacketType → Instr} {i : Instr} :
    withType c z f = .ok i ↔ ∃ t : PacketType, c = t.code.setWidth 8 ∧ z = true ∧ i = f t := by
  simp only [← PacketType.ofByte_eq_ok, withType]
  cases PacketType.ofByte c <;> simp [requireZero_eq_ok]

/-- An index holds a byte, zero-extended, exactly when its high byte is 0 and its low byte is that byte. -/
theorem eq_setWidth_iff {a : Idx} {v : Byte} :
    a = v.setWidth 16 ↔ a.extractLsb' 8 8 = 0 ∧ v = a.extractLsb' 0 8 := by
  have ha := a.isLt
  have hv := v.isLt
  have hzero : (0 : Byte).toNat = 0 := rfl
  simp only [← BitVec.toNat_inj, BitVec.extractLsb'_toNat, BitVec.toNat_setWidth, Nat.shiftRight_eq_div_pow, hzero]
  omega

/-! ## The rows of R70 -/

section
variable {op c : Byte} {a b : Idx} {i : Instr}

theorem decode_csumCalc_iff : decode (.ofFields 0x10#8 c a b) = .ok i ↔ c = 0 ∧ i = .csumCalc a b := by
  simp [decode, CmdWord.fields_ofFields, requireZero_eq_ok]

theorem decode_hexDec_iff : decode (.ofFields 0x20#8 c a b) = .ok i ↔
    ∃ v : Byte, a = v.setWidth 16 ∧ i = .hexDec c v b := by
  simp [decode, CmdWord.fields_ofFields, requireZero_eq_ok, eq_setWidth_iff, and_assoc]

theorem decode_hexEnc_iff : decode (.ofFields 0x21#8 c a b) = .ok i ↔ a = 0 ∧ b = 0 ∧ i = .hexEnc c := by
  simp [decode, CmdWord.fields_ofFields, requireZero_eq_ok, and_assoc]

theorem decode_binEnc_iff : decode (.ofFields 0x30#8 c a b) = .ok i ↔ a = 0 ∧ b = 0 ∧ i = .binEnc c := by
  simp [decode, CmdWord.fields_ofFields, requireZero_eq_ok, and_assoc]

theorem decode_binDec_iff : decode (.ofFields 0x31#8 c a b) = .ok i ↔ a = 0 ∧ b = 0 ∧ i = .binDec c := by
  simp [decode, CmdWord.fields_ofFields, requireZero_eq_ok, and_assoc]

theorem decode_rleEnc_iff : decode (.ofFields 0x40#8 c a b) = .ok i ↔ c = 0 ∧ i = .rleEnc a b := by
  simp [decode, CmdWord.fields_ofFields, requireZero_eq_ok]

theorem decode_wrInit_iff : decode (.ofFields 0x50#8 c a b) = .ok i ↔
    a = 0 ∧ b = 0 ∧ ∃ t : PacketType, c = t.code.setWidth 8 ∧ i = .wrInit t := by
  simp [decode, CmdWord.fields_ofFields, withType_eq_ok, and_assoc, and_left_comm]

theorem decode_wrPush_iff : decode (.ofFields 0x51#8 c a b) = .ok i ↔ a = 0 ∧ b = 0 ∧ i = .wrPush c := by
  simp [decode, CmdWord.fields_ofFields, requireZero_eq_ok, and_assoc]

theorem decode_wrPushAck_iff : decode (.ofFields 0x52#8 c a b) = .ok i ↔
    a = 0 ∧ b = 0 ∧ ∃ f : Bool, c = (if f then 1 else 0) ∧ i = .wrPushAck f := by
  simp only [decode, CmdWord.fields_ofFields]
  by_cases h0 : c = 0#8
  · simp [h0, requireZero_eq_ok, and_assoc]
  · by_cases h1 : c = 1#8
    · simp [h1, requireZero_eq_ok, and_assoc]
    · simp [h0, h1]

theorem decode_wrFinish_iff : decode (.ofFields 0x53#8 c a b) = .ok i ↔ c = 0 ∧ a = 0 ∧ b = 0 ∧ i = .wrFinish := by
  simp [decode, CmdWord.fields_ofFields, requireZero_eq_ok, and_assoc]

theorem decode_rxRecv_iff : decode (.ofFields 0x60#8 c a b) = .ok i ↔
    ∃ t : PacketType, c = t.code.setWidth 8 ∧ i = .rxRecv t a b := by
  simp [decode, CmdWord.fields_ofFields, withType_eq_ok]

theorem decode_tokInit_iff : decode (.ofFields 0x70#8 c a b) = .ok i ↔
    ∃ t : PacketType, c = t.code.setWidth 8 ∧ i = .tokInit t a b := by
  simp [decode, CmdWord.fields_ofFields, withType_eq_ok]

theorem decode_tokAdv_iff : decode (.ofFields 0x71#8 c a b) = .ok i ↔
    b = 0 ∧ ∃ m : DelimMode, (a = m.code.setWidth 16 ∧ m.allowsDelim c = true) ∧ i = .tokAdv m c := by
  simp only [← DelimMode.ofIdx_eq_ok, decode, CmdWord.fields_ofFields]
  cases DelimMode.ofIdx a <;> simp [requireZero_eq_ok, and_assoc]

theorem decode_tokRewind_iff : decode (.ofFields 0x72#8 c a b) = .ok i ↔ c = 0 ∧ a = 0 ∧ b = 0 ∧ i = .tokRewind := by
  simp [decode, CmdWord.fields_ofFields, requireZero_eq_ok, and_assoc]

theorem decode_bufLd_iff : decode (.ofFields 0x80#8 c a b) = .ok i ↔ c = 0 ∧ b = 0 ∧ i = .bufLd a := by
  simp [decode, CmdWord.fields_ofFields, requireZero_eq_ok, and_assoc]

theorem decode_bufSt_iff : decode (.ofFields 0x81#8 c a b) = .ok i ↔ b = 0 ∧ i = .bufSt a c := by
  simp [decode, CmdWord.fields_ofFields, requireZero_eq_ok]

theorem decode_csrRd_iff : decode (.ofFields 0x90#8 c a b) = .ok i ↔ a = 0 ∧ b = 0 ∧ i = .csrRd c := by
  simp [decode, CmdWord.fields_ofFields, requireZero_eq_ok, and_assoc]

/-- The op codes of R70. -/
def opCodes : List Byte :=
  [0x10#8, 0x20#8, 0x21#8, 0x30#8, 0x31#8, 0x40#8, 0x50#8, 0x51#8, 0x52#8, 0x53#8, 0x60#8, 0x70#8, 0x71#8, 0x72#8,
    0x80#8, 0x81#8, 0x90#8]

/-- Any other op code is reserved (R74). -/
theorem decode_of_not_mem_opCodes (h : op ∉ opCodes) : decode (.ofFields op c a b) = .error .unknownOp := by
  have hnum : op.toNat ∉ opCodes.map BitVec.toNat :=
    fun hmem => h ((List.mem_map_of_injective BitVec.toNat_injective).mp hmem)
  unfold decode
  rw [CmdWord.ofFields_op]
  split
  case h_18 => rfl
  all_goals
    next hop => exact absurd (hop ▸ by decide) hnum

end

/-- Every command word has one of the op codes of R70, with any value of the other fields, or none of them. -/
theorem CmdWord.rowCases {P : CmdWord → Prop}
    (csumCalc : ∀ c a b, P (.ofFields 0x10#8 c a b)) (hexDec : ∀ c a b, P (.ofFields 0x20#8 c a b))
    (hexEnc : ∀ c a b, P (.ofFields 0x21#8 c a b)) (binEnc : ∀ c a b, P (.ofFields 0x30#8 c a b))
    (binDec : ∀ c a b, P (.ofFields 0x31#8 c a b)) (rleEnc : ∀ c a b, P (.ofFields 0x40#8 c a b))
    (wrInit : ∀ c a b, P (.ofFields 0x50#8 c a b)) (wrPush : ∀ c a b, P (.ofFields 0x51#8 c a b))
    (wrPushAck : ∀ c a b, P (.ofFields 0x52#8 c a b)) (wrFinish : ∀ c a b, P (.ofFields 0x53#8 c a b))
    (rxRecv : ∀ c a b, P (.ofFields 0x60#8 c a b)) (tokInit : ∀ c a b, P (.ofFields 0x70#8 c a b))
    (tokAdv : ∀ c a b, P (.ofFields 0x71#8 c a b)) (tokRewind : ∀ c a b, P (.ofFields 0x72#8 c a b))
    (bufLd : ∀ c a b, P (.ofFields 0x80#8 c a b)) (bufSt : ∀ c a b, P (.ofFields 0x81#8 c a b))
    (csrRd : ∀ c a b, P (.ofFields 0x90#8 c a b))
    (other : ∀ op c a b, op ∉ opCodes → P (.ofFields op c a b)) (w : CmdWord) : P w := by
  rw [← CmdWord.ofFields_self w]
  generalize w.op = op, w.c = c, w.a = a, w.b = b
  by_cases hop : op ∈ opCodes
  · simp only [opCodes, List.mem_cons, List.not_mem_nil, or_false] at hop
    obtain rfl | rfl | rfl | rfl | rfl | rfl | rfl | rfl | rfl | rfl | rfl | rfl | rfl | rfl | rfl | rfl | rfl := hop
    exacts [csumCalc c a b, hexDec c a b, hexEnc c a b, binEnc c a b, binDec c a b, rleEnc c a b, wrInit c a b,
      wrPush c a b, wrPushAck c a b, wrFinish c a b, rxRecv c a b, tokInit c a b, tokAdv c a b, tokRewind c a b,
      bufLd c a b, bufSt c a b, csrRd c a b]
  · exact other op c a b hop

/-! ## The two round trips -/

/-- Settles O1: the word of each operation meets the condition of its row of R72. -/
theorem decodeOfEncodeIsTheInstruction : Obligations.DecodeOfEncodeIsTheInstruction := by
  intro i hwf
  cases i with
  | csumCalc base len => exact decode_csumCalc_iff.mpr ⟨rfl, rfl⟩
  | hexDec c0 c1 avail => exact decode_hexDec_iff.mpr ⟨c1, rfl, rfl⟩
  | hexEnc v => exact decode_hexEnc_iff.mpr ⟨rfl, rfl, rfl⟩
  | binEnc v => exact decode_binEnc_iff.mpr ⟨rfl, rfl, rfl⟩
  | binDec e => exact decode_binDec_iff.mpr ⟨rfl, rfl, rfl⟩
  | rleEnc base len => exact decode_rleEnc_iff.mpr ⟨rfl, rfl⟩
  | wrInit t => exact decode_wrInit_iff.mpr ⟨rfl, rfl, t, rfl, rfl⟩
  | wrPush v => exact decode_wrPush_iff.mpr ⟨rfl, rfl, rfl⟩
  | wrPushAck f => exact decode_wrPushAck_iff.mpr ⟨rfl, rfl, f, rfl, rfl⟩
  | wrFinish => exact decode_wrFinish_iff.mpr ⟨rfl, rfl, rfl, rfl⟩
  | rxRecv t base max => exact decode_rxRecv_iff.mpr ⟨t, rfl, rfl⟩
  | tokInit t base len => exact decode_tokInit_iff.mpr ⟨t, rfl, rfl⟩
  | tokAdv m d => exact decode_tokAdv_iff.mpr ⟨rfl, m, ⟨rfl, hwf⟩, rfl⟩
  | tokRewind => exact decode_tokRewind_iff.mpr ⟨rfl, rfl, rfl, rfl⟩
  | bufLd idx => exact decode_bufLd_iff.mpr ⟨rfl, rfl, rfl⟩
  | bufSt idx v => exact decode_bufSt_iff.mpr ⟨rfl, rfl⟩
  | csrRd num => exact decode_csrRd_iff.mpr ⟨rfl, rfl, rfl⟩

/-- Settles O2: a word that meets the condition of its row is the word of the operation of that row. -/
theorem encodeOfDecodeIsTheWord : Obligations.EncodeOfDecodeIsTheWord := by
  intro w i h
  cases w using CmdWord.rowCases with
  | csumCalc c a b => obtain ⟨rfl, rfl⟩ := decode_csumCalc_iff.mp h; exact ⟨rfl, rfl⟩
  | hexDec c a b => obtain ⟨v, rfl, rfl⟩ := decode_hexDec_iff.mp h; exact ⟨rfl, rfl⟩
  | hexEnc c a b => obtain ⟨rfl, rfl, rfl⟩ := decode_hexEnc_iff.mp h; exact ⟨rfl, rfl⟩
  | binEnc c a b => obtain ⟨rfl, rfl, rfl⟩ := decode_binEnc_iff.mp h; exact ⟨rfl, rfl⟩
  | binDec c a b => obtain ⟨rfl, rfl, rfl⟩ := decode_binDec_iff.mp h; exact ⟨rfl, rfl⟩
  | rleEnc c a b => obtain ⟨rfl, rfl⟩ := decode_rleEnc_iff.mp h; exact ⟨rfl, rfl⟩
  | wrInit c a b => obtain ⟨rfl, rfl, t, rfl, rfl⟩ := decode_wrInit_iff.mp h; exact ⟨rfl, rfl⟩
  | wrPush c a b => obtain ⟨rfl, rfl, rfl⟩ := decode_wrPush_iff.mp h; exact ⟨rfl, rfl⟩
  | wrPushAck c a b => obtain ⟨rfl, rfl, f, rfl, rfl⟩ := decode_wrPushAck_iff.mp h; exact ⟨rfl, rfl⟩
  | wrFinish c a b => obtain ⟨rfl, rfl, rfl, rfl⟩ := decode_wrFinish_iff.mp h; exact ⟨rfl, rfl⟩
  | rxRecv c a b => obtain ⟨t, rfl, rfl⟩ := decode_rxRecv_iff.mp h; exact ⟨rfl, rfl⟩
  | tokInit c a b => obtain ⟨t, rfl, rfl⟩ := decode_tokInit_iff.mp h; exact ⟨rfl, rfl⟩
  | tokAdv c a b => obtain ⟨rfl, m, ⟨rfl, hd⟩, rfl⟩ := decode_tokAdv_iff.mp h; exact ⟨rfl, hd⟩
  | tokRewind c a b => obtain ⟨rfl, rfl, rfl, rfl⟩ := decode_tokRewind_iff.mp h; exact ⟨rfl, rfl⟩
  | bufLd c a b => obtain ⟨rfl, rfl, rfl⟩ := decode_bufLd_iff.mp h; exact ⟨rfl, rfl⟩
  | bufSt c a b => obtain ⟨rfl, rfl⟩ := decode_bufSt_iff.mp h; exact ⟨rfl, rfl⟩
  | csrRd c a b => obtain ⟨rfl, rfl, rfl⟩ := decode_csrRd_iff.mp h; exact ⟨rfl, rfl⟩
  | other op c a b hop => rw [decode_of_not_mem_opCodes hop] at h; cases h

theorem decode_encode {i : Instr} (h : i.WellFormed) : decode (encode i) = .ok i :=
  decodeOfEncodeIsTheInstruction i h

/-- The second character of `HEX.DEC` stands in the low byte of operand `a` (R72). -/
theorem encode_hexDec (v w : Byte) (avail : Idx) :
    encode (.hexDec v w avail) = 0x20#8 ++ v ++ (0x00#8 ++ w) ++ avail := by
  rw [encode, CmdWord.ofFields, BitVec.setWidth_eq_append (by decide)]
  rfl

/-- Settles O4: each word of the list is the word of its operation, field by field. -/
theorem wordsOfTheSpecDecode : Obligations.WordsOfTheSpecDecode := by
  refine ⟨fun base len idx avail v w => ?_, ?_⟩
  · exact ⟨decode_encode (i := .csumCalc base len) rfl,
      encode_hexDec v w avail ▸ decode_encode (i := .hexDec v w avail) rfl,
      decode_encode (i := .hexEnc v) rfl, decode_encode (i := .binEnc v) rfl, decode_encode (i := .binDec v) rfl,
      decode_encode (i := .rleEnc base len) rfl, decode_encode (i := .wrInit .ack) rfl,
      decode_encode (i := .wrInit .msg) rfl, decode_encode (i := .wrInit .notif) rfl,
      decode_encode (i := .wrPush v) rfl, decode_encode (i := .wrPushAck false) rfl,
      decode_encode (i := .wrPushAck true) rfl, decode_encode (i := .wrFinish) rfl,
      decode_encode (i := .rxRecv .ack base len) rfl, decode_encode (i := .rxRecv .msg base len) rfl,
      decode_encode (i := .rxRecv .notif base len) rfl, decode_encode (i := .tokInit .ack base len) rfl,
      decode_encode (i := .tokInit .msg base len) rfl, decode_encode (i := .tokInit .notif base len) rfl,
      decode_encode (i := .tokAdv .literal v) rfl, decode_encode (i := .tokAdv .single 0) rfl,
      decode_encode (i := .tokAdv .toEnd 0) rfl, decode_encode (i := .tokRewind) rfl,
      decode_encode (i := .bufLd idx) rfl, decode_encode (i := .bufSt idx v) rfl, decode_encode (i := .csrRd v) rfl⟩
  · exact ⟨decode_encode (i := .rxRecv .msg 0 32) rfl, decode_encode (i := .hexDec 0x41 0x42 2) rfl,
      decode_encode (i := .wrPushAck false) rfl, decode_encode (i := .tokAdv .literal 0x2C) rfl,
      decode_encode (i := .bufSt 0 0x41) rfl⟩

end Sys2Proof

namespace Sys2Proof.Machine

/-! ## The legal words -/

/-- A mask that keeps the bits from `n` on leaves 0 exactly where the number is below `2 ^ n`. -/
theorem and_highMask_eq_zero_iff {w : Nat} (x : BitVec w) (n : Nat) :
    x &&& BitVec.allOnes w <<< n = 0#w ↔ x.toNat < 2 ^ n := by
  have hpow : 2 ^ n ≠ 0 := (Nat.two_pow_pos n).ne'
  rw [← BitVec.shiftLeft_ushiftRight, ← BitVec.toNat_inj, BitVec.toNat_shiftLeft, BitVec.toNat_ushiftRight,
    Nat.shiftLeft_eq, Nat.shiftRight_eq_div_pow, Nat.mod_eq_of_lt ((Nat.div_mul_le_self _ _).trans_lt x.isLt),
    BitVec.toNat_zero, Nat.mul_eq_zero, or_iff_left hpow, Nat.div_eq_zero_iff, or_iff_right hpow]

/-! The field masks of spec/opcode_table.json. -/

theorem byte_and_FE {c : Byte} : c &&& 0xFE#8 = 0#8 ↔ c.toNat < 2 := and_highMask_eq_zero_iff c 1
theorem byte_and_FC {c : Byte} : c &&& 0xFC#8 = 0#8 ↔ c.toNat < 4 := and_highMask_eq_zero_iff c 2
theorem byte_and_FF {c : Byte} : c &&& 0xFF#8 = c := BitVec.and_allOnes
theorem idx_and_FFFC {a : Idx} : a &&& 0xFFFC#16 = 0#16 ↔ a.toNat < 4 := and_highMask_eq_zero_iff a 2
theorem idx_and_FF00 {a : Idx} : a &&& 0xFF00#16 = 0#16 ↔ a.toNat < 256 := and_highMask_eq_zero_iff a 8
theorem idx_and_FFFF {a : Idx} : a &&& 0xFFFF#16 = a := BitVec.and_allOnes

/-- The legal words, read as conditions on the fields: the rows of spec/opcode_table.json (R70, R72) less the words that
R74 reserves all the same. -/
theorem legalWord_ofFields_iff {op c : Byte} {a b : Idx} :
    legalWord (.ofFields op c a b) = true ↔
      (op = 0x10 ∧ c = 0 ∨ op = 0x20 ∧ a.toNat < 256 ∨ op = 0x21 ∧ a = 0 ∧ b = 0 ∨ op = 0x30 ∧ a = 0 ∧ b = 0 ∨
        op = 0x31 ∧ a = 0 ∧ b = 0 ∨ op = 0x40 ∧ c = 0 ∨ op = 0x50 ∧ c.toNat < 4 ∧ a = 0 ∧ b = 0 ∨
        op = 0x51 ∧ a = 0 ∧ b = 0 ∨ op = 0x52 ∧ c.toNat < 2 ∧ a = 0 ∧ b = 0 ∨ op = 0x53 ∧ c = 0 ∧ a = 0 ∧ b = 0 ∨
        op = 0x60 ∧ c.toNat < 4 ∨ op = 0x70 ∧ c.toNat < 4 ∨ op = 0x71 ∧ a.toNat < 4 ∧ b = 0 ∨
        op = 0x72 ∧ c = 0 ∧ a = 0 ∧ b = 0 ∨ op = 0x80 ∧ c = 0 ∧ b = 0 ∨ op = 0x81 ∧ b = 0 ∨
        op = 0x90 ∧ a = 0 ∧ b = 0) ∧
      ¬((op = 0x50 ∨ op = 0x60 ∨ op = 0x70) ∧ c = 3 ∨ op = 0x71 ∧ (a = 3 ∨ a ≠ 0 ∧ c ≠ 0)) := by
  rw [legalWord, Bool.and_eq_true]
  apply and_congr
  · simp only [opcodeRows, List.any_cons, List.any_nil, Bool.or_eq_true, beq_iff_eq, CmdWord.ofFields_and_eq_iff]
    simp [CmdWord.op, CmdWord.c, CmdWord.a, CmdWord.b, byte_and_FE, byte_and_FC, byte_and_FF, idx_and_FFFC,
      idx_and_FF00, idx_and_FFFF]
  · rw [Bool.not_eq_true', ← Bool.not_eq_true]
    apply not_congr
    simp [reservedInRow, CmdWord.fields_ofFields, or_assoc]

theorem exists_eq_setWidth_iff {a : Idx} : (∃ v : Byte, a = v.setWidth 16) ↔ a.toNat < 256 := by
  constructor
  · rintro ⟨v, rfl⟩
    exact (BitVec.toNat_setWidth_of_le (by decide)).trans_lt v.isLt
  · intro h
    exact ⟨BitVec.ofNatLT a.toNat h, BitVec.eq_of_toNat_eq (BitVec.toNat_setWidth_of_le (by decide)).symm⟩

theorem eq_of_toNat_lt_four {w : Nat} {x : BitVec w} (h : x.toNat < 4) :
    x = 0#w ∨ x = 1#w ∨ x = 2#w ∨ x = 3#w := by
  rw [← BitVec.setWidth_eq x, ← BitVec.ofNat_toNat]
  generalize x.toNat = n at h
  interval_cases n <;> simp

theorem exists_packetType_iff {c : Byte} : (∃ t : PacketType, c = t.code.setWidth 8) ↔ c.toNat < 4 ∧ c ≠ 3 := by
  constructor
  · rintro ⟨t, rfl⟩
    cases t <;> decide
  · rintro ⟨hlt, hne⟩
    obtain rfl | rfl | rfl | rfl := eq_of_toNat_lt_four hlt
    · exact ⟨.ack, rfl⟩
    · exact ⟨.msg, rfl⟩
    · exact ⟨.notif, rfl⟩
    · exact absurd rfl hne

/-- The flag of `WR.PUSHACK` is 0 or 1 (R72). -/
theorem exists_flag_iff {c : Byte} : (∃ f : Bool, c = if f then 1#8 else 0#8) ↔ c.toNat < 2 := by
  constructor
  · rintro ⟨f, rfl⟩
    cases f <;> decide
  · intro h
    obtain rfl | rfl | rfl | rfl := eq_of_toNat_lt_four (h.trans (by decide))
    · exact ⟨false, rfl⟩
    · exact ⟨true, rfl⟩
    · exact absurd h (by decide)
    · exact absurd h (by decide)

/-- The delimiter modes with the delimiter bytes they allow (R72, R73). -/
theorem exists_delimMode_iff {a : Idx} {c : Byte} :
    (∃ m : DelimMode, a = m.code.setWidth 16 ∧ m.allowsDelim c = true) ↔
      a.toNat < 4 ∧ a ≠ 3 ∧ (a ≠ 0 → c = 0) := by
  constructor
  · rintro ⟨m, rfl, hc⟩
    cases m with
    | literal => exact ⟨by decide, by decide, fun h => absurd rfl h⟩
    | single => exact ⟨by decide, by decide, fun _ => beq_iff_eq.mp hc⟩
    | toEnd => exact ⟨by decide, by decide, fun _ => beq_iff_eq.mp hc⟩
  · rintro ⟨hlt, hne, hc⟩
    obtain rfl | rfl | rfl | rfl := eq_of_toNat_lt_four hlt
    · exact ⟨.literal, rfl, rfl⟩
    · exact ⟨.single, rfl, beq_iff_eq.mpr (hc (by decide))⟩
    · exact ⟨.toEnd, rfl, beq_iff_eq.mpr (hc (by decide))⟩
    · exact absurd rfl hne

/-- Settles O3: row by row, the condition of the table is the condition of the decoder. -/
theorem exactlyTheLegalWordsDecode : Obligations.ExactlyTheLegalWordsDecode := by
  intro w
  cases w using CmdWord.rowCases with
  | csumCalc c a b => simp [decode_csumCalc_iff, legalWord_ofFields_iff]
  | hexDec c a b => simp [decode_hexDec_iff, legalWord_ofFields_iff, exists_eq_setWidth_iff]
  | hexEnc c a b => simp [decode_hexEnc_iff, legalWord_ofFields_iff]
  | binEnc c a b => simp [decode_binEnc_iff, legalWord_ofFields_iff]
  | binDec c a b => simp [decode_binDec_iff, legalWord_ofFields_iff]
  | rleEnc c a b => simp [decode_rleEnc_iff, legalWord_ofFields_iff]
  | wrInit c a b =>
    simp [decode_wrInit_iff, legalWord_ofFields_iff, exists_packetType_iff]
    tauto
  | wrPush c a b => simp [decode_wrPush_iff, legalWord_ofFields_iff]
  | wrPushAck c a b =>
    simp [decode_wrPushAck_iff, legalWord_ofFields_iff, exists_flag_iff, -Bool.exists_bool]
    tauto
  | wrFinish c a b => simp [decode_wrFinish_iff, legalWord_ofFields_iff]
  | rxRecv c a b => simp [decode_rxRecv_iff, legalWord_ofFields_iff, exists_packetType_iff]
  | tokInit c a b => simp [decode_tokInit_iff, legalWord_ofFields_iff, exists_packetType_iff]
  | tokAdv c a b =>
    simp [decode_tokAdv_iff, legalWord_ofFields_iff, exists_delimMode_iff]
    tauto
  | tokRewind c a b => simp [decode_tokRewind_iff, legalWord_ofFields_iff]
  | bufLd c a b => simp [decode_bufLd_iff, legalWord_ofFields_iff]
  | bufSt c a b => simp [decode_bufSt_iff, legalWord_ofFields_iff]
  | csrRd c a b => simp [decode_csrRd_iff, legalWord_ofFields_iff]
  | other op c a b hop =>
    simp only [opCodes, List.mem_cons, List.not_mem_nil, or_false, not_or] at hop
    simp [decode_of_not_mem_opCodes, opCodes, legalWord_ofFields_iff, hop]

/-! ## The step at a reserved word -/

/-- Settles O6: a word that is not legal does not decode, so the engine raises the fault of R74. -/
theorem reservedWordRaisesIllegalCommand : Obligations.ReservedWordRaisesIllegalCommand := by
  intro s w rest hhost hbusy hclear hlegal
  refine ⟨_, ?_, State.onlyFaults_raise { s with host := rest } .illegalCommand⟩
  rw [step_command hhost hbusy, runCommand]
  cases hdecode : decode w with
  | ok i =>
    have := (exactlyTheLegalWordsDecode w).mp ⟨i, hdecode⟩
    rw [hlegal] at this
    cases this
  | error e => exact unlessFaulted_clear (s := { s with host := rest }) hclear _

/-! ## The response word -/

/-- A field of a field is a field of the whole. -/
theorem extractLsb'_extractLsb' {w : Nat} (x : BitVec w) (i j : Nat) {m n : Nat} (h : j + m ≤ n) :
    (x.extractLsb' i n).extractLsb' j m = x.extractLsb' (i + j) m := by
  ext k hk
  simp [show j + k < n by omega, Nat.add_assoc]

/-- Settles O16: the first result of a raised fault is the byte of the cause, zero-extended. -/
theorem responseWordHasItsFields : Obligations.ResponseWordHasItsFields := by
  refine ⟨fun st r0 r1 => fields_append st.code r0 r1, by decide, by decide, fun s c => ⟨rfl, _, rfl, ?_⟩⟩
  obtain ⟨hstatus, hr0, hr1⟩ := fields_append Status.fault.code (byteField c.code) 0
  obtain ⟨hhigh, hlow⟩ := eq_setWidth_iff.mp (rfl : byteField c.code = c.code.setWidth 16)
  rw [← hr0, extractLsb'_extractLsb' _ _ _ (by decide)] at hhigh hlow
  exact ⟨hstatus, hhigh, hlow.symm, hr1⟩

end Sys2Proof.Machine

/-! # The checksum unit -/

namespace Sys2Proof.Machine

/-- With its checks passed, `CSUM.CALC` only answers (R101). -/
theorem exec_csumCalc_of_checks {s : State} {base len : Idx} (hf : s.fstat.fault = false)
    (hwin : base.toNat + len.toNat ≤ s.params.cap.toNat) :
    exec (.csumCalc base len) s =
      .next (s.answer .ok (byteField (csum (s.bytes base.toNat len.toNat))) 0) := by
  rw [exec, execCsumCalc, unlessFaulted_clear hf, (windowLegal_iff _ _ _).mpr hwin, check_true]

/-- Settles O20: the answer is the fold of R100, which is the sum modulo 256. -/
theorem csumCalcSumsItsWindow : Obligations.CsumCalcSumsItsWindow := by
  intro s base len hclear hwin
  refine ⟨_, exec_csumCalc_of_checks hclear hwin, ?_⟩
  rw [byteField_eq, csum_toNat]
  exact s.onlyResponds_answer _ _ _

theorem sumMod256_append (xs ys : List Byte) :
    sumMod256 (xs ++ ys) = (sumMod256 xs + sumMod256 ys) % 256 := by
  rw [sumMod256, List.map_append, List.sum_append, Nat.add_mod, ← sumMod256, ← sumMod256]

/-- Settles O21: the checksum is the sum modulo 256, and that is additive. -/
theorem checksumIsAdditive : Obligations.ChecksumIsAdditive := by
  intro x y
  rw [csum_toNat, csum_toNat, csum_toNat, sumMod256_append]

end Sys2Proof.Machine

/-! # The hex codec -/

namespace Sys2Proof.Machine

/-- The byte of two digits, as a result (R112). -/
theorem byteField_ofNat_of_digits {c0 c1 : Byte} {h l : Nat} (h0 : IsHexDigit c0 h) (h1 : IsHexDigit c1 l) :
    byteField (BitVec.ofNat 8 (h * 16 + l)) = BitVec.ofNat 16 (h * 16 + l) := by
  have hlt : h * 16 + l < 2 ^ 8 := by
    have := h0.lt
    have := h1.lt
    omega
  rw [byteField_eq, BitVec.toNat_ofNat, Nat.mod_eq_of_lt hlt]

section
variable {s : State} {c0 c1 : Byte} {avail : Idx}

/-- With two digits available, `HEX.DEC` answers their byte (R112). -/
theorem exec_hexDec_of_digits {h l : Nat} (hf : s.fstat.fault = false) (havail : 2 ≤ avail.toNat)
    (h0 : IsHexDigit c0 h) (h1 : IsHexDigit c1 l) :
    exec (.hexDec c0 c1 avail) s = .next (s.answer .ok (BitVec.ofNat 16 (h * 16 + l)) 0) := by
  rw [exec, execHexDec, unlessFaulted_clear hf, if_neg (not_lt.mpr havail), hexPair_of_digits h0 h1,
    ← byteField_ofNat_of_digits h0 h1]

/-- With fewer than two characters, or with a character that is no digit, `HEX.DEC` answers `Invalid` (R112). -/
theorem exec_hexDec_of_invalid (hf : s.fstat.fault = false)
    (hbad : avail.toNat < 2 ∨ (¬ ∃ h, IsHexDigit c0 h) ∨ (¬ ∃ l, IsHexDigit c1 l)) :
    exec (.hexDec c0 c1 avail) s = .next (s.answer .invalid 0 0) := by
  rw [exec, execHexDec, unlessFaulted_clear hf]
  by_cases hshort : avail.toNat < 2
  · exact if_pos hshort
  · rw [if_neg hshort, hexPair_of_not (hbad.resolve_left hshort)]

/-- `HEX.ENC` answers the digits of the two nibbles (R115). -/
theorem exec_hexEnc (hf : s.fstat.fault = false) (v : Byte) :
    exec (.hexEnc v) s = .next (s.answer .ok (byteField (hexHigh v)) (byteField (hexLow v))) := by
  rw [exec, execHexEnc, unlessFaulted_clear hf]

/-- Decoding the digits of a byte gives the byte back (R116). -/
theorem exec_hexDec_hexHigh_hexLow (hf : s.fstat.fault = false) (b : Byte) :
    exec (.hexDec (hexHigh b) (hexLow b) 2) s = .next (s.answer .ok (byteField b) 0) := by
  rw [exec_hexDec_of_digits hf (by decide) (hexHigh_upper b).isHexDigit (hexLow_upper b).isHexDigit,
    Nat.div_add_mod', byteField_eq]

end

/-- Settles O22: whether there are two digits decides the answer. -/
theorem hexDecDecodesTwoDigits : Obligations.HexDecDecodesTwoDigits := by
  intro s c0 c1 avail hclear
  constructor
  · intro h l havail h0 h1
    exact ⟨_, exec_hexDec_of_digits hclear havail h0 h1, s.onlyResponds_answer _ _ _⟩
  · intro hbad
    exact ⟨_, exec_hexDec_of_invalid hclear hbad, s.onlyResponds_answer _ _ _⟩

/-- Settles O23: the characters are the upper-case digits of the two nibbles. -/
theorem hexEncGivesUpperCaseDigits : Obligations.HexEncGivesUpperCaseDigits := by
  intro s v hclear
  exact ⟨hexHigh v, hexLow v, _, exec_hexEnc hclear v, s.onlyResponds_answer _ _ _, hexHigh_upper v, hexLow_upper v⟩

/-- Settles O24: the digits of a byte decode to it, and a lower-case pair decodes to a byte whose digits are
upper-case. -/
theorem hexDecUndoesHexEnc : Obligations.HexDecUndoesHexEnc := by
  intro s b hclear
  constructor
  · exact ⟨hexHigh b, hexLow b, _, _, exec_hexEnc hclear b, s.onlyResponds_answer _ _ _,
      exec_hexDec_hexHigh_hexLow (s := s.answer _ _ _) hclear b, State.onlyResponds_answer _ _ _ _⟩
  · have ha : IsHexDigit 0x61 10 := .inr ⟨by decide, by decide, .inr rfl⟩
    have hb : IsHexDigit 0x62 11 := .inr ⟨by decide, by decide, .inr rfl⟩
    exact ⟨_, _, exec_hexDec_of_digits hclear (by decide) ha hb, s.onlyResponds_answer _ _ _,
      exec_hexEnc hclear 0xAB, s.onlyResponds_answer _ _ _⟩

end Sys2Proof.Machine

/-! # The binary escape codec -/

namespace Sys2Proof.Machine

/-- The XOR of R122 is undone by the XOR of R123. -/
theorem xor_escXor_cancel (v : Byte) : v ^^^ escXor ^^^ escXor = v := by
  rw [BitVec.xor_assoc, BitVec.xor_self, BitVec.xor_zero]

/-- A byte that needs the escape is put out as a pair (R122). -/
theorem escapeByte_of_needsEscape {p : Params} {v : Byte} (h : needsEscape p v = true) :
    escapeByte p v = [0x7D, v ^^^ escXor] :=
  if_pos h

/-- Any other byte is put out as itself (R122). -/
theorem escapeByte_of_not_needsEscape {p : Params} {v : Byte} (h : ¬ needsEscape p v = true) :
    escapeByte p v = [v] :=
  if_neg h

section
variable {s : State} {v x y : Byte}

/-- `BIN.ENC` answers count 2 and both bytes of a pair (R122). -/
theorem exec_binEnc_of_pair (hf : s.fstat.fault = false) (hout : escapeByte s.params v = [x, y]) :
    exec (.binEnc v) s = .next (s.answer .ok 2 (y ++ x)) := by
  rw [exec, execBinEnc, unlessFaulted_clear hf, hout]
  rfl

/-- `BIN.ENC` answers count 1 and a byte put out alone, with 0 for the second byte (R122). -/
theorem exec_binEnc_of_single (hf : s.fstat.fault = false) (hout : escapeByte s.params v = [x]) :
    exec (.binEnc v) s = .next (s.answer .ok 1 ((0 : Byte) ++ x)) := by
  rw [exec, execBinEnc, unlessFaulted_clear hf, hout]
  rfl

/-- `BIN.DEC` answers its operand XOR 0x20 (R123). -/
theorem exec_binDec (hf : s.fstat.fault = false) (e : Byte) :
    exec (.binDec e) s = .next (s.answer .ok (byteField (e ^^^ escXor)) 0) := by
  rw [exec, execBinDec, unlessFaulted_clear hf]

/-- Decoding the second byte of an escape pair gives the byte back (R125). -/
theorem exec_binDec_xor_escXor (hf : s.fstat.fault = false) (v : Byte) :
    exec (.binDec (v ^^^ escXor)) s = .next (s.answer .ok (byteField v) 0) := by
  rw [exec_binDec hf, xor_escXor_cancel]

end

/-- Settles O27: an escape pair carries the byte XOR 0x20, and `BIN.DEC` undoes that XOR in the state `BIN.ENC`
leaves, where no fault is latched either. -/
theorem binDecUndoesBinEnc : Obligations.BinDecUndoesBinEnc := by
  intro s b hclear
  rcases escapeByte_cases s.params b with hpair | ⟨hplain, -, -⟩
  · refine ⟨_, 0x7D, b ^^^ escXor, exec_binEnc_of_pair hclear hpair, .inr ⟨s.onlyResponds_answer _ _ _, rfl, ?_⟩⟩
    exact ⟨_, exec_binDec_xor_escXor (s := s.answer _ _ _) hclear b, State.onlyResponds_answer _ _ _ _⟩
  · exact ⟨_, b, 0, exec_binEnc_of_single hclear hplain, .inl ⟨s.onlyResponds_answer _ _ _, rfl⟩⟩

/-- Unescaping takes the output for one byte off the front of a sequence and gives that byte (R126). -/
theorem unescape_escapeByte_append (p : Params) (v : Byte) (xs : List Byte) :
    unescape (escapeByte p v ++ xs) = v :: unescape xs := by
  rcases escapeByte_cases p v with hpair | ⟨hplain, hne, -⟩
  · rw [hpair]
    exact (unescape_pair _ xs).trans (congrArg (· :: unescape xs) (xor_escXor_cancel v))
  · rw [hplain]
    exact unescape_cons hne xs

/-- Settles O28, by induction on the sequence: each output is unescaped by itself. -/
theorem unescapeUndoesTheEscapeOfASequence : Obligations.UnescapeUndoesTheEscapeOfASequence := by
  intro p xs
  induction xs with
  | nil => rfl
  | cons x xs ih => rw [List.flatMap_cons, unescape_escapeByte_append, ih]

/-- Settles O25: the listed bytes are those that need the escape (R121), and that decides what is put out. -/
theorem binEncEscapesExactlyTheListedBytes : Obligations.BinEncEscapesExactlyTheListedBytes := by
  intro s v hclear
  constructor
  · intro hlisted
    have hneeds : needsEscape s.params v = true := (needsEscape_iff _ _).mpr hlisted
    exact ⟨_, exec_binEnc_of_pair hclear (escapeByte_of_needsEscape hneeds), s.onlyResponds_answer _ _ _⟩
  · intro hlow hhigh hhash hdollar hpercent hstar hescape hextra
    have hplain : ¬ needsEscape s.params v = true := by
      simp only [needsEscape_iff, not_or, not_lt]
      exact ⟨hlow, hhigh, hhash, hdollar, hpercent, hstar, hescape, hextra⟩
    exact ⟨_, exec_binEnc_of_single hclear (escapeByte_of_not_needsEscape hplain), s.onlyResponds_answer _ _ _⟩

/-- Settles O26: the answer is the operand XOR 0x20, zero-extended. -/
theorem binDecXorsWith20 : Obligations.BinDecXorsWith20 := by
  intro s e hclear
  exact ⟨_, exec_binDec hclear e, s.onlyResponds_answer _ _ _⟩

end Sys2Proof.Machine

/-! # What the run-length encoder puts out

An emission is made of entries and, at the end, of literal copies (R131); a window is made of its maximal runs (R130).
Both are said once as an induction principle, and the statements about emissions and about encodings follow from them.
The loop in place is then one write of the whole encoding. -/

namespace Sys2Proof.Machine

/-! ## The pieces of an emission -/

/-- The lengths for which R131 puts out an entry: 4 to 6 and 10 to 98. The length bytes of 7, 8 and 9 would be `#`,
`$` and `%`. -/
def IsEntryLength (n : Nat) : Prop := (4 ≤ n ∧ n ≤ 6) ∨ (10 ≤ n ∧ n ≤ 98)

theorem IsEntryLength.bounds {n : Nat} (h : IsEntryLength n) : 4 ≤ n ∧ n ≤ 98 := by
  unfold IsEntryLength at h
  omega

theorem rleShort_copies (v : Byte) {n : Nat} (h : n < 4) : rleShort v n = List.replicate n v := by
  rw [rleShort_eq, if_pos h]

theorem rleShort_entry (v : Byte) {n : Nat} (h : IsEntryLength n) : rleShort v n = rleEntry v n := by
  obtain ⟨h4, -⟩ := h.bounds
  rw [rleShort_eq, if_neg (not_lt.mpr h4)]
  rcases h with ⟨-, h6⟩ | ⟨h10, -⟩
  · rw [if_pos h6]
  · rw [if_neg (by omega), if_neg (by omega)]

theorem rleShort_entry_copies (v : Byte) {n : Nat} (h7 : 7 ≤ n) (h9 : n ≤ 9) :
    rleShort v n = rleEntry v 6 ++ List.replicate (n - 6) v := by
  rw [rleShort_eq, if_neg (by omega), if_neg (by omega), if_pos h9]

/-- The emission of a run, piece by piece: what holds of literal copies, and is kept by an entry for `n` more copies
in front, holds of every emission whose fuel suffices. -/
theorem rleRun_induction {v : Byte} {P : Nat → List Byte → Prop}
    (copies : ∀ n, P n (List.replicate n v))
    (entry : ∀ n m out, IsEntryLength n → P m out → P (n + m) (rleEntry v n ++ out))
    {k n : Nat} (hk : n ≤ 98 * k + 98) : P n (rleRun k v n) := by
  have single : ∀ n, IsEntryLength n → P n (rleEntry v n) := fun n hn => entry n 0 [] hn (copies 0)
  have short : ∀ n, n ≤ 98 → P n (rleShort v n) := by
    intro n h98
    have hrow : n < 4 ∨ IsEntryLength n ∨ (7 ≤ n ∧ n ≤ 9) := by
      unfold IsEntryLength
      omega
    rcases hrow with h4 | hn | ⟨h7, h9⟩
    · rw [rleShort_copies v h4]
      exact copies n
    · rw [rleShort_entry v hn]
      exact single n hn
    · rw [rleShort_entry_copies v h7 h9]
      have h := entry 6 (n - 6) _ (.inl ⟨by decide, le_rfl⟩) (copies (n - 6))
      rwa [Nat.add_sub_cancel' (by omega)] at h
  induction k generalizing n with
  | zero => exact short n (by omega)
  | succ k ih =>
    rw [rleRun_succ]
    split
    · have h := entry 98 (n - 98) _ (.inr ⟨by decide, le_rfl⟩) (ih (by omega))
      rwa [Nat.add_sub_cancel' (by omega)] at h
    · exact short n (by omega)

/-- Settles O30, each row of the table as a row of `rleShort`; the last is a turn of the recursion, where the fuel left
still suffices. -/
theorem runEmissionFollowsThePolicyTable : Obligations.RunEmissionFollowsThePolicyTable := by
  refine fun v n => ⟨fun ⟨_, h3⟩ => ?_, fun h => ?_, fun ⟨h7, h9⟩ => ?_, fun h => ?_, fun h98 => ?_⟩
  · rw [rleRun_short _ _ _ (by omega), rleShort_copies v (by omega)]
  · rw [rleRun_short _ _ _ (by omega), rleShort_entry v (.inl h)]
    rfl
  · rw [rleRun_short _ _ _ (by omega), rleShort_entry_copies v h7 h9]
    rfl
  · rw [rleRun_short _ _ _ (by omega), rleShort_entry v (.inr h)]
    rfl
  · obtain ⟨k, rfl⟩ : ∃ k, n = k + 1 := ⟨n - 1, by omega⟩
    rw [rleRun_succ, if_pos h98, rleRun_fuel k (k + 1 - 98) v _ (by omega) (by omega)]
    rfl

/-! ## The length bytes -/

theorem lengthByte_ne {n : Nat} (h : IsEntryLength n) {c : Byte} (hc : 0x23 ≤ c.toNat ∧ c.toNat ≤ 0x25) :
    lengthByte n ≠ c := by
  rintro rfl
  obtain ⟨h4, h98⟩ := h.bounds
  rw [lengthByte_toNat n (by omega) h98] at hc
  unfold IsEntryLength at h
  omega

theorem RunPieces.copies (v : Byte) (n : Nat) : RunPieces v (List.replicate n v) := by
  induction n with
  | zero => exact .nil
  | succ n ih => exact .literal _ ih

/-- The length byte of an entry is legal (R136). -/
theorem RunPieces.rleEntry_append {v : Byte} {n : Nat} (hn : IsEntryLength n) {out : List Byte}
    (hout : RunPieces v out) : RunPieces v (rleEntry v n ++ out) := by
  obtain ⟨h4, h98⟩ := hn.bounds
  have hbyte := lengthByte_toNat n (by omega) h98
  exact .entry _ out (by omega) (by omega) (lengthByte_ne hn (by decide)) (lengthByte_ne hn (by decide))
    (lengthByte_ne hn (by decide)) hout

/-- Settles O33, piece by piece; each of the four runs is put out as one entry. -/
theorem rleLengthBytesAreNeverForbidden : Obligations.RleLengthBytesAreNeverForbidden := by
  refine ⟨fun v n => ?_, fun v => ⟨rfl, rfl, rfl, rfl⟩⟩
  exact rleRun_induction (P := fun _ out => RunPieces v out) (RunPieces.copies v)
    (fun _ _ _ hn hout => hout.rleEntry_append hn) (by omega)

/-! ## The encoding of a window -/

@[simp] theorem rleBytes_nil : rleBytes [] = [] := rfl

/-- A sequence is empty, or it begins with its first maximal run, whose emission begins its encoding: what follows from
the rest for the whole holds of every sequence. -/
theorem runs_induction {P : List Byte → Prop} (nil : P [])
    (run : ∀ v n rest, 0 < n → rest.head? ≠ some v →
      rleBytes (List.replicate n v ++ rest) = rleRun n v n ++ rleBytes rest → P rest → P (List.replicate n v ++ rest))
    (xs : List Byte) : P xs := by
  match xs with
  | [] => exact nil
  | x :: xs =>
    obtain ⟨n, rest, hlen, hxs, hhead, hruns⟩ := runs_first x xs
    have hshort : rest.length ≤ xs.length := by
      rw [hxs, List.length_append]
      omega
    have hcons : x :: xs = List.replicate (n + 1) x ++ rest := by
      rw [hxs, List.replicate_succ, List.cons_append]
    have henc : rleBytes (x :: xs) = rleRun (n + 1) x (n + 1) ++ rleBytes rest := by
      rw [rleBytes, hruns, List.flatMap_cons, rleBytes]
    rw [hcons] at henc ⊢
    exact run x (n + 1) rest (Nat.succ_pos n) hhead henc (runs_induction nil run rest)
termination_by xs.length
decreasing_by exact Nat.lt_succ_of_le hshort

theorem rleBytes_length_le (xs : List Byte) : (rleBytes xs).length ≤ xs.length := by
  induction xs using runs_induction with
  | nil => exact le_rfl
  | run v n rest _ _ henc ih =>
    rw [henc, List.length_append, List.length_append, List.length_replicate]
    exact Nat.add_le_add (rleRun_length_le n v n) ih

/-- Settles O32: run by run, and so for the whole window. -/
theorem rleNeverExpands : Obligations.RleNeverExpands :=
  ⟨rleBytes_length_le, fun v n => rleRun_length_le n v n⟩

/-- An encoding begins with the first byte of its window. -/
theorem rleBytes_head? (xs : List Byte) : (rleBytes xs).head? = xs.head? := by
  induction xs using runs_induction with
  | nil => rfl
  | run v n rest hpos _ henc _ =>
    rw [henc, List.head?_append, rleRun_head? _ _ _ hpos, List.head?_append, List.head?_replicate,
      if_neg (by omega)]
    rfl

/-! ## The expansion -/

@[simp] theorem expand_nil : expand [] = [] := rfl

/-- A byte that no `*` follows stands for itself (R138). -/
theorem expand_cons {x : Byte} {xs : List Byte} (h : xs.head? ≠ some chStar) : expand (x :: xs) = x :: expand xs := by
  match xs with
  | [] => rfl
  | [_] => rfl
  | y :: n :: rest => exact if_neg fun hy => h (congrArg some hy)

theorem expand_copies_append {v : Byte} (hv : v ≠ chStar) (n : Nat) {rest : List Byte}
    (hrest : rest.head? ≠ some chStar) :
    expand (List.replicate n v ++ rest) = List.replicate n v ++ expand rest := by
  induction n with
  | zero => rfl
  | succ n ih =>
    have hhead : (List.replicate n v ++ rest).head? ≠ some chStar := by
      cases n with
      | zero => exact hrest
      | succ n => exact fun h => hv (Option.some.inj h)
    rw [List.replicate_succ, List.cons_append, expand_cons hhead, ih, List.cons_append]

/-- An entry stands for its run (R132, R138). -/
theorem expand_rleEntry_append {v : Byte} {n : Nat} (hn : IsEntryLength n) (rest : List Byte) :
    expand (rleEntry v n ++ rest) = List.replicate n v ++ expand rest := by
  obtain ⟨h4, h98⟩ := hn.bounds
  have hexpand : expand (rleEntry v n ++ rest) =
      List.replicate ((lengthByte n).toNat - 28) v ++ expand rest := if_pos rfl
  rw [hexpand, lengthByte_toNat n (by omega) h98, Nat.add_sub_cancel]

/-- Expanding takes the emission of a run off the front and gives the run (R138). -/
theorem expand_rleRun_append {v : Byte} (hv : v ≠ chStar) (n : Nat) {rest : List Byte}
    (hrest : rest.head? ≠ some chStar) :
    expand (rleRun n v n ++ rest) = List.replicate n v ++ expand rest := by
  refine rleRun_induction (P := fun n out => expand (out ++ rest) = List.replicate n v ++ expand rest)
    (fun n => expand_copies_append hv n hrest) (fun n m out hn ih => ?_) (by omega)
  rw [List.append_assoc, expand_rleEntry_append hn, ih, List.replicate_add, List.append_assoc]

/-- Settles O34, run by run: neither the run nor what follows its emission begins with `*`. -/
theorem rleExpandsBack : Obligations.RleExpandsBack := by
  intro xs hstar
  induction xs using runs_induction with
  | nil => rfl
  | run v n rest hpos _ henc ih =>
    rw [List.mem_append, List.mem_replicate, not_or] at hstar
    obtain ⟨hrun, hrest⟩ := hstar
    have hv : v ≠ chStar := fun h => hrun ⟨by omega, h.symm⟩
    have hhead : (rleBytes rest).head? ≠ some chStar := by
      rw [rleBytes_head?]
      exact fun h => hrest (List.mem_of_mem_head? h)
    rw [henc, expand_rleRun_append hv n hhead, ih hrest]

/-! ## The encoder in place -/

/-- Past the end of the window the loop stops. -/
theorem State.rleLoop_of_le {base len r : Nat} (h : len ≤ r) (k : Nat) (s : State) (w : Nat) :
    State.rleLoop base len k s r w = (s, w) := by
  cases k with
  | zero => rfl
  | succ k => rw [State.rleLoop_succ, if_neg (by omega)]

/-- A turn reads the whole run at the read index and writes its emission at the write index (R133). -/
theorem State.rleLoop_run {s : State} {base len r n : Nat} {v : Byte} {rest : List Byte} (hpos : 0 < n)
    (hwin : s.bytes (base + r) (len - r) = List.replicate n v ++ rest) (hhead : rest.head? ≠ some v) (k w : Nat) :
    State.rleLoop base len (k + 1) s r w =
      State.rleLoop base len k (s.setBytes (base + w) (rleRun n v n)) (r + n) (w + (rleRun n v n).length) := by
  obtain ⟨m, rfl⟩ : ∃ m, n = m + 1 := ⟨n - 1, by omega⟩
  have hlen := congrArg List.length hwin
  rw [State.bytes_length, List.length_append, List.length_replicate] at hlen
  rw [show len - r = (len - r - 1) + 1 by omega, State.bytes_succ, List.replicate_succ, List.cons_append] at hwin
  obtain ⟨hv, hmore⟩ := List.cons.inj hwin
  rw [State.rleLoop_succ, if_pos (by omega), hv, State.sameBytes_eq _ _ _ _ _ _ hmore hhead, Nat.add_comm 1 m]

/-- Behind the run at the read index stands the rest of the window, which writing the emission of the run does not
reach (R133, R135). -/
theorem State.bytes_setBytes_of_run {s : State} {base len r w n : Nat} {v : Byte} {rest : List Byte} (hw : w ≤ r)
    (hwin : s.bytes (base + r) (len - r) = List.replicate n v ++ rest) :
    (s.setBytes (base + w) (rleRun n v n)).bytes (base + (r + n)) (len - (r + n)) = rest := by
  have hlen := congrArg List.length hwin
  rw [State.bytes_length, List.length_append, List.length_replicate] at hlen
  have hout := rleRun_length_le n v n
  rw [State.bytes_congr s _ _ _ fun c hc _ => s.byteAt_setBytes_outside _ _ _ (by omega)]
  rw [show len - r = n + (len - (r + n)) by omega, State.bytes_add, Nat.add_assoc] at hwin
  exact (List.append_inj hwin (by rw [State.bytes_length, List.length_replicate])).2

/-- The loop writes the encoding of what is left of the window at the write index, as if all of it had been read
before (R133). -/
theorem State.rleLoop_eq {base len : Nat} (xs : List Byte) {s : State} {k r w : Nat}
    (hwin : s.bytes (base + r) (len - r) = xs) (hfuel : len - r ≤ k) (hw : w ≤ r) :
    State.rleLoop base len k s r w = (s.setBytes (base + w) (rleBytes xs), w + (rleBytes xs).length) := by
  induction xs using runs_induction generalizing s k r w with
  | nil =>
    have hlen := congrArg List.length hwin
    rw [State.bytes_length, List.length_nil] at hlen
    rw [State.rleLoop_of_le (by omega)]
    rfl
  | run v n rest hpos hhead henc ih =>
    have hlen := congrArg List.length hwin
    rw [State.bytes_length, List.length_append, List.length_replicate] at hlen
    have hout := rleRun_length_le n v n
    obtain ⟨k, rfl⟩ : ∃ j, k = j + 1 := ⟨k - 1, by omega⟩
    rw [State.rleLoop_run hpos hwin hhead, ih (State.bytes_setBytes_of_run hw hwin) (by omega) (by omega), henc,
      State.setBytes_append, List.length_append, Nat.add_assoc, Nat.add_assoc]

/-- With its checks passed, `RLE.ENC` writes the encoding of its window at `base` and answers its length (R133). -/
theorem exec_rleEnc_of_checks {s : State} {base len : Idx} (hf : s.fstat.fault = false)
    (hwin : base.toNat + len.toNat ≤ s.params.cap.toNat) {out : List Byte}
    (hout : out = rleBytes (s.bytes base.toNat len.toNat)) :
    exec (.rleEnc base len) s =
      .next ((s.setBytes base.toNat out).answer .ok (BitVec.ofNat 16 out.length) 0) := by
  have hloop := State.rleLoop_eq (base := base.toNat) (len := len.toNat) (s := s) (r := 0) _ rfl le_rfl le_rfl
  rw [Nat.add_zero, Nat.sub_zero, Nat.zero_add, ← hout] at hloop
  rw [exec, execRleEnc, unlessFaulted_clear hf, (windowLegal_iff _ _ _).mpr hwin, check_true, hloop]

/-- Settles O31: the encoder is one write of the encoding, and a write of bytes changes nothing but those bytes. -/
theorem rleEncInPlaceEncodesTheRuns : Obligations.RleEncInPlaceEncodesTheRuns := by
  intro s base len hclear hwin
  refine ⟨_, _, exec_rleEnc_of_checks hclear hwin rfl, rfl, State.responds_answer _ _ _ _, ?_, fun a ha => ?_, ?_⟩
  · rw [State.bytes_answer, State.bytes_setBytes]
  · rw [State.byteAt_answer, State.byteAt_setBytes_outside _ _ _ _ ha]
  · rw [State.setBytes_eq]
    exact ⟨⟨rfl, rfl, rfl⟩, ⟨rfl, rfl, rfl⟩, ⟨rfl, rfl, rfl, rfl⟩⟩

end Sys2Proof.Machine

/-! # The packet writer

An operation of the writer is a flush of the lookahead buffer and an update of its registers. What the flush leaves,
whether the sink accepts every byte or stops it after some, is `State.flushed`. -/

namespace Sys2Proof.Machine

section
variable {s t : State} {i : Instr} {j : Nat} {low : BitVec 15} {rest : List SinkAnswer}

/-! ## What a writer operation leaves unchanged -/

theorem State.updateWriter_keeps (s : State) (w : Wr) (l : List SinkAnswer) (sent : List Byte) :
    KeepsAllButWr s { s with wr := w, sink := l, sent := sent } :=
  ⟨⟨rfl, rfl, rfl⟩, rfl, rfl, rfl, rfl, fun _ => rfl⟩

theorem KeepsAllButWr.answer (h : KeepsAllButWr s t) (st : Status) (r0 r1 : Idx) :
    KeepsAllButWr s (t.answer st r0 r1) :=
  ⟨⟨h.outside.params, h.outside.seed, h.outside.host⟩, h.src, h.fstat, h.rx, h.tok, h.buf⟩

theorem KeepsAllButWr.trans {u : State} (h : KeepsAllButWr s t) (h' : KeepsAllButWr t u) : KeepsAllButWr s u :=
  ⟨⟨h'.outside.params.trans h.outside.params, h'.outside.seed.trans h.outside.seed,
      h'.outside.host.trans h.outside.host⟩,
    h'.src.trans h.src, h'.fstat.trans h.fstat, h'.rx.trans h.rx, h'.tok.trans h.tok,
    fun a => (h'.buf a).trans (h.buf a)⟩

/-! ## Starting a packet -/

/-- `WR.INIT` queues the marker of the type, and nothing for an Ack packet (R151). -/
theorem Wr.init_queued (w : Wr) (ty : PacketType) : (w.init ty).queued = (leadingMarker ty).toList := by
  cases ty <;> rfl

/-- Every register but the lookahead buffer starts afresh, whatever the type (R151). -/
theorem Wr.init_progress (w : Wr) (ty : PacketType) :
    KeepsWrProgress (w.started ty) (w.init ty) ∧ (w.init ty).trailer = false := by
  cases ty <;> exact ⟨⟨rfl, rfl, rfl, rfl, rfl⟩, rfl⟩

theorem exec_wrInit (hc : s.fstat.fault = false) (ty : PacketType) :
    exec (.wrInit ty) s = .next ({ s with wr := s.wr.init ty }.answer .ok 0 0) := by
  rw [exec, execWrInit, unlessFaulted_clear hc]

end

/-- Settles O35: the queue holds the leading marker of the type, if it has one. -/
theorem wrInitQueuesTheMarker : Obligations.WrInitQueuesTheMarker := by
  intro s ty hc
  obtain ⟨⟨hv, ht, hcsum, hf, ha⟩, htr⟩ := s.wr.init_progress ty
  have hq := s.wr.init_queued ty
  refine ⟨_, exec_wrInit hc ty, State.responds_answer _ _ _ _, hv, ht, hcsum, hf, ha, htr, ?_, ?_, ?_,
    (s.updateWriter_keeps _ _ _).answer _ _ _, rfl, rfl⟩
  all_goals
    rintro rfl
    exact hq

section
variable {s t : State} {i : Instr} {j : Nat} {low : BitVec 15} {rest : List SinkAnswer}

/-! ## A sink that accepts every byte -/

/-- A flush that the sink does not stop has sent the whole queue (R152). -/
theorem State.flushed_queue_sent (s : State) (rest : List SinkAnswer) :
    (s.flushed s.wr.laN.toNat rest).sent = s.sent ++ s.wr.queued := by
  rw [(s.stoppedInQueue_flushed _ rest le_rfl).sent, ← s.wr.queued_length, List.take_length]

/-- Where the sink takes the whole queue, `WR.PUSH` goes on to hold its byte back (R153). -/
theorem exec_wrPush_done (hc : s.fstat.fault = false) (hv : s.wr.valid = true) (hf : s.wr.finished = false)
    (ht : s.wr.type ≠ .ack) (htr : s.wr.trailer = false)
    (hs : s.sink = List.replicate s.wr.laN.toNat .done ++ rest) (v : Byte) :
    exec (.wrPush v) s =
      .next (State.answer { s.flushed s.wr.laN.toNat rest with
        wr := (s.wr.shiftN s.wr.laN.toNat).accept v } .ok 0 0) := by
  rw [exec_wrPush_of_checks hc hv hf ht htr, State.flush_done hs, afterSends_done]
  rfl

/-- A sink that takes the ack byte ends `WR.PUSHACK` (R154). -/
theorem exec_wrPushAck_done (hc : s.fstat.fault = false) (hv : s.wr.valid = true) (hf : s.wr.finished = false)
    (ht : s.wr.type = .ack) (ha : s.wr.ackSent = false) (hs : s.sink = .done :: rest) (f : Bool) :
    exec (.wrPushAck f) s = .next (State.answer { s with
      wr := { s.wr with ackSent := true }, sink := rest, sent := s.sent ++ [ackByte f] } .ok 0 0) := by
  rw [exec_wrPushAck_of_checks hc hv hf ht ha, State.sinkSend, hs, afterSends_done]

/-- An Ack packet whose ack has been pushed is complete without a request (R155). -/
theorem exec_wrFinish_of_ack (hc : s.fstat.fault = false) (hv : s.wr.valid = true) (hf : s.wr.finished = false)
    (ht : s.wr.type = .ack) (ha : s.wr.ackSent = true) :
    exec .wrFinish s = .next ({ s with wr := s.wr.finish }.answer .ok 0 0) := by
  rw [exec, execWrFinish, unlessFaulted_clear hc, hv, check_true, hf, Bool.not_false, check_true, if_pos ht, ha,
    check_true]

/-- A sink that takes the whole trailer completes the packet (R155). -/
theorem State.finishTrailer_done (hs : s.sink = List.replicate s.wr.laN.toNat .done ++ rest) :
    s.finishTrailer =
      State.answer { s.flushed s.wr.laN.toNat rest with wr := (s.wr.shiftN s.wr.laN.toNat).finish } .ok 0 0 := by
  rw [State.finishTrailer, State.flush_done hs, afterSends_done]
  rfl

/-- A queue that is the trailer of an earlier attempt is all that `WR.FINISH` has to send (R155). -/
theorem IsFinishQueue.eq_queued {w : Wr} {q : List Byte} (h : IsFinishQueue w q) (htr : w.trailer = true) :
    q = w.queued := by
  obtain ⟨-, hq⟩ | ⟨hpayload, -⟩ := h
  · exact hq
  · rw [htr] at hpayload
    cases hpayload

/-- Before the trailer is queued `WR.FINISH` has to send the queue and the trailer (R155, R156). -/
theorem Wr.isFinishQueue_of_payload {w : Wr} (htr : w.trailer = false) :
    IsFinishQueue w (w.queued ++ w.queueTrailer.queued) :=
  .inr ⟨htr, hexHigh w.csum, hexLow w.csum, hexHigh_upper _, hexLow_upper _, rfl⟩

/-- Where the sink takes all of `q`, `WR.FINISH` leaves it sent and nothing queued: the case `j = q.length` of what a
stop in the trailer leaves (R155, R157). -/
theorem exec_wrFinish_done (hc : s.fstat.fault = false) (hv : s.wr.valid = true) (hf : s.wr.finished = false)
    (ht : s.wr.type ≠ .ack) {q : List Byte} (hq : IsFinishQueue s.wr q)
    (hs : s.sink = List.replicate q.length .done ++ rest) :
    ∃ v, exec .wrFinish s = .next ({ v with wr := v.wr.finish }.answer .ok 0 0) ∧ v.sink = rest ∧
      StoppedInTrailer s v q q.length := by
  cases htr : s.wr.trailer with
  | true =>
    obtain rfl := hq.eq_queued htr
    rw [s.wr.queued_length] at hs ⊢
    obtain ⟨hkeeps, hprogress, htrailer, hqueued, hsent⟩ := s.stoppedInQueue_flushed _ rest le_rfl
    refine ⟨s.flushed s.wr.laN.toNat rest, ?_, rfl, hkeeps, hprogress, htrailer.trans htr, hqueued, hsent⟩
    rw [exec_wrFinish_of_trailer hc hv hf ht htr, State.finishTrailer_done hs]
    rfl
  | false =>
    obtain rfl := hq.eq_append htr
    have hlen : (s.wr.queued ++ s.wr.queueTrailer.queued).length = s.wr.queued.length + 3 := List.length_append
    rw [hlen] at hs ⊢
    refine ⟨(s.trailerQueued rest).flushed 3 rest, ?_, rfl, s.stoppedInTrailer_flushed 3 rest le_rfl⟩
    rw [← List.replicate_append_replicate, List.append_assoc, s.wr.queued_length] at hs
    rw [exec_wrFinish_to_trailer hc hv hf ht htr hs]
    exact congrArg _ (State.finishTrailer_done (s := s.trailerQueued (List.replicate 3 .done ++ rest)) rfl)

end

/-- Settles O36: the queue is flushed, and then the byte is taken. -/
theorem wrPushSendsTheHeldBytes : Obligations.WrPushSendsTheHeldBytes := by
  intro s v rest hc hv hf ht htr hs
  obtain ⟨⟨hvalid, htype, hcsum, hfinished, hack⟩, htrailer⟩ := s.wr.shiftN_keeps s.wr.laN.toNat
  refine ⟨_, exec_wrPush_done hc hv hf ht htr hs v, State.responds_answer _ _ _ _, s.flushed_queue_sent rest, rfl, rfl,
    ?_, hvalid.trans hv, htype, hfinished.trans hf, htrailer.trans htr, hack,
    (s.updateWriter_keeps _ _ _).answer _ _ _⟩
  rw [← hcsum]
  exact BitVec.toNat_add _ v

/-- Settles O37: the one request is accepted. -/
theorem wrPushAckSendsTheAckByte : Obligations.WrPushAckSendsTheAckByte := by
  intro s f rest hc hv hf ht ha hs
  exact ⟨_, exec_wrPushAck_done hc hv hf ht ha hs f, State.responds_answer _ _ _ _, rfl, rfl, rfl,
    (s.updateWriter_keeps _ _ _).answer _ _ _⟩

/-- Settles O38: an Ack packet has nothing left to send, any other has its queue and its trailer. -/
theorem wrFinishCompletesThePacket : Obligations.WrFinishCompletesThePacket := by
  intro s hc hv hf
  refine ⟨fun ht ha => ?_, fun q rest ht hq hs => ?_⟩
  · exact ⟨_, exec_wrFinish_of_ack hc hv hf ht ha, State.responds_answer _ _ _ _, rfl, rfl, rfl,
      (s.updateWriter_keeps _ _ _).answer _ _ _⟩
  · obtain ⟨v, hexec, hsink, hkeeps, ⟨hvalid, htype, hcsum, -, hack⟩, htrailer, hqueued, hsent⟩ :=
      exec_wrFinish_done hc hv hf ht hq hs
    rw [List.take_length] at hsent
    rw [List.drop_length] at hqueued
    exact ⟨_, hexec, State.responds_answer _ _ _ _, hsent, hsink, rfl, htrailer, hqueued, hvalid.trans hv, htype, hcsum,
      hack, (hkeeps.trans (v.updateWriter_keeps _ _ _)).answer _ _ _⟩

end Sys2Proof.Machine

/-! # The writer after an error of the sink

Where the sink answers `Err`, an operation leaves what it leaves where the sink does not answer, but for its response.
No writer operation looks at the response or at the operation in flight, so what runs again after TRANSPORT goes on as
after a wait (`GoesOnAsFrom`). -/

namespace Sys2Proof.Machine

section
variable {s t : State} {i : Instr} {j : Nat} {low : BitVec 15} {rest : List SinkAnswer} {code : Idx}

/-! ## Where the sink stops an operation -/

theorem State.flush_err (hj : j < s.wr.laN.toNat) (hs : s.sink = List.replicate j .done ++ .err low :: rest) :
    s.flush = (.err (errCode low), s.flushed j rest) :=
  s.flushN_err _ j low rest hj hs

/-- An error inside the queue ends `WR.PUSH` there (R157). -/
theorem exec_wrPush_err (hc : s.fstat.fault = false) (hv : s.wr.valid = true) (hf : s.wr.finished = false)
    (ht : s.wr.type ≠ .ack) (htr : s.wr.trailer = false) (hj : j < s.wr.laN.toNat)
    (hs : s.sink = List.replicate j .done ++ .err low :: rest) (v : Byte) :
    exec (.wrPush v) s = .next ((s.flushed j rest).answer .transport (errCode low) 0) := by
  rw [exec_wrPush_of_checks hc hv hf ht htr, State.flush_err hj hs, afterSends_err]

/-- An error at the one request ends `WR.PUSHACK` (R157). -/
theorem exec_wrPushAck_err (hc : s.fstat.fault = false) (hv : s.wr.valid = true) (hf : s.wr.finished = false)
    (ht : s.wr.type = .ack) (ha : s.wr.ackSent = false) (hs : s.sink = .err low :: rest) (f : Bool) :
    exec (.wrPushAck f) s = .next (State.answer { s with sink := rest } .transport (errCode low) 0) := by
  rw [exec_wrPushAck_of_checks hc hv hf ht ha, State.sinkSend, hs, afterSends_err]

/-- An error inside the flush of the trailer ends it there (R157). -/
theorem State.finishTrailer_err (hj : j < s.wr.laN.toNat) (hs : s.sink = List.replicate j .done ++ .err low :: rest) :
    s.finishTrailer = (s.flushed j rest).answer .transport (errCode low) 0 := by
  rw [State.finishTrailer, State.flush_err hj hs, afterSends_err]

/-- An error inside the queue ends `WR.FINISH` there, whatever is queued (R157). -/
theorem exec_wrFinish_err_in_queue (hc : s.fstat.fault = false) (hv : s.wr.valid = true)
    (hf : s.wr.finished = false) (ht : s.wr.type ≠ .ack) (hj : j < s.wr.laN.toNat)
    (hs : s.sink = List.replicate j .done ++ .err low :: rest) :
    exec .wrFinish s = .next ((s.flushed j rest).answer .transport (errCode low) 0) := by
  cases htr : s.wr.trailer with
  | true => rw [exec_wrFinish_of_trailer hc hv hf ht htr, State.finishTrailer_err hj hs]
  | false => rw [exec_wrFinish_of_payload hc hv hf ht htr, State.flush_err hj hs, afterSends_err]

/-- An error in the trailer that `WR.FINISH` has just queued, after `m` bytes of it (R157). -/
theorem exec_wrFinish_err_in_trailer {m : Nat} (hc : s.fstat.fault = false) (hv : s.wr.valid = true)
    (hf : s.wr.finished = false) (ht : s.wr.type ≠ .ack) (htr : s.wr.trailer = false) (hm : m < 3)
    (hs : s.sink = List.replicate (s.wr.laN.toNat + m) .done ++ .err low :: rest) :
    exec .wrFinish s = .next (((s.trailerQueued rest).flushed m rest).answer .transport (errCode low) 0) := by
  rw [← List.replicate_append_replicate, List.append_assoc] at hs
  rw [exec_wrFinish_to_trailer hc hv hf ht htr hs]
  exact congrArg _
    (State.finishTrailer_err (s := s.trailerQueued (List.replicate m .done ++ .err low :: rest)) hm rfl)

theorem StoppedInQueue.answer (h : StoppedInQueue s t j) (st : Status) (r0 r1 : Idx) :
    StoppedInQueue s (t.answer st r0 r1) j :=
  ⟨h.keeps.answer _ _ _, h.progress, h.trailer, h.queued, h.sent⟩

theorem StoppedInTrailer.answer {q : List Byte} (h : StoppedInTrailer s t q j) (st : Status) (r0 r1 : Idx) :
    StoppedInTrailer s (t.answer st r0 r1) q j :=
  ⟨h.keeps.answer _ _ _, h.progress, h.trailer, h.queued, h.sent⟩

end

/-- Settles O39: the error ends the operation where `State.flushed` says, in the queue or in the trailer. -/
theorem sinkErrorAbortsTheWriter : Obligations.SinkErrorAbortsTheWriter := by
  intro s j low rest hc hv hf hs
  have hstopped : j < s.wr.queued.length → StoppedInQueue s (s.flushed j rest) j := fun hj =>
    s.stoppedInQueue_flushed j rest (s.wr.queued_length ▸ hj.le)
  refine ⟨errCode low, isErrCode_errCode low, fun v ht htr hj => ?_, fun f ht ha hj => ?_, fun ht hj => ?_,
    fun q ht htr hq hle hlt => ?_⟩
  · exact ⟨_, exec_wrPush_err hc hv hf ht htr (s.wr.queued_length ▸ hj) hs v, State.responds_answer _ _ _ _, rfl,
      (hstopped hj).answer _ _ _⟩
  · rw [hj, List.replicate_zero, List.nil_append] at hs
    exact ⟨_, exec_wrPushAck_err hc hv hf ht ha hs f, State.responds_answer _ _ _ _, rfl, rfl, rfl,
      (s.updateWriter_keeps _ _ _).answer _ _ _⟩
  · exact ⟨_, exec_wrFinish_err_in_queue hc hv hf ht (s.wr.queued_length ▸ hj) hs, State.responds_answer _ _ _ _, rfl,
      (hstopped hj).answer _ _ _⟩
  · obtain ⟨m, rfl⟩ := Nat.exists_eq_add_of_le hle
    obtain rfl := hq.eq_append htr
    have hm : m < 3 := by
      rw [List.length_append] at hlt
      exact Nat.lt_of_add_lt_add_left hlt
    rw [s.wr.queued_length] at hs
    exact ⟨_, exec_wrFinish_err_in_trailer hc hv hf ht htr hm hs, State.responds_answer _ _ _ _, rfl,
      (s.stoppedInTrailer_flushed m rest hm.le).answer _ _ _⟩

section
variable {s t : State} {i : Instr} {j : Nat} {low : BitVec 15} {rest : List SinkAnswer} {code : Idx}

/-! ## Operations that end with TRANSPORT -/

/-- A check that fails answers FAULT, so an operation that ends with TRANSPORT has passed it (R229). -/
theorem check_of_transport {ok : Bool} {c : Cause} {r : Result} (h : check ok c s r = .next t)
    (ht : Responds t .transport code 0) : ok = true ∧ r = .next t := by
  obtain hpass | ⟨-, rfl⟩ := check_cases h
  · exact hpass
  · cases (rspWord_inj (Option.some.inj ht.rsp)).1

/-- A flush and what follows it end with TRANSPORT where the sink answered `Err` to a queued byte, or where what follows
ends so (R157). -/
theorem transport_of_flush {k : State → State} (h : Responds (afterSends i s.flush k) .transport code 0) :
    (∃ j low rest, j < s.wr.laN.toNat ∧ s.sink = List.replicate j .done ++ .err low :: rest) ∨
    (∃ rest, s.sink = List.replicate s.wr.laN.toNat .done ++ rest ∧
      Responds (k (s.flushed s.wr.laN.toNat rest)) .transport code 0) := by
  rw [State.flush] at h
  obtain ⟨rest, hs, e⟩ | ⟨j, low, rest, hj, hs, -⟩ | ⟨j, rest, -, -, -, e⟩ := s.flushN_cases s.wr.laN.toNat
  · rw [e, afterSends_done] at h
    exact .inr ⟨rest, hs, h⟩
  · exact .inl ⟨j, low, rest, hj, hs⟩
  · rw [e, afterSends_blocked] at h
    cases h.busy

/-- An operation that ends with OK does not end with TRANSPORT (R76). -/
theorem not_transport_of_ok (s : State) : ¬ Responds (s.answer .ok 0 0) .transport code 0 := fun h => by
  cases (rspWord_inj (Option.some.inj h.rsp)).1

/-! ## The response and the operation in flight do not matter to the writer -/

/-- The state with another response and another operation in flight. -/
def State.withInterface (s : State) (r : Option RspWord) (b : Option Instr) : State := { s with rsp := r, busy := b }

theorem State.flush_withInterface (s : State) (r : Option RspWord) (b : Option Instr) :
    (s.withInterface r b).flush = (s.flush.1, s.flush.2.withInterface r b) :=
  State.flushN_response _ s r b

theorem State.sinkSend_withInterface (s : State) (x : Byte) (r : Option RspWord) (b : Option Instr) :
    (s.withInterface r b).sinkSend x = ((s.sinkSend x).1, (s.sinkSend x).2.withInterface r b) := by
  rcases h : s.sink with _ | ⟨_ | _ | _, rest⟩ <;> simp [State.withInterface, State.sinkSend, h]

theorem unlessFaulted_withInterface {k k' : Result} (r : Option RspWord) (b : Option Instr) (h : k' = k) :
    unlessFaulted (s.withInterface r b) k' = unlessFaulted s k := by
  rw [h]
  rfl

theorem check_withInterface {ok : Bool} {c : Cause} {k k' : Result} (r : Option RspWord) (b : Option Instr)
    (h : k' = k) : check ok c (s.withInterface r b) k' = check ok c s k := by
  rw [h]
  rfl

theorem afterSends_withInterface {k : State → State} {r : Option RspWord} {b : Option Instr}
    (hk : ∀ u : State, k (u.withInterface r b) = k u) (e : SendEnd × State) :
    afterSends i (e.1, e.2.withInterface r b) k = afterSends i e k := by
  obtain ⟨_ | _ | _, u⟩ := e
  · exact hk u
  · rfl
  · rfl

theorem afterSends_flush_withInterface {k : State → State} {r : Option RspWord} {b : Option Instr}
    (hk : ∀ u : State, k (u.withInterface r b) = k u) :
    afterSends i (s.withInterface r b).flush k = afterSends i s.flush k := by
  rw [State.flush_withInterface, afterSends_withInterface hk]

theorem State.finishTrailer_withInterface (s : State) (r : Option RspWord) (b : Option Instr) :
    (s.withInterface r b).finishTrailer = s.finishTrailer :=
  afterSends_flush_withInterface fun _ => rfl

/-- The operations of the writer that use the sink (R152 to R155). -/
def UsesSink (i : Instr) : Prop := (∃ v, i = .wrPush v) ∨ (∃ f, i = .wrPushAck f) ∨ i = .wrFinish

theorem exec_withInterface (hi : UsesSink i) (s : State) (r : Option RspWord) (b : Option Instr) :
    exec i (s.withInterface r b) = exec i s := by
  obtain ⟨v, rfl⟩ | ⟨f, rfl⟩ | rfl := hi
  · exact unlessFaulted_withInterface r b <| check_withInterface r b <| check_withInterface r b <|
      check_withInterface r b <| check_withInterface r b <|
      congrArg _ (afterSends_flush_withInterface fun _ => rfl)
  · refine unlessFaulted_withInterface r b <| check_withInterface r b <| check_withInterface r b <|
      check_withInterface r b <| check_withInterface r b <| congrArg _ ?_
    rw [State.sinkSend_withInterface]
    exact afterSends_withInterface (fun _ => rfl) _
  · refine unlessFaulted_withInterface r b <| check_withInterface r b <| check_withInterface r b ?_
    refine if_congr Iff.rfl (check_withInterface r b rfl) (if_congr Iff.rfl (congrArg _ ?_) (congrArg _ ?_))
    · exact State.finishTrailer_withInterface s r b
    · exact afterSends_flush_withInterface fun u =>
        State.finishTrailer_withInterface { u with wr := u.wr.queueTrailer } r b

/-! ## The operation repeated -/

/-- The sink answered `Err` after `j` bytes, and the operation, run again from `t`, does what it does from `s` without
that answer (R158). -/
structure RetriesAsFrom (s t : State) (i : Instr) (j : Nat) (low : BitVec 15) (rest : List SinkAnswer) (code : Idx) :
    Prop where
  sink : s.sink = List.replicate j .done ++ .err low :: rest
  isCode : IsErrCode low code
  runs : exec i t = exec i { s with sink := List.replicate j .done ++ rest }

/-- What an operation leaves where the sink answers `Err` is, but for the response, what it leaves where the sink does not
answer (R157): so it goes on from there alike. -/
theorem GoesOnAsFrom.retries {u : State}
    (h : GoesOnAsFrom { s with sink := List.replicate j .done } (u.wait i) i j rest) (hi : UsesSink i)
    (hs : s.sink = List.replicate j .done ++ .err low :: rest)
    (hexec : exec i s = .next (State.answer { u with sink := rest } .transport (errCode low) 0))
    (hnext : exec i s = .next t) (ht : Responds t .transport code 0) : RetriesAsFrom s t i j low rest code := by
  rw [hexec] at hnext
  cases hnext
  obtain ⟨-, rfl, -⟩ := rspWord_inj (Option.some.inj ht.rsp)
  exact ⟨hs, isErrCode_errCode low,
    (exec_withInterface hi (State.wait { u with sink := rest } i) _ _).trans h.runs⟩

theorem wrPush_retries {v : Byte} (hc : s.fstat.fault = false) (hexec : exec (.wrPush v) s = .next t)
    (ht : Responds t .transport code 0) : ∃ j low rest, RetriesAsFrom s t (.wrPush v) j low rest code := by
  have hchecks := hexec
  rw [exec, execWrPush, unlessFaulted_clear hc] at hchecks
  obtain ⟨hv, hchecks⟩ := check_of_transport hchecks ht
  obtain ⟨hf, hchecks⟩ := check_of_transport hchecks ht
  obtain ⟨hty, hchecks⟩ := check_of_transport hchecks ht
  obtain ⟨htr, hchecks⟩ := check_of_transport hchecks ht
  rw [Bool.not_eq_true'] at hf htr
  rw [bne_iff_ne] at hty
  cases hchecks
  obtain ⟨j, low, rest, hj, hs⟩ | ⟨rest, -, hok⟩ := transport_of_flush ht
  · have hwaits := exec_wrPush_waits (s := { s with sink := List.replicate j .done }) hc hv hf hty htr hj (.inl rfl)
      (List.append_nil _).symm v
    exact ⟨j, low, rest, (wrPush_goesOn (s := { s with sink := List.replicate j .done }) hc rfl hwaits ⟨rfl, rfl⟩
      rest).retries (.inl ⟨v, rfl⟩) hs (exec_wrPush_err hc hv hf hty htr hj hs v) hexec ht⟩
  · exact absurd hok (not_transport_of_ok _)

theorem wrPushAck_retries {f : Bool} (hc : s.fstat.fault = false) (hexec : exec (.wrPushAck f) s = .next t)
    (ht : Responds t .transport code 0) : ∃ j low rest, RetriesAsFrom s t (.wrPushAck f) j low rest code := by
  have hchecks := hexec
  rw [exec, execWrPushAck, unlessFaulted_clear hc] at hchecks
  obtain ⟨hv, hchecks⟩ := check_of_transport hchecks ht
  obtain ⟨hf, hchecks⟩ := check_of_transport hchecks ht
  obtain ⟨hty, hchecks⟩ := check_of_transport hchecks ht
  obtain ⟨ha, hchecks⟩ := check_of_transport hchecks ht
  rw [Bool.not_eq_true'] at hf ha
  rw [beq_iff_eq] at hty
  cases hchecks
  obtain ⟨rest, -, e⟩ | ⟨low, rest, hs, -⟩ | ⟨-, e⟩ := s.sinkSend_cases (ackByte f)
  · rw [e, afterSends_done] at ht
    exact absurd ht (not_transport_of_ok _)
  · have hwaits := exec_wrPushAck_waits (s := { s with sink := [] }) hc hv hf hty ha (.inl rfl) f
    have hgoesOn := wrPushAck_goesOn (s := { s with sink := [] }) (j := 0) hc rfl hwaits ⟨rfl, rfl⟩ rest
    exact ⟨0, low, rest, GoesOnAsFrom.retries (u := { s with sink := [] }) hgoesOn (.inr (.inl ⟨f, rfl⟩)) hs
      (exec_wrPushAck_err hc hv hf hty ha hs f) hexec ht⟩
  · rw [e, afterSends_blocked] at ht
    cases ht.busy

/-- Stopped in the queue, whatever is queued there. -/
theorem wrFinish_retries_in_queue (hc : s.fstat.fault = false) (hv : s.wr.valid = true) (hf : s.wr.finished = false)
    (hty : s.wr.type ≠ .ack) (hexec : exec .wrFinish s = .next t) (ht : Responds t .transport code 0)
    (hj : j < s.wr.laN.toNat) (hs : s.sink = List.replicate j .done ++ .err low :: rest) :
    RetriesAsFrom s t .wrFinish j low rest code :=
  (wrFinish_goesOn_in_queue (s := { s with sink := List.replicate j .done }) hc hv hf hty hj.le rest).retries
    (.inr (.inr rfl)) hs (exec_wrFinish_err_in_queue hc hv hf hty hj hs) hexec ht

theorem wrFinish_retries (hc : s.fstat.fault = false) (hexec : exec .wrFinish s = .next t)
    (ht : Responds t .transport code 0) : ∃ j low rest, RetriesAsFrom s t .wrFinish j low rest code := by
  have hchecks := hexec
  rw [exec, execWrFinish, unlessFaulted_clear hc] at hchecks
  obtain ⟨hv, hchecks⟩ := check_of_transport hchecks ht
  obtain ⟨hf, hchecks⟩ := check_of_transport hchecks ht
  rw [Bool.not_eq_true'] at hf
  split at hchecks
  · obtain ⟨-, hchecks⟩ := check_of_transport hchecks ht
    cases hchecks
    exact absurd ht (not_transport_of_ok _)
  next hty =>
  split at hchecks
  · cases hchecks
    obtain ⟨j, low, rest, hj, hs⟩ | ⟨rest, -, hok⟩ := transport_of_flush ht
    · exact ⟨j, low, rest, wrFinish_retries_in_queue hc hv hf hty hexec ht hj hs⟩
    · exact absurd hok (not_transport_of_ok _)
  next htr =>
  rw [Bool.not_eq_true] at htr
  cases hchecks
  obtain ⟨j, low, rest, hj, hs⟩ | ⟨rest, hs, htrailer⟩ := transport_of_flush ht
  · exact ⟨j, low, rest, wrFinish_retries_in_queue hc hv hf hty hexec ht hj hs⟩
  obtain ⟨m, low, rest', hm, hs'⟩ | ⟨rest', -, hok⟩ := transport_of_flush htrailer
  · change rest = List.replicate m .done ++ .err low :: rest' at hs'
    subst hs'
    rw [← List.append_assoc, List.replicate_append_replicate] at hs
    have hm : m < 3 := hm
    have hgoesOn := wrFinish_goesOn_in_trailer (s := { s with sink := List.replicate (s.wr.laN.toNat + m) .done })
      hc hv hf hty htr hm.le rest'
    exact ⟨_, low, rest', hgoesOn.retries (.inr (.inr rfl)) hs (exec_wrFinish_err_in_trailer hc hv hf hty htr hm hs)
      hexec ht⟩
  · exact absurd hok (not_transport_of_ok _)

end

/-- Settles O41: the repeated operation goes on where the error stopped the first attempt. -/
theorem retryLeavesAsIfTheFirstAttemptHadSucceeded : Obligations.RetryLeavesAsIfTheFirstAttemptHadSucceeded := by
  intro i s t u code hi hc hexec ht hagain _
  obtain ⟨j, low, rest, h⟩ : ∃ j low rest, RetriesAsFrom s t i j low rest code := by
    obtain ⟨v, rfl⟩ | ⟨f, rfl⟩ | rfl := hi
    · exact wrPush_retries hc hexec ht
    · exact wrPushAck_retries hc hexec ht
    · exact wrFinish_retries hc hexec ht
  exact ⟨j, low, rest, h.sink, h.isCode, h.runs.symm.trans hagain⟩

end Sys2Proof.Machine

/-! # A packet on the wire

At every point of a packet, the bytes sent and the bytes held back are together the marker and the payload pushed so far
(R161). -/

namespace Sys2Proof.Machine

/-- What `WR.INIT` and the pushes of the payload `xs` leave, started from `s` with marker `m`; `l` is what the sink has
still to answer (R150, R151, R153). -/
structure PacketSoFar (s : State) (ty : PacketType) (m : Byte) (xs : List Byte) (l : List SinkAnswer) (t : State) :
    Prop where
  responds : Responds t .ok 0 0
  valid : t.wr.valid = true
  type : t.wr.type = ty
  unfinished : t.wr.finished = false
  noTrailer : t.wr.trailer = false
  csum : t.wr.csum.toNat = sumMod256 xs
  held : t.wr.laN.toNat = 1
  wire : t.sent ++ t.wr.queued = s.sent ++ m :: xs
  sink : t.sink = l
  keeps : KeepsAllButWr s t

section
variable {s t : State} {ty : PacketType} {m : Byte} {xs : List Byte} {l : List SinkAnswer}

theorem IsMarker.ne_ack (hm : IsMarker ty m) : ty ≠ .ack := by
  obtain ⟨rfl, -⟩ | ⟨rfl, -⟩ := hm <;> exact PacketType.noConfusion

/-- The marker of the wire is the marker that the writer queues (R62, R63, R151). -/
theorem IsMarker.leadingMarker_eq (hm : IsMarker ty m) : leadingMarker ty = some m := by
  obtain ⟨rfl, rfl⟩ | ⟨rfl, rfl⟩ := hm <;> rfl

theorem exists_isMarker (hty : ty ≠ .ack) : ∃ m, IsMarker ty m := by
  cases ty with
  | ack => exact absurd rfl hty
  | msg => exact ⟨_, .inl ⟨rfl, rfl⟩⟩
  | notif => exact ⟨_, .inr ⟨rfl, rfl⟩⟩

/-- `WR.INIT` begins the packet: only the marker is held back (R151). -/
theorem exec_wrInit_packetSoFar (hc : s.fstat.fault = false) (hm : IsMarker ty m) :
    ∃ t, exec (.wrInit ty) s = .next t ∧ PacketSoFar s ty m [] s.sink t := by
  obtain ⟨⟨hv, ht, hcsum, hf, -⟩, htr⟩ := s.wr.init_progress ty
  have hq : (s.wr.init ty).queued = [m] := by rw [Wr.init_queued, hm.leadingMarker_eq, Option.toList_some]
  refine ⟨_, exec_wrInit hc ty, State.responds_answer _ _ _ _, hv, ht, hf, htr, congrArg _ hcsum, ?_,
    congrArg _ hq, rfl, (s.updateWriter_keeps _ _ _).answer _ _ _⟩
  rw [State.answer_wr, ← Wr.queued_length, hq, List.length_singleton]

theorem sumMod256_concat (xs : List Byte) (v : Byte) : sumMod256 (xs ++ [v]) = (sumMod256 xs + v.toNat) % 256 := by
  have hv : sumMod256 [v] = v.toNat := Nat.mod_eq_of_lt v.isLt
  rw [sumMod256_append, hv]

/-- A push sends the byte held back and holds the new one back (R153). -/
theorem PacketSoFar.push (h : PacketSoFar s ty m xs (.done :: l) t) (hc : s.fstat.fault = false) (hty : ty ≠ .ack)
    (v : Byte) : ∃ u, exec (.wrPush v) t = .next u ∧ PacketSoFar s ty m (xs ++ [v]) l u := by
  obtain ⟨u, hexec, hresp, hsent, hsink, hq, hcsum, hv, ht, hf, htr, -, hkeeps⟩ :=
    wrPushSendsTheHeldBytes t v l (h.keeps.fstat ▸ hc) h.valid h.unfinished (h.type ▸ hty) h.noTrailer
      (by rw [h.sink, h.held]; rfl)
  refine ⟨u, hexec, hresp, hv, ht.trans h.type, hf, htr, ?_, ?_, ?_, hsink, h.keeps.trans hkeeps⟩
  · rw [hcsum, h.csum, sumMod256_concat]
  · rw [← Wr.queued_length, hq, List.length_singleton]
  · rw [hsent, h.wire, hq, List.append_assoc, List.cons_append]

/-- The pushes of a payload, one after the other. -/
theorem PacketSoFar.pushAll (hc : s.fstat.fault = false) (hty : ty ≠ .ack) (ys : List Byte)
    (h : PacketSoFar s ty m xs (List.replicate ys.length .done ++ l) t) :
    ∃ u, execAll (ys.map .wrPush) t = .next u ∧ PacketSoFar s ty m (xs ++ ys) l u := by
  induction ys generalizing xs t with
  | nil => exact ⟨t, rfl, by rwa [List.append_nil]⟩
  | cons y ys ih =>
    obtain ⟨v, hpush, hv⟩ := h.push hc hty y
    obtain ⟨u, hpushes, hu⟩ := ih hv
    rw [List.append_assoc, List.singleton_append] at hu
    exact ⟨u, (execAll_cons hpush).trans hpushes, hu⟩

/-- `WR.INIT` and the pushes of a payload. -/
theorem execAll_wrInit_pushes {payload : List Byte} (hc : s.fstat.fault = false) (hm : IsMarker ty m)
    (hs : s.sink = List.replicate payload.length .done ++ l) :
    ∃ t, execAll (.wrInit ty :: payload.map .wrPush) s = .next t ∧ PacketSoFar s ty m payload l t := by
  obtain ⟨u, hinit, hu⟩ := exec_wrInit_packetSoFar hc hm
  rw [hs] at hu
  obtain ⟨t, hpushes, ht⟩ := hu.pushAll hc hm.ne_ack payload
  exact ⟨t, (execAll_cons hinit).trans hpushes, ht⟩

/-- All but the byte held back has reached the sink (R161). -/
theorem PacketSoFar.sent_eq (h : PacketSoFar s ty m xs l t) : t.sent = s.sent ++ (m :: xs).dropLast := by
  obtain ⟨v, hv⟩ := List.length_eq_one_iff.mp (t.wr.queued_length.trans h.held)
  have hwire := h.wire
  rw [hv] at hwire
  rw [← List.dropLast_append_of_ne_nil (List.cons_ne_nil m xs), ← hwire, List.dropLast_concat]

/-- `WR.FINISH` puts the rest of the packet on the wire (R155, R161). -/
theorem PacketSoFar.finish (h : PacketSoFar s ty m xs (List.replicate 4 .done ++ l) t) (hc : s.fstat.fault = false)
    (hm : IsMarker ty m) :
    ∃ u packet, exec .wrFinish t = .next u ∧ Responds u .ok 0 0 ∧ IsPacket ty xs packet ∧
      u.sent = s.sent ++ packet ∧ u.sink = l ∧ KeepsAllButWr s u := by
  have hlen : (t.wr.queued ++ t.wr.queueTrailer.queued).length = 4 := by
    rw [List.length_append, t.wr.queued_length, h.held]
    rfl
  obtain ⟨u, hexec, hresp, hsent, hsink, -, -, -, -, -, -, -, hkeeps⟩ :=
    (wrFinishCompletesThePacket t (h.keeps.fstat ▸ hc) h.valid h.unfinished).2 _ l (h.type ▸ hm.ne_ack)
      (Wr.isFinishQueue_of_payload h.noTrailer) (by rw [hlen]; exact h.sink)
  have hfield : IsChecksumField xs (hexHigh t.wr.csum) (hexLow t.wr.csum) := by
    rw [IsChecksumField, ← h.csum]
    exact ⟨hexHigh_upper _, hexLow_upper _⟩
  refine ⟨u, _, hexec, hresp, ⟨m, _, _, hm, hfield, rfl⟩, ?_, hsink, h.keeps.trans hkeeps⟩
  rw [hsent, ← List.append_assoc, h.wire, List.append_assoc]
  rfl

/-- The operations of a whole packet put the packet on the wire (R161). -/
theorem execAll_packet {payload : List Byte} {rest : List SinkAnswer} (hc : s.fstat.fault = false)
    (hm : IsMarker ty m) (hs : s.sink = List.replicate (payload.length + 4) .done ++ rest) :
    ∃ t packet, execAll (.wrInit ty :: payload.map .wrPush ++ [.wrFinish]) s = .next t ∧ Responds t .ok 0 0 ∧
      IsPacket ty payload packet ∧ t.sent = s.sent ++ packet ∧ t.sink = rest ∧ KeepsAllButWr s t := by
  rw [← List.replicate_append_replicate, List.append_assoc] at hs
  obtain ⟨u, hpushes, hu⟩ := execAll_wrInit_pushes hc hm hs
  obtain ⟨t, packet, hfinish, ht⟩ := hu.finish hc hm
  exact ⟨t, packet, (execAll_append _ _ _ _ hpushes).trans (execAll_cons hfinish), ht⟩

end

/-- Settles O42, from what each operation of the packet leaves. -/
theorem writerPutsThePacketOnTheWire : Obligations.WriterPutsThePacketOnTheWire := by
  refine ⟨fun s ty m payload rest hc hm hs => ⟨?_, ?_⟩, fun s f rest hc hs => ?_⟩
  · rw [← List.replicate_append_replicate, List.append_assoc] at hs
    obtain ⟨t, hpushes, ht⟩ := execAll_wrInit_pushes hc hm hs
    exact ⟨t, hpushes, ht.responds, ht.sent_eq⟩
  · obtain ⟨t, packet, hexec, hresp, hpacket, hsent, hsink, -⟩ := execAll_packet hc hm hs
    exact ⟨t, packet, hexec, hresp, hpacket, hsent, hsink⟩
  · obtain ⟨t, hinit, hrespT, hv, ht, -, hf, ha, -, -, -, -, hkeepsT, hsinkT, hsentT⟩ :=
      wrInitQueuesTheMarker s .ack hc
    have hcT : t.fstat.fault = false := hkeepsT.fstat ▸ hc
    obtain ⟨u, hpush, hrespU, hsentU, -, hwr, hkeepsU⟩ :=
      wrPushAckSendsTheAckByte t f rest hcT hv hf ht ha (hsinkT.trans hs)
    obtain ⟨w, hfinish, hrespW, -, -, hsentW, -⟩ :=
      (wrFinishCompletesThePacket u (hkeepsU.fstat ▸ hcT) (hwr ▸ hv) (hwr ▸ hf)).1 (hwr ▸ ht) (hwr ▸ rfl)
    rw [hsentT] at hsentU
    refine ⟨⟨t, execAll_cons hinit, hrespT, hsentT⟩, ⟨u, ?_, hrespU, hsentU⟩, w, ?_, hrespW, hsentW.trans hsentU⟩
    · rw [execAll_cons hinit, execAll_cons hpush, execAll]
    · rw [execAll_cons hinit, execAll_cons hpush, execAll_cons hfinish, execAll]

end Sys2Proof.Machine

/-! # A packet received

The marker takes the receiver to the body, a payload that meets R184 leaves it there, `#` and two bytes take it to DONE
(R175 to R177), where the window holds the packet and the validator finds the writer's own checksum (R162, R179). -/

namespace Sys2Proof.Machine

section
variable {s : State} {r : Rx} {ty : PacketType} {m c0 c1 : Byte} {payload : List Byte}

/-! ## The registers along a packet -/

theorem IsMarker.matchesMarker_eq (hm : IsMarker ty m) : matchesMarker ty m = true := by
  obtain ⟨rfl, rfl⟩ | ⟨rfl, rfl⟩ := hm <;> rfl

/-- In a payload that meets R184 no byte is an unescaped `#`, and what follows a byte meets R184 from the record it
leaves. -/
theorem payloadClean_cons {esc : Bool} {x : Byte} {xs : List Byte} (h : payloadClean esc (x :: xs) = true) :
    unescapedIs chHash esc x = false ∧ payloadClean (escAfter esc x) xs = true := by
  cases esc with
  | true => exact ⟨rfl, h⟩
  | false =>
    rw [payloadClean] at h
    rw [unescapedIs_false, escAfter_false]
    by_cases hx : x = 0x7D
    · rw [if_pos hx] at h
      rw [decide_eq_true hx]
      exact ⟨rfl, h⟩
    · rw [if_neg hx] at h
      have hhash : x ≠ 0x23 := fun e => by
        rw [if_pos e] at h
        cases h
      rw [if_neg hhash] at h
      rw [decide_eq_false hx, show decide (x = chHash) = false from decide_eq_false hhash]
      exact ⟨rfl, h⟩

theorem idx_add_ofNat_add_one (n : Idx) (k : Nat) : n + BitVec.ofNat 16 k + 1 = n + BitVec.ofNat 16 (k + 1) := by
  rw [BitVec.ofNat_add, ← add_assoc]
  rfl

theorem idx_add_one_add_ofNat (n : Idx) (k : Nat) : n + 1 + BitVec.ofNat 16 k = n + BitVec.ofNat 16 (k + 1) := by
  rw [add_right_comm, idx_add_ofNat_add_one]

/-- A payload that meets R184 is taken in the body and leaves no escape marker unconsumed (R176). -/
theorem foldl_take_payload (hs : r.state = .body) (hclean : payloadClean r.esc payload = true) :
    payload.foldl (fun r x => r.take ty x) r =
      { r with n := r.n + BitVec.ofNat 16 payload.length, esc := false } := by
  induction payload generalizing r with
  | nil =>
    have hesc : r.esc = false := (Bool.not_eq_true' _).mp hclean
    rw [List.foldl_nil, List.length_nil, BitVec.add_zero, ← hesc]
  | cons x xs ih =>
    obtain ⟨hx, hxs⟩ := payloadClean_cons hclean
    rw [List.foldl_cons, Rx.take_body_of_other hs hx]
    exact (ih (r := { r with n := r.n + 1, esc := escAfter r.esc x }) hs hxs).trans
      (by rw [List.length_cons, idx_add_one_add_ofNat])

/-- A packet without its last digit, taken by a receive that has met no marker yet (R175 to R177). -/
theorem foldl_take_packet_but_last (hm : IsMarker ty m) (hclean : payloadClean false payload = true)
    (hs : r.state = .prefix_) (hesc : r.esc = false) (hsfx : r.sfx = 0) (c0 : Byte) :
    (m :: payload ++ [0x23, c0]).foldl (fun r x => r.take ty x) r =
      ⟨.suffix, false, 1, r.n + BitVec.ofNat 16 (payload.length + 3), r.n, r.n + BitVec.ofNat 16 (payload.length + 1),
        r.csum⟩ := by
  have hmarker : r.take ty m = { r with n := r.n + 1, mark := r.n, state := .body } := by
    rw [Rx.take_prefix_of_marker hs hm.matchesMarker_eq, if_neg hm.ne_ack]
  have hbody : (m :: payload).foldl (fun r x => r.take ty x) r =
      ⟨.body, false, 0, r.n + BitVec.ofNat 16 (payload.length + 1), r.n, r.hash, r.csum⟩ := by
    rw [List.foldl_cons, hmarker, ← idx_add_one_add_ofNat, ← hsfx]
    exact foldl_take_payload rfl (hesc ▸ hclean)
  calc
    _ = [0x23, c0].foldl (fun r x => r.take ty x)
        ⟨.body, false, 0, r.n + BitVec.ofNat 16 (payload.length + 1), r.n, r.hash, r.csum⟩ := by
      rw [List.foldl_append, hbody]
    _ = ⟨.suffix, false, 1, r.n + BitVec.ofNat 16 (payload.length + 1) + 1 + 1, r.n,
        r.n + BitVec.ofNat 16 (payload.length + 1), r.csum⟩ := by
      rw [List.foldl_cons, Rx.take_body_of_hash rfl rfl, List.foldl_cons, Rx.take_suffix rfl, List.foldl_nil]
      rfl
    _ = _ := by rw [idx_add_ofNat_add_one, idx_add_ofNat_add_one]

theorem rxAfter_concat (ty : PacketType) (xs : List Byte) (x : Byte) :
    rxAfter ty (xs ++ [x]) = (rxAfter ty xs).take ty x :=
  List.foldl_concat ..

/-! ## The end of a receive -/

/-- A receive whose last byte reaches DONE within the budget ends there, and asks for no further byte (R183). -/
theorem exec_rxRecv_of_done {base max : Idx} {xs : List Byte} {x : Byte} {rest : List SrcAnswer}
    (hf : s.fstat.fault = false) (hwin : base.toNat + max.toNat ≤ s.params.cap.toNat) (hlen : xs.length < max.toNat)
    (hopen : (rxAfter ty xs).state ≠ .done) (hdone : (rxAfter ty (xs ++ [x])).state = .done)
    (hsrc : s.src = (xs ++ [x]).map .byte ++ rest) :
    exec (.rxRecv ty base max) s =
      .next (State.recvFinish ty base.toNat { s.received ty base.toNat (xs ++ [x]) with src := rest }) := by
  have hlast : (s.received ty base.toNat xs).recvByte ty base.toNat x = s.received ty base.toNat (xs ++ [x]) := by
    rw [State.received, State.received, State.taken_append, State.taken_cons, State.taken_nil]
  rw [List.map_append, List.append_assoc] at hsrc
  rw [exec_rxRecv_of_bytes hf hwin hlen.le hopen hsrc, List.map_singleton, List.singleton_append,
    State.recvLoop_byte _ _ _ _ _ _ (by rwa [State.received_rx]) (by rw [State.received_rx]; exact rxAfter_n_ne _ hlen),
    hlast, State.recvLoop_done _ _ _ _ _ (by rwa [State.received_rx])]

/-- The end of a receive stores nothing (R178, R179). -/
theorem State.bytes_recvFinish (s : State) (ty : PacketType) (base a n : Nat) :
    (s.recvFinish ty base).bytes a n = s.bytes a n := by
  obtain ⟨-, e⟩ | ⟨-, st, r0, r1, -, e⟩ := s.recvFinish_cases ty base
  · rw [e, State.bytes_answer]
  · rw [e, State.bytes_answer]
    exact State.bytes_congr _ _ _ _ fun _ _ _ => rfl

/-- The validator accepts a field that is the checksum of the payload (R179). -/
theorem State.recvFinish_of_valid {base : Nat} (hty : ty ≠ .ack)
    (hfield : s.rxField base = some (csum (s.rxPayload base))) :
    s.recvFinish ty base =
      { s with rx := { s.rx with csum := csum (s.rxPayload base) } }.answer .ok s.rx.n s.rx.mark := by
  have hvalid : validateStatus (s.rxField base) (csum (s.rxPayload base)) = .ok := by
    rw [hfield]
    exact if_pos rfl
  rw [State.recvFinish, if_neg hty]
  simp only [hvalid]

/-- The two digits that the writer puts out are the checksum (R65, R112, R156). -/
theorem IsChecksumField.hexPair_eq (h : IsChecksumField payload c0 c1) : hexPair c0 c1 = some (csum payload) := by
  obtain ⟨h0, h1⟩ := h
  rw [hexPair_of_digits h0.isHexDigit h1.isHexDigit, Nat.div_add_mod', ← csum_toNat, BitVec.ofNat_toNat,
    BitVec.setWidth_eq]

/-! ## The packet in the window -/

theorem State.bytes_eq_append {a : Nat} {xs ys : List Byte} (h : s.bytes a (xs ++ ys).length = xs ++ ys) :
    s.bytes a xs.length = xs ∧ s.bytes (a + xs.length) ys.length = ys := by
  rw [List.length_append, State.bytes_add] at h
  exact List.append_inj h (s.bytes_length a _)

/-- Where a packet lies in `BUF`, its payload lies behind the marker and its digits behind the `#` (R65). -/
theorem State.bytes_of_packet {a : Nat}
    (h : s.bytes a (m :: payload ++ [0x23, c0, c1]).length = m :: payload ++ [0x23, c0, c1]) :
    s.bytes (a + 1) payload.length = payload ∧ s.byteAt (a + (payload.length + 1) + 1) = c0 ∧
      s.byteAt (a + (payload.length + 1) + 2) = c1 := by
  obtain ⟨hhead, htail⟩ := s.bytes_eq_append h
  have hpayload := (State.bytes_eq_append (s := s) (xs := [m]) (ys := payload) hhead).2
  have hdigits : [s.byteAt (a + (payload.length + 1)), s.byteAt (a + (payload.length + 1) + 1),
      s.byteAt (a + (payload.length + 1) + 2)] = [0x23, c0, c1] := htail
  injection hdigits with _ hdigits
  injection hdigits with hc0 hdigits
  injection hdigits with hc1 _
  exact ⟨hpayload, hc0, hc1⟩

/-- Where `RX.mark` and `RX.hash` bound a packet in the window, the validator finds its payload and its field (R179). -/
theorem State.validated_of_packet {base : Nat}
    (h : s.bytes (base + s.rx.mark.toNat) (m :: payload ++ [0x23, c0, c1]).length = m :: payload ++ [0x23, c0, c1])
    (hhash : s.rx.hash.toNat = s.rx.mark.toNat + (payload.length + 1)) :
    s.rxPayload base = payload ∧ s.rxField base = hexPair c0 c1 := by
  obtain ⟨hpayload, hc0, hc1⟩ := s.bytes_of_packet h
  have hlen : s.rx.hash.toNat - (s.rx.mark.toNat + 1) = payload.length := by omega
  rw [State.rxPayload, State.rxField, hlen, hhash, ← Nat.add_assoc, hc0, hc1]
  exact ⟨hpayload, rfl⟩

/-- The registers at the end of a packet that no garbage precedes (R175 to R177). -/
theorem rxAfter_packet (hm : IsMarker ty m) (hclean : payloadClean false payload = true) (c0 c1 : Byte) :
    (rxAfter ty (m :: payload ++ [0x23, c0])).state = .suffix ∧
      rxAfter ty (m :: payload ++ [0x23, c0, c1]) =
        ⟨.done, false, 2, BitVec.ofNat 16 (payload.length + 4), 0, BitVec.ofNat 16 (payload.length + 1), 0⟩ := by
  have hopen : rxAfter ty (m :: payload ++ [0x23, c0]) = _ :=
    foldl_take_packet_but_last hm hclean (r := Rx.reset) rfl rfl rfl c0
  have hsplit : m :: payload ++ [0x23, c0, c1] = (m :: payload ++ [0x23, c0]) ++ [c1] := by simp
  rw [hsplit, rxAfter_concat, hopen, Rx.take_suffix rfl]
  refine ⟨rfl, ?_⟩
  rw [idx_add_ofNat_add_one, show Rx.reset.n = 0 from rfl, zero_add, zero_add, zero_add]
  rfl

/-- The end of a receive of a packet that carries its payload's checksum (R162, R179). -/
theorem State.recvFinish_packet {base : Nat} (hm : IsMarker ty m) (hfield : IsChecksumField payload c0 c1)
    (hlen : payload.length + 4 < 65536)
    (hrx : s.rx =
      ⟨.done, false, 2, BitVec.ofNat 16 (payload.length + 4), 0, BitVec.ofNat 16 (payload.length + 1), 0⟩)
    (hbytes : s.bytes base (m :: payload ++ [0x23, c0, c1]).length = m :: payload ++ [0x23, c0, c1]) :
    Responds (s.recvFinish ty base) .ok (BitVec.ofNat 16 (payload.length + 4)) 0 ∧
      (s.recvFinish ty base).src = s.src ∧
      (s.recvFinish ty base).bytes base (payload.length + 4) = m :: payload ++ [0x23, c0, c1] ∧
      (s.recvFinish ty base).bytes (base + 1) payload.length = payload := by
  have hmark : s.rx.mark.toNat = 0 := by
    rw [hrx]
    rfl
  have hhash : s.rx.hash.toNat = payload.length + 1 := by
    rw [hrx, BitVec.toNat_ofNat, Nat.mod_eq_of_lt (by omega)]
  have hpacketLen : (m :: payload ++ [0x23, c0, c1]).length = payload.length + 4 := by simp
  obtain ⟨hpayload, hdigits⟩ :=
    State.validated_of_packet (base := base) (by rw [hmark]; exact hbytes) (by rw [hhash, hmark, Nat.zero_add])
  rw [State.bytes_recvFinish, State.bytes_recvFinish, ← hpacketLen,
    State.recvFinish_of_valid hm.ne_ack (by rw [hpayload, hdigits, hfield.hexPair_eq]), hrx, hpacketLen]
  exact ⟨State.responds_answer _ _ _ _, rfl, hpacketLen ▸ hbytes, (State.bytes_of_packet hbytes).1⟩

/-- A receive of a packet that carries its payload's checksum accepts it (R162, R183). -/
theorem exec_rxRecv_packet {base max : Idx} {packet : List Byte} {rest : List SrcAnswer} (hf : s.fstat.fault = false)
    (hwin : base.toNat + max.toNat ≤ s.params.cap.toNat) (hclean : payloadClean false payload = true)
    (hpacket : IsPacket ty payload packet) (hlen : payload.length + 4 ≤ max.toNat)
    (hsrc : s.src = packet.map .byte ++ rest) :
    ∃ u, exec (.rxRecv ty base max) s = .next u ∧ Responds u .ok (BitVec.ofNat 16 (payload.length + 4)) 0 ∧
      u.src = rest ∧ u.bytes base.toNat (payload.length + 4) = packet ∧
      u.bytes (base.toNat + 1) payload.length = payload := by
  obtain ⟨m, c0, c1, hm, hfield, rfl⟩ := hpacket
  have hmax := max.isLt
  have hsplit : m :: payload ++ [0x23, c0, c1] = (m :: payload ++ [0x23, c0]) ++ [c1] := by simp
  have hopenLen : (m :: payload ++ [0x23, c0]).length = payload.length + 3 := by simp
  have hpacketLen : (m :: payload ++ [0x23, c0, c1]).length = payload.length + 4 := by simp
  obtain ⟨hopen, hend⟩ := rxAfter_packet hm hclean c0 c1
  have hexec := exec_rxRecv_of_done hf hwin (by omega) (by rw [hopen]; exact RxState.noConfusion)
    (by rw [← hsplit, hend]) (hsplit ▸ hsrc)
  rw [← hsplit] at hexec
  have hbytes := s.bytes_received (xs := m :: payload ++ [0x23, c0, c1]) ty base.toNat (by omega)
  refine ⟨_, hexec, State.recvFinish_packet hm hfield (by omega) ((s.received_rx ..).trans hend) ?_⟩
  refine (State.bytes_of_buf _ _ ?_ ?_ _ _).trans hbytes
  · rfl
  · rfl

end

/-- Settles O51: what reaches the sink is a packet that carries its payload's checksum. -/
theorem whatTheWriterSendsTheReceiverAccepts : Obligations.WhatTheWriterSendsTheReceiverAccepts := by
  intro s ty base max payload sinkRest srcRest hc hty hclean hwin hlen hs
  obtain ⟨m, hm⟩ := exists_isMarker hty
  obtain ⟨t, packet, hexec, -, hpacket, hsent, -, hkeeps⟩ := execAll_packet hc hm hs
  obtain ⟨u, hrecv, hu⟩ := exec_rxRecv_packet (s := { t with src := packet.map .byte ++ srcRest }) (hkeeps.fstat ▸ hc)
    (hkeeps.outside.params ▸ hwin) hclean hpacket hlen rfl
  exact ⟨t, u, packet, hexec, hsent, hrecv, hu⟩

end Sys2Proof.Machine

/-! # Escaped payloads -/

namespace Sys2Proof.Machine

/-- The output for one byte holds no `#` outside an escape pair and leaves no escape marker unconsumed (R122, R184). -/
theorem payloadClean_escapeByte_append (p : Params) (v : Byte) (xs : List Byte) :
    payloadClean false (escapeByte p v ++ xs) = payloadClean false xs := by
  rcases escapeByte_cases p v with hpair | ⟨hplain, hescape, hhash⟩
  · rw [hpair]
    rfl
  · rw [hplain, List.singleton_append, payloadClean, if_neg hescape, if_neg hhash]

/-- Settles O29, by induction on the sequence: each output passes the scan by itself. -/
theorem escapedPayloadsCanBeFramed : Obligations.EscapedPayloadsCanBeFramed := by
  intro p xs
  induction xs with
  | nil => rfl
  | cons x xs ih => rw [List.flatMap_cons, payloadClean_escapeByte_append, ih]

end Sys2Proof.Machine

/-! # A receive that ends

What is before the marker leaves the receiver looking for it (R175). However a receive ends, the bytes it took lie in the
window and nothing outside the receiver changes; which end it is depends on the registers, the budget and the next answer
(R172, R173, R178 to R180). -/

namespace Sys2Proof.Machine

section
variable {r : Rx} {ty : PacketType} {x : Byte}

/-! ## The transition table -/

/-- The leading markers of each packet type (R170). -/
theorem matchesMarker_iff :
    matchesMarker ty x = true ↔
      (ty = .msg ∧ x = 0x24) ∨ (ty = .notif ∧ x = 0x25) ∨ (ty = .ack ∧ (x = 0x2B ∨ x = 0x2D)) := by
  cases ty <;> simp [matchesMarker, chPlus, chMinus, chDollar, chPercent]

/-- In the body an unescaped byte other than `#` changes the escape record alone (R176). -/
theorem Rx.take_body_of_ne_hash (hs : r.state = .body) (hesc : r.esc = false) (hx : x ≠ 0x23) :
    r.take ty x = { r with n := r.n + 1, esc := decide (x = 0x7D) } := by
  rw [Rx.take_body_of_other hs, hesc, escAfter_false]
  rw [hesc, unescapedIs_false, Bool.and_eq_false_iff]
  exact .inr (decide_eq_false hx)

end

/-- Settles O44, row by row. -/
theorem receiverFollowsTheTransitionTable : Obligations.ReceiverFollowsTheTransitionTable := by
  intro ty x r
  refine ⟨fun hs hm => ?marker, fun hs hty hx => ?ack, fun hs hmsg hnotif hack => ?garbage, fun hs hesc => ?escaped,
    fun hs hesc hx => ?escape, fun hs hesc hx => ?hash, fun hs hesc hescape hhash => ?plain, fun hs hsfx => ?digit,
    fun hs hsfx => ?lastDigit⟩
  case marker =>
    have hm : IsMarker ty x := hm
    rw [Rx.take_prefix_of_marker hs hm.matchesMarker_eq, if_neg hm.ne_ack]
  case ack => rw [Rx.take_prefix_of_marker hs (matchesMarker_iff.mpr (.inr (.inr ⟨hty, hx⟩))), if_pos hty]
  case garbage =>
    have hm : ¬ matchesMarker ty x = true := by
      rw [matchesMarker_iff]
      exact not_or.mpr ⟨hmsg, not_or.mpr ⟨hnotif, hack⟩⟩
    rw [Rx.take_prefix_of_garbage hs (Bool.not_eq_true _ ▸ hm)]
  case escaped => rw [Rx.take_body_of_other hs (hesc ▸ unescapedIs_true _ _), hesc, escAfter_true]
  case escape => rw [Rx.take_body_of_ne_hash hs hesc (by rw [hx]; decide), decide_eq_true hx]
  case hash =>
    rw [Rx.take_body_of_hash hs (by rw [hesc, hx]; rfl), ← hesc]
  case plain => rw [Rx.take_body_of_ne_hash hs hesc hhash, decide_eq_false hescape, ← hesc]
  case digit =>
    rw [Rx.take_suffix hs, hsfx, ← hs]
    rfl
  case lastDigit =>
    rw [Rx.take_suffix hs, hsfx]
    rfl

section
variable {s t : State} {ty : PacketType} {m x d1 d2 : Byte} {xs garbage payload : List Byte}

/-! ## The registers along garbage and a packet -/

theorem IsMarker.matchesMarker_iff (hm : IsMarker ty m) : matchesMarker ty x = true ↔ x = m := by
  obtain ⟨rfl, rfl⟩ | ⟨rfl, rfl⟩ := hm <;> simp [matchesMarker_iff]

/-- Bytes that are no leading marker are counted and leave the receiver looking for one (R175). -/
theorem rxAfter_garbage (hg : ∀ y ∈ garbage, ¬ matchesMarker ty y = true) :
    rxAfter ty garbage = { Rx.reset with n := BitVec.ofNat 16 garbage.length } := by
  induction garbage using List.reverseRecOn with
  | nil => rfl
  | append_singleton ys y ih =>
    rw [rxAfter_concat, ih fun z hz => hg z (List.mem_append_left _ hz),
      Rx.take_prefix_of_garbage rfl (Bool.not_eq_true _ ▸ hg y (by simp)), List.length_append, List.length_singleton,
      BitVec.ofNat_add]
    rfl

/-- The registers one byte before the end of a framed packet behind garbage, and at its end (R175 to R177). -/
theorem rxAfter_framed (hm : IsMarker ty m) (hg : m ∉ garbage) (hclean : payloadClean false payload = true)
    (d1 d2 : Byte) :
    (rxAfter ty (garbage ++ (m :: payload ++ [0x23, d1]))).state = .suffix ∧
      rxAfter ty (garbage ++ (m :: payload ++ [0x23, d1]) ++ [d2]) =
        ⟨.done, false, 2, BitVec.ofNat 16 (garbage.length + (payload.length + 4)), BitVec.ofNat 16 garbage.length,
          BitVec.ofNat 16 (garbage.length + (payload.length + 1)), 0⟩ := by
  have hgarbage : rxAfter ty garbage = { Rx.reset with n := BitVec.ofNat 16 garbage.length } :=
    rxAfter_garbage fun y hy hmatch => hg (hm.matchesMarker_iff.mp hmatch ▸ hy)
  have hopen : rxAfter ty (garbage ++ (m :: payload ++ [0x23, d1])) =
      ⟨.suffix, false, 1, BitVec.ofNat 16 garbage.length + BitVec.ofNat 16 (payload.length + 3),
        BitVec.ofNat 16 garbage.length, BitVec.ofNat 16 garbage.length + BitVec.ofNat 16 (payload.length + 1), 0⟩ := by
    rw [rxAfter, List.foldl_append, ← rxAfter, hgarbage]
    exact foldl_take_packet_but_last hm hclean rfl rfl rfl d1
  rw [rxAfter_concat, hopen, Rx.take_suffix rfl]
  refine ⟨rfl, ?_⟩
  rw [idx_add_ofNat_add_one, BitVec.ofNat_add garbage.length, BitVec.ofNat_add garbage.length]
  rfl

/-! ## What a receive that has ended leaves -/

/-- The state of a receive that asks the source for nothing behind the bytes `xs`, with these answers to come. -/
def State.stoppedAfter (s : State) (ty : PacketType) (base : Nat) (xs : List Byte) (rest : List SrcAnswer) : State :=
  { s.received ty base xs with src := rest }

theorem State.stoppedAfter_rx (s : State) (ty : PacketType) (base : Nat) (xs : List Byte) (rest : List SrcAnswer) :
    (s.stoppedAfter ty base xs rest).rx = rxAfter ty xs :=
  s.received_rx ty base xs

theorem State.bytes_stoppedAfter (s : State) (ty : PacketType) (base : Nat) (rest : List SrcAnswer)
    (h : xs.length < 65536) : (s.stoppedAfter ty base xs rest).bytes base xs.length = xs := by
  rw [State.bytes_of_buf (s.received ty base xs) (s.stoppedAfter ty base xs rest) rfl rfl, s.bytes_received ty base h]

theorem State.stoppedAfter_keeps (s : State) (ty : PacketType) (base : Nat) (rest : List SrcAnswer)
    (h : xs.length < 65536) : KeepsAllButRx s (s.stoppedAfter ty base xs rest) base xs.length := by
  obtain ⟨⟨hparams, hseed, hhost⟩, hsink, hsent, hfstat, htok, hwr, hbuf⟩ := s.received_keeps ty base h
  exact ⟨⟨hparams, hseed, hhost⟩, hsink, hsent, hfstat, htok, hwr, hbuf⟩

theorem KeepsAllButRx.setRx_answer {base n : Nat} (h : KeepsAllButRx s t base n) (r : Rx) (st : Status)
    (r0 r1 : Idx) : KeepsAllButRx s ({ t with rx := r }.answer st r0 r1) base n := by
  obtain ⟨⟨hparams, hseed, hhost⟩, hsink, hsent, hfstat, htok, hwr, hbuf⟩ := h
  exact ⟨⟨hparams, hseed, hhost⟩, hsink, hsent, hfstat, htok, hwr, hbuf⟩

/-- What the bytes taken and an answer leave, whatever the answer is. -/
theorem State.stoppedAfter_answer (s : State) (ty : PacketType) (base : Nat) (rest : List SrcAnswer)
    (h : xs.length < 65536) (st : Status) (r0 r1 : Idx) :
    Responds ((s.stoppedAfter ty base xs rest).answer st r0 r1) st r0 r1 ∧
      ((s.stoppedAfter ty base xs rest).answer st r0 r1).src = rest ∧
      ((s.stoppedAfter ty base xs rest).answer st r0 r1).rx = rxAfter ty xs ∧
      KeepsAllButRx s ((s.stoppedAfter ty base xs rest).answer st r0 r1) base xs.length ∧
      ((s.stoppedAfter ty base xs rest).answer st r0 r1).bytes base xs.length = xs := by
  refine ⟨State.responds_answer _ _ _ _, rfl, s.stoppedAfter_rx ty base xs rest,
    (s.stoppedAfter_keeps ty base rest h).setRx_answer _ st r0 r1, ?_⟩
  rw [State.bytes_answer, s.bytes_stoppedAfter ty base rest h]

/-! ## The ends without DONE -/

/-- Where the bytes use up the budget before DONE, no further byte is asked for (R172). -/
theorem exec_rxRecv_full {base max : Idx} {rest : List SrcAnswer} (hf : s.fstat.fault = false)
    (hwin : base.toNat + max.toNat ≤ s.params.cap.toNat) (hlen : xs.length = max.toNat)
    (hopen : (rxAfter ty xs).state ≠ .done) (hsrc : s.src = xs.map .byte ++ rest) :
    exec (.rxRecv ty base max) s = .next ((s.stoppedAfter ty base.toNat xs rest).answer .endOfBuffer 0 0) := by
  have hmax := max.isLt
  have hn : (rxAfter ty xs).n = max := by
    apply BitVec.eq_of_toNat_eq
    rw [rxAfter_n_toNat ty (by omega), hlen]
  rw [exec_rxRecv_of_bytes hf hwin hlen.le hopen hsrc]
  rw [← State.received_rx s ty base.toNat] at hopen hn
  rw [State.recvLoop_full _ _ _ _ _ hopen hn, State.stoppedAfter]

/-- An error of the source behind bytes that neither reach DONE nor use up the budget ends the receive (R173). -/
theorem exec_rxRecv_err {base max : Idx} {low : BitVec 15} {rest : List SrcAnswer} (hf : s.fstat.fault = false)
    (hwin : base.toNat + max.toNat ≤ s.params.cap.toNat) (hlen : xs.length < max.toNat)
    (hopen : (rxAfter ty xs).state ≠ .done) (hsrc : s.src = xs.map .byte ++ .err low :: rest) :
    exec (.rxRecv ty base max) s =
      .next ((s.stoppedAfter ty base.toNat xs rest).answer .transport (errCode low) 0) := by
  have hn := rxAfter_n_ne ty hlen
  rw [exec_rxRecv_of_bytes hf hwin hlen.le hopen hsrc]
  rw [← State.received_rx s ty base.toNat] at hopen hn
  rw [State.recvLoop_err _ _ _ _ _ _ hopen hn, State.stoppedAfter]

/-! ## The validator -/

/-- Apart from the response, validation changes `RX.csum` alone (R179). -/
theorem State.recvFinish_frame (s : State) (base : Nat) (hty : ty ≠ .ack) :
    (s.recvFinish ty base).src = s.src ∧
      (s.recvFinish ty base).rx = { s.rx with csum := csum (s.rxPayload base) } ∧
      ∀ {v a n}, KeepsAllButRx v s a n → KeepsAllButRx v (s.recvFinish ty base) a n := by
  obtain ⟨hack, -⟩ | ⟨-, st, r0, r1, -, e⟩ := s.recvFinish_cases ty base
  · exact absurd hack hty
  · rw [e]
    exact ⟨rfl, rfl, fun h => h.setRx_answer _ st r0 r1⟩

/-- The validator refuses a field of another value (R179). -/
theorem State.recvFinish_of_mismatch {base : Nat} {d : Byte} (hty : ty ≠ .ack) (hfield : s.rxField base = some d)
    (hne : d ≠ csum (s.rxPayload base)) : Responds (s.recvFinish ty base) .checksumError 0 0 := by
  have hstatus : validateStatus (s.rxField base) (csum (s.rxPayload base)) = .checksumError := by
    rw [hfield]
    exact if_neg hne
  rw [State.recvFinish, if_neg hty]
  simp only [hstatus]
  exact State.responds_answer _ _ _ _

/-- The validator refuses a field that is no number before it looks at the checksum (R179). -/
theorem State.recvFinish_of_malformed {base : Nat} (hty : ty ≠ .ack) (hfield : s.rxField base = none) :
    Responds (s.recvFinish ty base) .invalid 0 0 := by
  rw [State.recvFinish, if_neg hty]
  simp only [hfield, validateStatus]
  exact State.responds_answer _ _ _ _

/-- Two digits stand for the checksum of the payload exactly where their value is the sum of its bytes (R100, R112). -/
theorem ofNat_digits_eq_csum_iff {h l : Nat} (h1 : IsHexDigit d1 h) (h2 : IsHexDigit d2 l) :
    BitVec.ofNat 8 (h * 16 + l) = csum payload ↔ h * 16 + l = sumMod256 payload := by
  have hh := h1.lt
  have hl := h2.lt
  rw [← BitVec.toNat_inj, BitVec.toNat_ofNat, csum_toNat, Nat.mod_eq_of_lt (by omega)]

/-- The validator's three outcomes for a window that holds this payload and this field (R179). -/
theorem State.recvFinish_validates {base : Nat} (hty : ty ≠ .ack) (hpayload : s.rxPayload base = payload)
    (hfield : s.rxField base = hexPair d1 d2) :
    (∀ h l, IsHexDigit d1 h → IsHexDigit d2 l → h * 16 + l = sumMod256 payload →
      Responds (s.recvFinish ty base) .ok s.rx.n s.rx.mark) ∧
    (∀ h l, IsHexDigit d1 h → IsHexDigit d2 l → h * 16 + l ≠ sumMod256 payload →
      Responds (s.recvFinish ty base) .checksumError 0 0) ∧
    ((¬ ∃ h, IsHexDigit d1 h) ∨ (¬ ∃ l, IsHexDigit d2 l) → Responds (s.recvFinish ty base) .invalid 0 0) := by
  subst hpayload
  refine ⟨fun h l h1 h2 hsum => ?_, fun h l h1 h2 hsum => ?_, fun hnot => ?_⟩
  · rw [hexPair_of_digits h1 h2, (ofNat_digits_eq_csum_iff h1 h2).mpr hsum] at hfield
    rw [State.recvFinish_of_valid hty hfield]
    exact State.responds_answer _ _ _ _
  · rw [hexPair_of_digits h1 h2] at hfield
    exact State.recvFinish_of_mismatch hty hfield ((ofNat_digits_eq_csum_iff h1 h2).not.mpr hsum)
  · exact State.recvFinish_of_malformed hty (hfield.trans (hexPair_of_not hnot))

/-! ## A framed packet behind garbage -/

/-- A receive of a framed packet behind garbage ends at its second digit, in DONE (R175 to R177, R183). -/
theorem exec_rxRecv_framed {base max : Idx} {rest : List SrcAnswer} (hf : s.fstat.fault = false)
    (hwin : base.toNat + max.toNat ≤ s.params.cap.toNat) (hm : IsMarker ty m) (hg : m ∉ garbage)
    (hclean : payloadClean false payload = true) (hxs : xs = garbage ++ (m :: payload ++ [0x23, d1, d2]))
    (hlen : xs.length ≤ max.toNat) (hsrc : s.src = xs.map .byte ++ rest) :
    exec (.rxRecv ty base max) s = .next (State.recvFinish ty base.toNat (s.stoppedAfter ty base.toNat xs rest)) ∧
      (s.stoppedAfter ty base.toNat xs rest).rx =
        ⟨.done, false, 2, BitVec.ofNat 16 xs.length, BitVec.ofNat 16 garbage.length,
          BitVec.ofNat 16 (garbage.length + (payload.length + 1)), 0⟩ := by
  have hcount : xs.length = garbage.length + (payload.length + 4) := by simp [hxs]
  have hsplit : xs = garbage ++ (m :: payload ++ [0x23, d1]) ++ [d2] := by simp [hxs]
  obtain ⟨hopen, hend⟩ := rxAfter_framed hm hg hclean d1 d2
  rw [← hsplit, ← hcount] at hend
  rw [hsplit, List.length_append, List.length_singleton] at hlen
  have hexec := exec_rxRecv_of_done hf hwin hlen (by rw [hopen]; exact RxState.noConfusion)
    (by rw [← hsplit, hend]) (hsplit ▸ hsrc)
  rw [← hsplit] at hexec
  exact ⟨hexec, (s.stoppedAfter_rx ty base.toNat xs rest).trans hend⟩

end

/-- Settles O47: the bytes taken are as many as the budget. -/
theorem recvEndsWhenTheBudgetIsUsedUp : Obligations.RecvEndsWhenTheBudgetIsUsedUp := by
  intro s ty base max xs rest hf hwin hlen hopen hsrc
  have hmax := max.isLt
  exact ⟨_, exec_rxRecv_full hf hwin hlen hopen hsrc, s.stoppedAfter_answer ty _ rest (by omega) _ _ _⟩

/-- Settles O48: the source's error is met before DONE and within the budget. -/
theorem recvEndsWithTheSourcesError : Obligations.RecvEndsWithTheSourcesError := by
  intro s ty base max xs low rest hf hwin hlen hopen hsrc
  have hmax := max.isLt
  exact ⟨_, errCode low, exec_rxRecv_err hf hwin hlen hopen hsrc, isErrCode_errCode low,
    s.stoppedAfter_answer ty _ rest (by omega) _ _ _⟩

/-- Settles O46: the ack byte ends the receive, and an Ack packet is not validated. -/
theorem recvOfAnAckPacketIsAccepted : Obligations.RecvOfAnAckPacketIsAccepted := by
  intro s base max garbage x xs rest hf hwin hplus hminus hx hxs hlen hsrc
  subst hxs
  have hmax := max.isLt
  have hgarbage : rxAfter .ack garbage = { Rx.reset with n := BitVec.ofNat 16 garbage.length } :=
    rxAfter_garbage fun y hy hmatch => by
      obtain ⟨h, -⟩ | ⟨h, -⟩ | ⟨-, rfl | rfl⟩ := matchesMarker_iff.mp hmatch
      · cases h
      · cases h
      · exact hplus hy
      · exact hminus hy
  have hrx : rxAfter .ack (garbage ++ [x]) =
      ⟨.done, false, 0, BitVec.ofNat 16 (garbage ++ [x]).length, BitVec.ofNat 16 garbage.length, 0, 0⟩ := by
    rw [rxAfter_concat, hgarbage, Rx.take_prefix_of_marker rfl (matchesMarker_iff.mpr (.inr (.inr ⟨rfl, hx⟩))),
      List.length_append, List.length_singleton, BitVec.ofNat_add]
    rfl
  have hexec := exec_rxRecv_of_done hf hwin (by rw [List.length_append, List.length_singleton] at hlen; omega)
    (by rw [hgarbage]; exact RxState.noConfusion) (by rw [hrx]) hsrc
  rw [← State.stoppedAfter, State.recvFinish, if_pos rfl, State.stoppedAfter_rx, hrx] at hexec
  obtain ⟨hresponds, hrest, hregs, hkeeps, hbytes⟩ := s.stoppedAfter_answer .ack base.toNat rest
    (xs := garbage ++ [x]) (by omega) .ok (BitVec.ofNat 16 (garbage ++ [x]).length) (BitVec.ofNat 16 garbage.length)
  exact ⟨_, hexec, hrest, hkeeps, hbytes, hregs.trans hrx, hresponds⟩

/-- Settles O45: the second digit takes the receiver to DONE, where the window holds the payload and the field that the
validator looks at. -/
theorem recvOfAFramedPacketIsValidated : Obligations.RecvOfAFramedPacketIsValidated := by
  intro s ty base max garbage payload m d1 d2 xs rest hf hwin hm hg hclean hxs hlen hsrc
  rw [List.append_assoc] at hxs
  have hcount : xs.length = garbage.length + (payload.length + 4) := by simp [hxs]
  have hsmall : xs.length < 65536 := hlen.trans_lt max.isLt
  have hfits : ∀ k ≤ xs.length, (BitVec.ofNat 16 k).toNat = k := fun k hk => by
    rw [BitVec.toNat_ofNat, Nat.mod_eq_of_lt (hk.trans_lt hsmall)]
  obtain ⟨hexec, hrx⟩ := exec_rxRecv_framed hf hwin hm hg hclean hxs hlen hsrc
  have hkeeps := s.stoppedAfter_keeps ty base.toNat rest hsmall
  have hbytes := s.bytes_stoppedAfter ty base.toNat rest hsmall
  have hsrcLeft : (s.stoppedAfter ty base.toNat xs rest).src = rest := rfl
  generalize s.stoppedAfter ty base.toNat xs rest = u at *
  have hmark : u.rx.mark.toNat = garbage.length := by rw [hrx, hfits _ (by omega)]
  have hhash : u.rx.hash.toNat = garbage.length + (payload.length + 1) := by rw [hrx, hfits _ (by omega)]
  have hwindow := (State.bytes_eq_append (hxs ▸ hbytes)).2
  obtain ⟨hpayload, hfield⟩ := State.validated_of_packet (hmark ▸ hwindow) (by rw [hhash, hmark])
  have hvalidates := State.recvFinish_validates hm.ne_ack hpayload hfield
  obtain ⟨hsrcEnd, hrxEnd, hkeepsEnd⟩ := u.recvFinish_frame base.toNat hm.ne_ack
  refine ⟨_, hexec, hsrcEnd.trans hsrcLeft, hkeepsEnd hkeeps, (u.bytes_recvFinish ..).trans hbytes, ?_⟩
  rw [hrxEnd, hpayload]
  rw [hrx] at hvalidates hmark hhash ⊢
  exact ⟨rfl, rfl, rfl, hfits _ le_rfl, hmark, by rw [hhash]; omega, csum_toNat payload, hvalidates⟩

end Sys2Proof.Machine

/-! # The packet tokenizer

A tokenizer operation that passes its checks changes the tokenizer's registers and the response alone. What an advance
gives depends on the current triple, the domain and `BUF`; the previous triple and the armed bit play no part in it,
which is why a rewind can repeat an advance (R200). -/

namespace Sys2Proof.Machine

/-- A tokenizer operation ends by new tokenizer registers and a response. -/
theorem State.keepsAllButTok_answer (s : State) (k : Tok) (st : Status) (r0 r1 : Idx) :
    KeepsAllButTok s ({ s with tok := k }.answer st r0 r1) :=
  ⟨⟨rfl, rfl, rfl⟩, ⟨rfl, rfl, rfl⟩, rfl, rfl, rfl, fun _ => rfl⟩

/-! ## TOK.INIT and TOK.REWIND -/

theorem exec_tokInit_of_checks {s : State} {ty : PacketType} {base len : Idx} (hf : s.fstat.fault = false)
    (hwin : base.toNat + len.toNat ≤ s.params.cap.toNat) (hlen : ty = .ack ∨ 4 ≤ len.toNat) :
    exec (.tokInit ty base len) s = .next ({ s with tok := Tok.init ty base len }.answer .ok 0 0) := by
  have hshort : (ty == .ack || decide (4 ≤ len.toNat)) = true := by simpa using hlen
  rw [exec, execTokInit, unlessFaulted_clear hf, (windowLegal_iff _ _ _).mpr hwin, check_true, hshort, check_true]

/-- The registers of a cursor on the payload of a Message or Notification: the skip over the marker is recorded
(R190). -/
theorem Tok.init_of_ne_ack {ty : PacketType} (hty : ty ≠ .ack) (base len : Idx) :
    Tok.init ty base len = ⟨true, false, base, len - 3, 0, 0, true, 0, 0, true⟩ := by
  have hskip : (ty != .ack) = true := bne_iff_ne.mpr hty
  rw [Tok.init, hskip, if_neg hty]

/-- What `TOK.REWIND` leaves where it passes its checks (R200). -/
def State.rewound (s : State) : State := { s with tok := s.tok.rewind }.answer .ok 0 0

theorem exec_tokRewind_of_armed {s : State} (hf : s.fstat.fault = false) (hv : s.tok.valid = true)
    (ha : s.tok.armed = true) : exec .tokRewind s = .next s.rewound := by
  rw [exec, execTokRewind, unlessFaulted_clear hf, hv, check_true, ha, check_true, State.rewound]

theorem exec_tokRewind_of_unarmed {s : State} (hf : s.fstat.fault = false) (hv : s.tok.valid = true)
    (ha : s.tok.armed = false) : exec .tokRewind s = .next (s.raise .tokRewindUnarmed) := by
  rw [exec, execTokRewind, unlessFaulted_clear hf, hv, check_true, ha, check_false]

/-! ## The checks of TOK.ADV -/

theorem Tok.cursorInside_iff (t : Tok) (p : Params) :
    t.cursorInside p = true ↔ t.scanStart ≤ t.domEnd.toNat ∧ t.base.toNat + t.domEnd.toNat ≤ p.cap.toNat := by
  simp [Tok.cursorInside]

/-- An advance passes the checks of R201 and R229, and its cursor is inside the domain (R17). -/
structure AdvancePasses (m : DelimMode) (d : Byte) (s : State) : Prop where
  clear : s.fstat.fault = false
  delim : m.allowsDelim d = true
  valid : s.tok.valid = true
  notEscape : ¬ (m = .literal ∧ d = 0x7D)
  inside : s.tok.cursorInside s.params = true

section
variable {s t : State} {m : DelimMode} {d : Byte}

theorem badDelim_check_iff : (!(m == .literal && d == chEscape)) = true ↔ ¬ (m = .literal ∧ d = 0x7D) := by
  simp [chEscape, imp_iff_not_or]

theorem AdvancePasses.exec_eq (h : AdvancePasses m d s) : exec (.tokAdv m d) s = .next (s.advance m d) := by
  rw [exec, execTokAdv, unlessFaulted_clear h.clear, h.delim, check_true, h.valid, check_true,
    badDelim_check_iff.mpr h.notEscape, check_true, if_pos h.inside]

/-- An advance that ends without a fault has passed its checks, since a failed one is latched (R226). -/
theorem exec_tokAdv_passes (hf : s.fstat.fault = false) (h : exec (.tokAdv m d) s = .next t)
    (ht : t.fstat.fault = false) : AdvancePasses m d s ∧ t = s.advance m d := by
  have hraise : ∀ c, t ≠ s.raise c := fun c e => by
    rw [e] at ht
    exact Bool.noConfusion ht
  rw [exec, execTokAdv, unlessFaulted_clear hf] at h
  obtain ⟨hd, h⟩ := (check_cases h).resolve_right fun e => hraise _ e.2
  obtain ⟨hv, h⟩ := (check_cases h).resolve_right fun e => hraise _ e.2
  obtain ⟨he, h⟩ := (check_cases h).resolve_right fun e => hraise _ e.2
  split at h
  · next hin =>
    cases h
    exact ⟨⟨hf, hd, hv, badDelim_check_iff.mp he, hin⟩, rfl⟩
  · cases h

/-! ## What an advance does -/

/-- The registers after an advance: the triple of before becomes the previous one, and the rewind is armed (R193). -/
theorem Tok.save_setCur (t : Tok) (p q : Nat) (found : Bool) :
    t.save.setCur p q found = ⟨t.valid, true, t.base, t.domEnd, BitVec.ofNat 16 p, BitVec.ofNat 16 (q - p), found,
      t.curStart, t.curLen, t.skip⟩ := rfl

/-- Every advance sets the current triple, with the earlier one saved, and answers. -/
theorem State.advance_cases (s : State) (m : DelimMode) (d : Byte) :
    ∃ p q found st r0 r1, s.advance m d = { s with tok := s.tok.save.setCur p q found }.answer st r0 r1 := by
  rw [State.advance]
  split
  · exact ⟨_, _, _, _, _, _, rfl⟩
  · exact ⟨_, _, _, _, _, _, rfl⟩

/-- After an advance of any status a rewind passes its checks (R200). -/
theorem AdvancePasses.armed (h : AdvancePasses m d s) :
    (s.advance m d).tok.valid = true ∧ (s.advance m d).tok.armed = true := by
  obtain ⟨p, q, found, st, r0, r1, e⟩ := s.advance_cases m d
  rw [e]
  exact ⟨h.valid, rfl⟩

/-- R194 with R193. -/
theorem AdvancePasses.at_end (h : AdvancePasses m d s) (hp : s.tok.scanStart = s.tok.domEnd.toNat) :
    ∃ t, exec (.tokAdv m d) s = .next t ∧ Responds t .endOfBuffer s.tok.domEnd 0 ∧ KeepsAllButTok s t ∧
      t.tok = ⟨true, true, s.tok.base, s.tok.domEnd, s.tok.domEnd, 0, false,
        s.tok.curStart, s.tok.curLen, s.tok.skip⟩ := by
  refine ⟨_, h.exec_eq, ?_⟩
  rw [State.advance, if_pos hp, hp, Tok.save_setCur, h.valid, ← eq_ofNat_of_toNat rfl, Nat.sub_self]
  exact ⟨State.responds_answer .., s.keepsAllButTok_answer .., rfl⟩

/-- R193, R198: the advance before the end of the domain, by the length of the token that `State.tokenEnd` finds. -/
theorem AdvancePasses.before_end (h : AdvancePasses m d s) {p k : Nat} {found : Bool} (hp : s.tok.scanStart = p)
    (hne : p ≠ s.tok.domEnd.toNat) (hend : s.tokenEnd m d p = (p + k, found)) :
    ∃ t, exec (.tokAdv m d) s = .next t ∧
      Responds t (advStatus s.params m found (decide (p + k = s.tok.domEnd.toNat)))
        (BitVec.ofNat 16 p) (BitVec.ofNat 16 k) ∧
      KeepsAllButTok s t ∧
      t.tok = ⟨true, true, s.tok.base, s.tok.domEnd, BitVec.ofNat 16 p, BitVec.ofNat 16 k, found,
        s.tok.curStart, s.tok.curLen, s.tok.skip⟩ := by
  refine ⟨_, h.exec_eq, ?_⟩
  rw [State.advance, hp, if_neg hne, hend]
  dsimp only
  rw [Tok.save_setCur, h.valid, Nat.add_sub_cancel_left]
  exact ⟨State.responds_answer .., s.keepsAllButTok_answer .., rfl⟩

/-- At the end of the domain the advance leaves a state in which it passes its checks again, at the end still (R194). -/
theorem AdvancePasses.again_at_end (h : AdvancePasses m d s) (hk : KeepsAllButTok s t) {armed skip : Bool}
    {start len : Idx}
    (ht : t.tok = ⟨true, armed, s.tok.base, s.tok.domEnd, s.tok.domEnd, 0, false, start, len, skip⟩) :
    AdvancePasses m d t ∧ t.tok.scanStart = t.tok.domEnd.toNat := by
  have hstart : t.tok.scanStart = t.tok.domEnd.toNat := by rw [ht]; rfl
  have hdom := ((Tok.cursorInside_iff _ _).mp h.inside).2
  refine ⟨⟨hk.fstat ▸ h.clear, h.delim, by rw [ht], h.notEscape, ?_⟩, hstart⟩
  refine (Tok.cursorInside_iff _ _).mpr ⟨hstart.le, ?_⟩
  rw [hk.outside.params, ht]
  exact hdom

/-! ## What an advance looks at -/

/-- What ends a token is found in `BUF`, up to the end of the domain. -/
theorem State.tokenEnd_of_buf (s t : State) (hb : t.buf = s.buf) (hs : t.seed = s.seed)
    (hbase : t.tok.base = s.tok.base) (hdom : t.tok.domEnd = s.tok.domEnd) (m : DelimMode) (d : Byte) (p : Nat) :
    t.tokenEnd m d p = s.tokenEnd m d p := by
  cases m with
  | literal => simp only [State.tokenEnd, State.scan_eq, State.bytes_of_buf s t hb hs, hbase, hdom]
  | single => rfl
  | toEnd => rw [State.tokenEnd, State.tokenEnd, hdom]

/-- A state with another history of its cursor (the armed bit and the previous triple) and another response
or operation in flight. -/
def State.withHistory (s : State) (armed : Bool) (start len : Idx) (skip : Bool) (r : Option RspWord)
    (b : Option Instr) : State :=
  { s with
    tok := { s.tok with armed := armed, prevStart := start, prevLen := len, prevSkip := skip }, rsp := r, busy := b }

/-- Neither the history of the cursor nor the response of before matters to an advance, which sets them all. -/
theorem State.advance_withHistory (s : State) (m : DelimMode) (d : Byte) (armed : Bool) (start len : Idx) (skip : Bool)
    (r : Option RspWord) (b : Option Instr) :
    State.advance m d (s.withHistory armed start len skip r b) = s.advance m d := by
  have hend := s.tokenEnd_of_buf (s.withHistory armed start len skip r b) rfl rfl rfl rfl m d
  simp only [State.advance, hend]
  rfl

/-- R200: a rewind after an advance restores the current triple, which stays as the previous one too. -/
theorem State.rewound_advance (s : State) (m : DelimMode) (d : Byte) :
    (s.advance m d).rewound =
      s.withHistory false s.tok.curStart s.tok.curLen s.tok.skip (some (rspWord .ok 0 0)) none := by
  obtain ⟨p, q, found, st, r0, r1, e⟩ := s.advance_cases m d
  rw [e]
  rfl

/-- The checks of an advance, too, do not look at the history, so they pass again after a rewind. -/
theorem AdvancePasses.rewound (h : AdvancePasses m d s) : AdvancePasses m d (s.advance m d).rewound := by
  rw [State.rewound_advance]
  exact ⟨h.clear, h.delim, h.valid, h.notEscape, h.inside⟩

end

/-- Settles O57: the rewind leaves what the advance started from but for the history and the response, which an advance
does not look at. -/
theorem advanceAfterRewindGivesTheSameToken : Obligations.AdvanceAfterRewindGivesTheSameToken := by
  intro s t m d hf hexec ht
  obtain ⟨h, rfl⟩ := exec_tokAdv_passes hf hexec ht
  obtain ⟨hv, ha⟩ := h.armed
  have hrewind := exec_tokRewind_of_armed ht hv ha
  have hagain := h.rewound.exec_eq
  rw [State.rewound_advance] at hrewind
  rw [State.rewound_advance, State.advance_withHistory] at hagain
  exact ⟨_, _, hrewind, ⟨rfl, rfl⟩, rfl, rfl, rfl, hagain, rfl, rfl⟩

/-- Settles O53: the scan of the model finds the length of the token before the first delimiter outside an escape
pair (`State.scan_eq`). -/
theorem tokAdvSplitsAtTheFirstUnescapedDelimiter : Obligations.TokAdvSplitsAtTheFirstUnescapedDelimiter := by
  intro s d p n token found hf hv htok hd hp hn hpos htoken
  have h : AdvancePasses .literal d s := ⟨hf, rfl, hv, fun e => hd e.2, htok.cursorInside hv⟩
  have hend : s.tokenEnd .literal d p = (p + token.length, found) := by
    rw [State.tokenEnd, show s.tok.domEnd.toNat - p = n by omega]
    simp only [State.scan_eq, ← htoken]
  exact h.before_end hp.symm (by omega) hend

/-- Settles O54: SINGLE ends its token after one byte, END at the end of the domain. -/
theorem tokAdvTakesOneByteOrTheRest : Obligations.TokAdvTakesOneByteOrTheRest := by
  intro s p n hf hv htok hp hn hpos
  have hpasses : ∀ m : DelimMode, m ≠ .literal → m.allowsDelim 0 = true → AdvancePasses m 0 s :=
    fun m hm hd => ⟨hf, hd, hv, fun e => hm e.1, htok.cursorInside hv⟩
  have hne : p ≠ s.tok.domEnd.toNat := by omega
  constructor
  · obtain ⟨t, hexec, hresponds, hrest⟩ := (hpasses .single (by decide) rfl).before_end hp.symm hne (k := 1) rfl
    have hstatus : advStatus s.params .single false (decide (p + 1 = s.tok.domEnd.toNat)) =
        if n = 1 ∧ s.params.singleLastIsNotFound = true then .notFound else .ok := by
      have hlast : p + 1 = s.tok.domEnd.toNat ↔ n = 1 := by omega
      simp only [advStatus, Bool.and_eq_true, decide_eq_true_eq, hlast]
    exact ⟨t, hexec, hstatus ▸ hresponds, hrest⟩
  · exact (hpasses .toEnd (by decide) rfl).before_end hp.symm hne (by rw [State.tokenEnd, hn])

/-- Settles O52: a legal window, and a packet of at least 4 bytes where it has a marker, pass the checks. -/
theorem tokInitPlacesTheCursor : Obligations.TokInitPlacesTheCursor := by
  intro s ty base len hf hwin
  constructor
  · rintro rfl
    exact ⟨_, exec_tokInit_of_checks hf hwin (.inl rfl), State.responds_answer .., s.keepsAllButTok_answer .., rfl⟩
  · intro hty hlen
    have hdom : (len - 3).toNat = len.toNat - 3 := BitVec.toNat_sub_of_le (BitVec.le_def.mpr (by simp; omega))
    exact ⟨_, len - 3, exec_tokInit_of_checks hf hwin (.inr hlen), State.responds_answer ..,
      s.keepsAllButTok_answer .., hdom, Tok.init_of_ne_ack hty base len⟩

/-- Settles O55: the empty triple at the end of the domain has the same scan start, so the advance is at the end
again. -/
theorem tokAdvAtTheDomainsEnd : Obligations.TokAdvAtTheDomainsEnd := by
  intro s m d hf hv htok hwf hesc hp
  have h : AdvancePasses m d s := ⟨hf, hwf, hv, hesc, htok.cursorInside hv⟩
  obtain ⟨t, hexec, hresponds, hkeeps, ht⟩ := h.at_end hp
  obtain ⟨hagain, hstart⟩ := h.again_at_end hkeeps ht
  have hsecond := hagain.at_end hstart
  rw [ht] at hsecond
  exact ⟨t, hexec, hresponds, hkeeps, ht, hsecond⟩

/-- Settles O56: the first rewind disarms the second. -/
theorem tokRewindRestoresThePreviousTriple : Obligations.TokRewindRestoresThePreviousTriple := by
  intro s hf hv ha
  have hrewound : s.rewound.tok = ⟨true, false, s.tok.base, s.tok.domEnd, s.tok.prevStart, s.tok.prevLen,
      s.tok.prevSkip, s.tok.prevStart, s.tok.prevLen, s.tok.prevSkip⟩ := by
    rw [← hv]
    rfl
  exact ⟨_, exec_tokRewind_of_armed hf hv ha, State.responds_answer .., s.keepsAllButTok_answer .., hrewound, _,
    exec_tokRewind_of_unarmed (s := s.rewound) hf hv rfl, State.onlyFaults_raise ..⟩

end Sys2Proof.Machine

/-! # Access to the bytes of `BUF` -/

namespace Sys2Proof.Machine

section
variable {s : State} {idx : Idx}

/-- At a legal index, `BUF.LD` only answers (R210). -/
theorem exec_bufLd_of_index (hf : s.fstat.fault = false) (hidx : idx.toNat < s.params.cap.toNat) :
    exec (.bufLd idx) s = .next (s.answer .ok (byteField (s.byteAt idx.toNat)) 0) := by
  rw [exec, execBufLd, unlessFaulted_clear hf, (indexLegal_iff _ _).mpr hidx, check_true]

/-- At a legal index, `BUF.ST` writes its byte and answers (R211). -/
theorem exec_bufSt_of_index (hf : s.fstat.fault = false) (hidx : idx.toNat < s.params.cap.toNat) (v : Byte) :
    exec (.bufSt idx v) s = .next ((s.setByte idx.toNat v).answer .ok 0 0) := by
  rw [exec, execBufSt, unlessFaulted_clear hf, (indexLegal_iff _ _).mpr hidx, check_true]

/-- A `BUF.LD` of the index that `BUF.ST` wrote gives the written byte. -/
theorem exec_bufLd_of_stored (hf : s.fstat.fault = false) (hidx : idx.toNat < s.params.cap.toNat) (v : Byte) :
    exec (.bufLd idx) ((s.setByte idx.toNat v).answer .ok 0 0) =
      .next (((s.setByte idx.toNat v).answer .ok 0 0).answer .ok (byteField v) 0) := by
  rw [exec_bufLd_of_index (s := (s.setByte idx.toNat v).answer .ok 0 0) hf hidx, State.byteAt_answer,
    State.byteAt_setByte_same]

end

/-- Settles O58: a legal index passes the check, and the operation only answers. -/
theorem bufLdReturnsTheByte : Obligations.BufLdReturnsTheByte := by
  intro s idx hclear hidx
  exact ⟨_, exec_bufLd_of_index hclear hidx, s.onlyResponds_answer _ _ _⟩

/-- Settles O59: the store is one write to `BUF` under an answer, so the rules of that write say what each index reads
afterwards, and the load finds the byte. -/
theorem bufStWritesOneByte : Obligations.BufStWritesOneByte := by
  intro s idx v hclear hidx
  refine ⟨_, exec_bufSt_of_index hclear hidx v, State.responds_answer _ _ _ _, ?_, fun a ha => ?_,
    ⟨rfl, rfl, rfl⟩, ⟨rfl, rfl, rfl⟩, ⟨rfl, rfl, rfl, rfl⟩, ?_⟩
  · rw [State.byteAt_answer, State.byteAt_setByte_same]
  · rw [State.byteAt_answer, State.byteAt_setByte_other _ _ _ _ ha]
  · exact ⟨_, exec_bufLd_of_stored hclear hidx v, State.onlyResponds_answer _ _ _ _⟩

end Sys2Proof.Machine

/-! # How an operation ends

The checks of an operation and the order of its faults (`firstFault`) have the same shape. `DecidedBy` sets them side by
side, one rule per check, so that one pass through the operations says of each both which fault it raises and, where it
raises none, how it ends. That a fault is precise (R226), that the first failing check decides it (R229) and that every
operation ends with a status of its row (R220) are three readings of `exec_decidedBy`. -/

namespace Sys2Proof.Machine

/-- The operations that make transport requests, which alone can be left in flight (R272). -/
def UsesTransport (i : Instr) : Prop := (∃ ty base max, i = .rxRecv ty base max) ∨ UsesSink i

/-- The operation is in flight, where it may be, or has ended with a status of its row (R220, R272). -/
def EndsAsListed (i : Instr) (t : State) : Prop :=
  (Waits t i ∧ UsesTransport i) ∨ ∃ st r0 r1, st ∈ allowedStatuses i ∧ Responds t st r0 r1

/-- The operation has recorded no fault, and has ended or waits as the table of R220 lists. -/
structure EndsUnfaulted (i : Instr) (s t : State) : Prop where
  fstat : t.fstat = s.fstat
  listed : EndsAsListed i t

/-- A cause is raised and does nothing else; where there is none, every next state records no fault. -/
def DecidedBy (i : Instr) (s : State) : Option Cause → Result → Prop
  | some c, r => r = .next (s.raise c)
  | none, r => ∀ t, r = .next t → EndsUnfaulted i s t

section
variable {i : Instr} {s u : State} {o : Option Cause} {k : Result} {st : Status}

/-! ## The statuses of R220 -/

theorem ok_mem_allowedStatuses (i : Instr) : .ok ∈ allowedStatuses i := by
  cases i <;> exact List.mem_cons_self

theorem fault_mem_allowedStatuses (i : Instr) : .fault ∈ allowedStatuses i := by
  cases i <;> simp [allowedStatuses]

theorem UsesTransport.transport_mem_allowedStatuses (hi : UsesTransport i) : .transport ∈ allowedStatuses i := by
  obtain ⟨ty, base, max, rfl⟩ | ⟨v, rfl⟩ | ⟨f, rfl⟩ | rfl := hi <;> simp [allowedStatuses]

theorem EndsUnfaulted.answer {r0 r1 : Idx} (hu : u.fstat = s.fstat) (hst : st ∈ allowedStatuses i) :
    EndsUnfaulted i s (u.answer st r0 r1) :=
  ⟨hu, .inr ⟨st, r0, r1, hst, u.responds_answer st r0 r1⟩⟩

theorem EndsUnfaulted.wait (hu : u.fstat = s.fstat) (hi : UsesTransport i) : EndsUnfaulted i s (u.wait i) :=
  ⟨hu, .inl ⟨⟨rfl, rfl⟩, hi⟩⟩

/-! ## The rules for checks -/

theorem DecidedBy.next (h : EndsUnfaulted i s u) : DecidedBy i s none (.next u) := fun t ht => by
  cases ht
  exact h

/-- An operation that only answers. -/
theorem DecidedBy.answer {r0 r1 : Idx} (hu : u.fstat = s.fstat) (hst : st ∈ allowedStatuses i) :
    DecidedBy i s none (.next (u.answer st r0 r1)) :=
  .next (.answer hu hst)

theorem DecidedBy.unlessFaulted (hf : s.fstat.fault = false) (h : DecidedBy i s o k) :
    DecidedBy i s o (unlessFaulted s k) := by
  rwa [unlessFaulted_clear hf]

/-- The check for a condition comes where the order of the faults asks for it (R229). -/
theorem DecidedBy.check {ok : Bool} {c : Cause} {bad : Prop} [Decidable bad] (hok : ok = true ↔ ¬ bad)
    (h : DecidedBy i s o k) : DecidedBy i s (if bad then some c else o) (check ok c s k) := by
  cases ok with
  | true => rwa [if_neg (hok.mp rfl)]
  | false =>
    rw [if_pos (by simpa using hok)]
    exact check_false c s k

theorem DecidedBy.checkWindow {base len : Idx} {c : Cause} (h : DecidedBy i s o k) :
    DecidedBy i s (if s.params.cap.toNat < base.toNat + len.toNat then some c else o)
      (Machine.check (windowLegal s.params base len) c s k) :=
  .check (by rw [windowLegal_iff, not_lt]) h

theorem DecidedBy.checkIndex {idx : Idx} {c : Cause} (h : DecidedBy i s o k) :
    DecidedBy i s (if s.params.cap.toNat ≤ idx.toNat then some c else o)
      (Machine.check (indexLegal s.params idx) c s k) :=
  .check (by rw [indexLegal_iff, not_le]) h

theorem wrFault_or (w : Wr) (o : Option Cause) :
    (wrFault w).or o =
      if w.valid = false then some .wrNotInit else if w.finished = true then some .wrAfterFinished else o := by
  unfold wrFault
  split_ifs <;> rfl

/-- The two checks that every writer operation but `WR.INIT` begins with (R159, orders 1 and 2). -/
theorem DecidedBy.checkWriter (h : DecidedBy i s o k) :
    DecidedBy i s ((wrFault s.wr).or o)
      (Machine.check s.wr.valid .wrNotInit s (Machine.check (!s.wr.finished) .wrAfterFinished s k)) := by
  rw [wrFault_or]
  exact .check (by simp) (.check (by simp) h)

/-! ## The order of the faults of the writer and of `CSR.RD` -/

theorem firstFault_wrPush (s : State) (v : Byte) :
    firstFault (.wrPush v) s = (wrFault s.wr).or
      (if s.wr.type = .ack then some .wrWrongType
        else if s.wr.trailer = true then some .wrPushAfterTrailer else none) := by
  unfold firstFault
  cases wrFault s.wr <;> rfl

theorem firstFault_wrPushAck (s : State) (f : Bool) :
    firstFault (.wrPushAck f) s = (wrFault s.wr).or
      (if s.wr.type ≠ .ack then some .wrWrongType
        else if s.wr.ackSent = true then some .wrAckTwice else none) := by
  unfold firstFault
  cases wrFault s.wr <;> rfl

theorem firstFault_wrFinish (s : State) :
    firstFault .wrFinish s = (wrFault s.wr).or
      (if s.wr.type = .ack ∧ s.wr.ackSent = false then some .wrAckNotPushed else none) := by
  unfold firstFault
  cases wrFault s.wr <;> rfl

/-- The numbers of R22 are those that have a register. -/
theorem firstFault_csrRd (s : State) (num : Byte) :
    firstFault (.csrRd num) s = if (s.csr num).isSome = true then none else some .badCsr := by
  generalize hcsr : s.csr num = register
  unfold State.csr at hcsr
  split at hcsr
  all_goals
    subst hcsr
    simp_all [firstFault]

/-! ## The ends of the operations that use the transport -/

theorem State.flush_fstat (s : State) : s.flush.2.fstat = s.fstat := by
  rw [State.flush]
  obtain ⟨rest, -, e⟩ | ⟨j, low, rest, -, -, e⟩ | ⟨j, rest, -, -, -, e⟩ := s.flushN_cases s.wr.laN.toNat <;>
    exact congrArg (fun r => r.2.fstat) e

theorem State.sinkSend_fstat (s : State) (b : Byte) : (s.sinkSend b).2.fstat = s.fstat := by
  obtain ⟨rest, -, e⟩ | ⟨low, rest, -, e⟩ | ⟨-, e⟩ := s.sinkSend_cases b <;> exact congrArg (fun r => r.2.fstat) e

/-- A writer operation whose requests are not all accepted ends with TRANSPORT or waits (R157, R272). -/
theorem EndsUnfaulted.afterSends {r : SendEnd × State} {go : State → State} (hi : UsesSink i)
    (hr : r.2.fstat = s.fstat) (hgo : EndsUnfaulted i s (go r.2)) :
    EndsUnfaulted i s (afterSends i r go) := by
  have hi : UsesTransport i := .inr hi
  obtain ⟨-, e⟩ | ⟨c, -, e⟩ | ⟨-, e⟩ := afterSends_cases i r go
  · rwa [e]
  · rw [e]
    exact .answer hr hi.transport_mem_allowedStatuses
  · rw [e]
    exact .wait hr hi

theorem EndsUnfaulted.finishTrailer (hu : u.fstat = s.fstat) : EndsUnfaulted .wrFinish s u.finishTrailer := by
  have hflush := u.flush_fstat.trans hu
  exact .afterSends (.inr (.inr rfl)) hflush (.answer hflush (ok_mem_allowedStatuses _))

theorem EndsUnfaulted.recvFinish {ty : PacketType} {base max : Idx} {b : Nat} (hu : u.fstat = s.fstat) :
    EndsUnfaulted (.rxRecv ty base max) s (u.recvFinish ty b) := by
  obtain ⟨-, e⟩ | ⟨-, st, r0, r1, hst, e⟩ := u.recvFinish_cases ty b
  · rw [e]
    exact .answer hu (ok_mem_allowedStatuses _)
  · rw [e]
    refine .answer hu ?_
    obtain rfl | rfl | rfl := hst <;> simp [allowedStatuses]

/-- The loop of R183 ends in one of its four ways, whatever it has taken before. -/
theorem EndsUnfaulted.recvLoop {ty : PacketType} {base max : Idx} {l : List SrcAnswer} (hu : u.fstat = s.fstat) :
    EndsUnfaulted (.rxRecv ty base max) s (State.recvLoop ty base max l u) := by
  have htaken : ∀ xs, (u.taken ty base.toNat xs).fstat = s.fstat := fun xs => by
    rw [State.taken_eq]
    exact hu
  have hi : UsesTransport (.rxRecv ty base max) := .inl ⟨ty, base, max, rfl⟩
  obtain ⟨xs, rest, -, -, ⟨-, e⟩ | ⟨-, -, e⟩ | ⟨-, -, low, rest', -, e⟩ | ⟨-, -, -, e⟩⟩ :=
    State.recvLoop_cases ty base max l u
  · rw [e]
    exact .recvFinish (htaken xs)
  · rw [e]
    exact .answer (htaken xs) (by simp [allowedStatuses])
  · rw [e]
    exact .answer (htaken xs) hi.transport_mem_allowedStatuses
  · rw [e]
    exact .wait (htaken xs) hi

/-! ## The operations -/

theorem execHexDec_decidedBy (hf : s.fstat.fault = false) (c0 c1 : Byte) (avail : Idx) :
    DecidedBy (.hexDec c0 c1 avail) s none (execHexDec c0 c1 avail s) := by
  have hinvalid : .invalid ∈ allowedStatuses (.hexDec c0 c1 avail) := by simp [allowedStatuses]
  refine .unlessFaulted hf ?_
  split
  · exact .answer rfl hinvalid
  · split
    · exact .answer rfl hinvalid
    · exact .answer rfl (ok_mem_allowedStatuses _)

/-- The encoder writes to `BUF` alone (R133). -/
theorem State.rleLoop_fstat (s : State) (base len : Nat) :
    (State.rleLoop base len len s 0 0).1.fstat = s.fstat := by
  rw [State.rleLoop_eq _ rfl (Nat.sub_le _ _) le_rfl, State.setBytes_eq]

theorem execRleEnc_decidedBy (hf : s.fstat.fault = false) (base len : Idx) :
    DecidedBy (.rleEnc base len) s (firstFault (.rleEnc base len) s) (execRleEnc base len s) :=
  .unlessFaulted hf <| .checkWindow <|
    .answer (s.rleLoop_fstat base.toNat len.toNat) (ok_mem_allowedStatuses _)

theorem execWrPush_decidedBy (hf : s.fstat.fault = false) (v : Byte) :
    DecidedBy (.wrPush v) s (firstFault (.wrPush v) s) (execWrPush v s) := by
  rw [firstFault_wrPush]
  exact .unlessFaulted hf <| .checkWriter <| .check bne_iff_ne <| .check (by simp) <| .next <|
    .afterSends (.inl ⟨v, rfl⟩) s.flush_fstat (.answer s.flush_fstat (ok_mem_allowedStatuses _))

theorem execWrPushAck_decidedBy (hf : s.fstat.fault = false) (f : Bool) :
    DecidedBy (.wrPushAck f) s (firstFault (.wrPushAck f) s) (execWrPushAck f s) := by
  have hsend := s.sinkSend_fstat (ackByte f)
  rw [firstFault_wrPushAck]
  exact .unlessFaulted hf <| .checkWriter <| .check (by simp) <| .check (by simp) <| .next <|
    .afterSends (.inr (.inl ⟨f, rfl⟩)) hsend (.answer hsend (ok_mem_allowedStatuses _))

/-- Only an Ack packet asks for its ack (R159, order 5). -/
theorem execWrFinish_decidedBy (hf : s.fstat.fault = false) :
    DecidedBy .wrFinish s (firstFault .wrFinish s) (execWrFinish s) := by
  rw [firstFault_wrFinish]
  refine .unlessFaulted hf (.checkWriter ?_)
  by_cases hack : s.wr.type = .ack
  · rw [if_pos hack]
    exact .check (by simp [hack]) (.answer rfl (ok_mem_allowedStatuses _))
  · rw [if_neg hack, if_neg fun h => hack h.1]
    split
    · exact .next (.finishTrailer rfl)
    · exact .next (.afterSends (.inr (.inr rfl)) s.flush_fstat (.finishTrailer s.flush_fstat))

theorem execRxRecv_decidedBy (hf : s.fstat.fault = false) (ty : PacketType) (base max : Idx) :
    DecidedBy (.rxRecv ty base max) s (firstFault (.rxRecv ty base max) s) (execRxRecv ty base max s) :=
  .unlessFaulted hf <| .checkWindow <| .next (.recvLoop rfl)

theorem execTokInit_decidedBy (hf : s.fstat.fault = false) (ty : PacketType) (base len : Idx) :
    DecidedBy (.tokInit ty base len) s (firstFault (.tokInit ty base len) s) (execTokInit ty base len s) :=
  .unlessFaulted hf <| .checkWindow <| .check (by simp [or_iff_not_imp_left]) <|
    .answer rfl (ok_mem_allowedStatuses _)

/-- The statuses of R198 and R199. -/
theorem EndsUnfaulted.advance (s : State) (m : DelimMode) (d : Byte) :
    EndsUnfaulted (.tokAdv m d) s (s.advance m d) := by
  have hstatus : ∀ found last, advStatus s.params m found last ∈ allowedStatuses (.tokAdv m d) := by
    intro found last
    cases m with
    | literal => cases found <;> simp [advStatus, allowedStatuses]
    | single => unfold advStatus; split_ifs <;> simp [allowedStatuses]
    | toEnd => exact ok_mem_allowedStatuses _
  rw [State.advance]
  split
  · exact .answer rfl (by simp [allowedStatuses])
  · exact .answer rfl (hstatus _ _)

theorem DelimMode.allowsDelim_iff (m : DelimMode) (d : Byte) :
    m.allowsDelim d = true ↔ ¬ (m ≠ .literal ∧ d ≠ 0) := by
  cases m <;> simp [DelimMode.allowsDelim]

theorem execTokAdv_decidedBy (hf : s.fstat.fault = false) (m : DelimMode) (d : Byte) :
    DecidedBy (.tokAdv m d) s (firstFault (.tokAdv m d) s) (execTokAdv m d s) := by
  refine .unlessFaulted hf <| .check (DelimMode.allowsDelim_iff m d) <| .check (by simp) <|
    .check badDelim_check_iff ?_
  split
  · exact .next (.advance s m d)
  · intro t ht
    cases ht

theorem execTokRewind_decidedBy (hf : s.fstat.fault = false) :
    DecidedBy .tokRewind s (firstFault .tokRewind s) (execTokRewind s) :=
  .unlessFaulted hf <| .check (by simp) <| .check (by simp) <| .answer rfl (ok_mem_allowedStatuses _)

theorem execCsrRd_decidedBy (hf : s.fstat.fault = false) (num : Byte) :
    DecidedBy (.csrRd num) s (firstFault (.csrRd num) s) (execCsrRd num s) := by
  rw [firstFault_csrRd]
  refine .unlessFaulted hf ?_
  cases s.csr num with
  | some v => exact .answer rfl (ok_mem_allowedStatuses _)
  | none => exact rfl

/-- On an engine without a latched fault the first failing check decides what any operation does, and where none fails
the operation ends as R220 lists. -/
theorem exec_decidedBy (hf : s.fstat.fault = false) (i : Instr) : DecidedBy i s (firstFault i s) (exec i s) := by
  cases i with
  | csumCalc base len => exact .unlessFaulted hf <| .checkWindow <| .answer rfl (ok_mem_allowedStatuses _)
  | hexDec c0 c1 avail => exact execHexDec_decidedBy hf c0 c1 avail
  | hexEnc v => exact .unlessFaulted hf <| .answer rfl (ok_mem_allowedStatuses _)
  | binEnc v => exact .unlessFaulted hf <| .answer rfl (ok_mem_allowedStatuses _)
  | binDec e => exact .unlessFaulted hf <| .answer rfl (ok_mem_allowedStatuses _)
  | rleEnc base len => exact execRleEnc_decidedBy hf base len
  | wrInit ty => exact .unlessFaulted hf <| .answer rfl (ok_mem_allowedStatuses _)
  | wrPush v => exact execWrPush_decidedBy hf v
  | wrPushAck f => exact execWrPushAck_decidedBy hf f
  | wrFinish => exact execWrFinish_decidedBy hf
  | rxRecv ty base max => exact execRxRecv_decidedBy hf ty base max
  | tokInit ty base len => exact execTokInit_decidedBy hf ty base len
  | tokAdv m d => exact execTokAdv_decidedBy hf m d
  | tokRewind => exact execTokRewind_decidedBy hf
  | bufLd idx => exact .unlessFaulted hf <| .checkIndex <| .answer rfl (ok_mem_allowedStatuses _)
  | bufSt idx v => exact .unlessFaulted hf <| .checkIndex <| .answer rfl (ok_mem_allowedStatuses _)
  | csrRd num => exact execCsrRd_decidedBy hf num

/-- The first failing check raises its cause and nothing else happens (R226, R229). -/
theorem exec_of_firstFault {c : Cause} (hf : s.fstat.fault = false) (hc : firstFault i s = some c) :
    exec i s = .next (s.raise c) := by
  have h := exec_decidedBy hf i
  rwa [hc] at h

/-- Where every check passes, the operation records no fault and ends as R220 lists. -/
theorem endsUnfaulted_of_exec {t : State} (hf : s.fstat.fault = false) (hc : firstFault i s = none)
    (ht : exec i s = .next t) : EndsUnfaulted i s t := by
  have h := exec_decidedBy hf i
  rw [hc] at h
  exact h t ht

/-- Every operation looks at `FSTAT.fault` before anything else (R226, R229). -/
theorem exec_of_latched (hf : s.fstat.fault = true) (i : Instr) : exec i s = .next s.refuse := by
  cases i <;> exact unlessFaulted_faulted hf _

end

/-- Settles O13: an operation whose checks pass records no fault, so this one raised the cause of its first failing
check. -/
theorem faultsArePrecise : Obligations.FaultsArePrecise := by
  intro i s t hf ht hfault
  cases hc : firstFault i s with
  | some c =>
    rw [exec_of_firstFault hf hc] at ht
    cases ht
    exact ⟨c, s.onlyFaults_raise c⟩
  | none =>
    rw [(endsUnfaulted_of_exec hf hc ht).fstat, hf] at hfault
    cases hfault

/-- Settles O14, the two cases of `exec_decidedBy`. -/
theorem firstFailingCheckDecidesTheFault : Obligations.FirstFailingCheckDecidesTheFault := by
  intro i s hf
  exact ⟨fun c hc => ⟨_, exec_of_firstFault hf hc, s.onlyFaults_raise c⟩,
    fun hc _ ht => (endsUnfaulted_of_exec hf hc ht).fstat⟩

/-- Settles O15: a raised fault ends the operation with FAULT, which every row lists. -/
theorem operationsEndWithTheirStatuses : Obligations.OperationsEndWithTheirStatuses := by
  intro i s t hf ht
  cases hc : firstFault i s with
  | some c =>
    rw [exec_of_firstFault hf hc] at ht
    cases ht
    exact .inr ⟨.fault, _, _, fault_mem_allowedStatuses i, (s.onlyFaults_raise c).responds⟩
  | none => exact (endsUnfaulted_of_exec hf hc ht).listed

/-- Settles O12: a refusal is an answer with the recorded cause. -/
theorem latchedFaultRefusesEveryOperation : Obligations.LatchedFaultRefusesEveryOperation := by
  intro i s hf
  exact ⟨_, exec_of_latched hf i, s.onlyResponds_answer _ _ _⟩

end Sys2Proof.Machine

/-! # The host's acknowledgement -/

namespace Sys2Proof.Machine

/-- The three operations of an Ack packet put its one byte on the wire with one request (R154, R155). -/
theorem execAll_ackPacket {s : State} {rest : List SinkAnswer} (hc : s.fstat.fault = false)
    (hs : s.sink = .done :: rest) (f : Bool) :
    ∃ t, execAll [.wrInit .ack, .wrPushAck f, .wrFinish] s = .next t ∧ t.sent = s.sent ++ [ackByte f] ∧
      t.sink = rest := by
  have hinit := exec_wrInit hc .ack
  have hpush := exec_wrPushAck_done (s := { s with wr := s.wr.init .ack }.answer .ok 0 0) hc rfl rfl rfl rfl hs f
  have hfinish := exec_wrFinish_of_ack (s := State.answer { s with
    wr := { s.wr.init .ack with ackSent := true }, sink := rest, sent := s.sent ++ [ackByte f] } .ok 0 0)
    hc rfl rfl rfl rfl
  exact ⟨_, (execAll_cons hinit).trans ((execAll_cons hpush).trans (execAll_cons hfinish)), rfl, rfl⟩

/-- Settles O43: each reply is the three operations of an Ack packet, or none. -/
theorem ackReplySendsOneByte : Obligations.AckReplySendsOneByte := by
  refine fun s rest hc hs => ⟨execAll_ackPacket hc hs true, fun st hst => ?_, fun st => rfl⟩
  obtain rfl | rfl := hst
  · exact execAll_ackPacket hc hs false
  · exact execAll_ackPacket hc hs false

end Sys2Proof.Machine

/-! # An engine that waits or idles

The operation in flight makes its next request again. Where that is not answered, what it leaves is the state it started
from: nothing was stored or sent, and the response and the operation in flight are as before. -/

namespace Sys2Proof.Machine

section
variable {s : State} {i : Instr}

/-- Waiting with an operation already in flight changes nothing (R272). -/
theorem State.wait_of_waits (h : Waits s i) : s.wait i = s := by
  rw [State.wait, ← h.rsp, ← h.busy]

/-- The clauses of the invariant for an operation in flight that every operation shares. -/
theorem EngineOk.waits (h : EngineOk s) (hb : s.busy = some i) :
    Waits s i ∧ s.fstat.fault = false ∧ firstFault i s = none := by
  have hbusy := h.busy
  rw [BusyOk, hb] at hbusy
  obtain ⟨hrsp, hf, hc, -⟩ := hbusy
  exact ⟨⟨hrsp, hb⟩, hf, hc⟩

/-! ## A receive -/

theorem continueRxRecv_of_silent {ty : PacketType} {base max : Idx} (h : EngineOk s)
    (hb : s.busy = some (.rxRecv ty base max)) (hsrc : NoSrcAnswer s.src) :
    continueRxRecv ty base max s = .next s := by
  have hbusy := h.busy
  rw [BusyOk, hb] at hbusy
  obtain ⟨-, -, -, hwin, hle, hn, hd, -⟩ := hbusy
  have hlegal : (windowLegal s.params base max && decide (s.rx.n.toNat ≤ max.toNat)) = true := by
    simpa [windowLegal_iff] using ⟨hwin, hle⟩
  rw [continueRxRecv, if_pos hlegal, State.recvLoop_silent _ _ _ _ _ hd hn hsrc]
  exact congrArg _ (State.wait_of_waits (h.waits hb).1)

/-! ## A writer operation -/

/-- A check in the order of the faults, and those behind it, pass together. -/
theorem ite_some_eq_none_iff {bad : Prop} [Decidable bad] {c : Cause} {o : Option Cause} :
    (if bad then some c else o) = none ↔ ¬ bad ∧ o = none := by
  by_cases h : bad <;> simp [h]

theorem wrFault_eq_none_iff {w : Wr} : wrFault w = none ↔ w.valid = true ∧ w.finished = false := by
  simp [wrFault, ite_some_eq_none_iff]

/-- A packet in progress always holds a byte back, of its payload or of its trailer (R150, R155). -/
theorem Wr.InProgress.laN_pos {w : Wr} (h : w.InProgress) (hw : WrOk w) : 0 < w.laN.toNat := by
  cases htr : w.trailer with
  | true => exact Nat.pos_of_ne_zero fun e => (h.wrOk_iff_of_trailer htr).mp hw (BitVec.eq_of_toNat_eq e)
  | false =>
    rw [(h.wrOk_iff_of_payload htr).mp hw]
    decide

/-- A flush that sends nothing leaves the state as it is. -/
theorem State.flushed_zero (s : State) : s.flushed 0 s.sink = s := by
  simp [State.flushed, Wr.shiftN, Wr.firstOut]

theorem exec_wrPush_of_silent {v : Byte} (h : EngineOk s) (hb : s.busy = some (.wrPush v))
    (hsink : NoSinkAnswer s.sink) : exec (.wrPush v) s = .next s := by
  obtain ⟨hwaits, hc, hchecks⟩ := h.waits hb
  rw [firstFault_wrPush, Option.or_eq_none_iff, wrFault_eq_none_iff, ite_some_eq_none_iff,
    ite_some_eq_none_iff, Bool.not_eq_true] at hchecks
  obtain ⟨⟨hv, hf⟩, ht, htr, -⟩ := hchecks
  have hpos := (h.wr.inProgress hv ht hf).laN_pos h.wr
  rw [exec_wrPush_waits hc hv hf ht htr hpos hsink rfl, State.flushed_zero, State.wait_of_waits hwaits]

theorem exec_wrPushAck_of_silent {f : Bool} (h : EngineOk s) (hb : s.busy = some (.wrPushAck f))
    (hsink : NoSinkAnswer s.sink) : exec (.wrPushAck f) s = .next s := by
  obtain ⟨hwaits, hc, hchecks⟩ := h.waits hb
  rw [firstFault_wrPushAck, Option.or_eq_none_iff, wrFault_eq_none_iff, ite_some_eq_none_iff,
    ite_some_eq_none_iff, not_not, Bool.not_eq_true] at hchecks
  obtain ⟨⟨hv, hf⟩, ht, ha, -⟩ := hchecks
  rw [exec_wrPushAck_waits hc hv hf ht ha hsink, State.wait_of_waits hwaits]

theorem exec_wrFinish_of_silent (h : EngineOk s) (hb : s.busy = some .wrFinish) (hsink : NoSinkAnswer s.sink) :
    exec .wrFinish s = .next s := by
  obtain ⟨hwaits, hc, hchecks⟩ := h.waits hb
  rw [firstFault_wrFinish, Option.or_eq_none_iff, wrFault_eq_none_iff] at hchecks
  obtain ⟨⟨hv, hf⟩, -⟩ := hchecks
  have hbusy := h.busy
  rw [BusyOk, hb] at hbusy
  obtain ⟨-, -, -, ht⟩ := hbusy
  have hpos := (h.wr.inProgress hv ht hf).laN_pos h.wr
  rw [exec_wrFinish_waits_in_queue hc hv hf ht hpos hsink rfl, State.flushed_zero, State.wait_of_waits hwaits]

/-! ## The operations in flight -/

theorem EngineOk.usesTransport (h : EngineOk s) (hb : s.busy = some i) : UsesTransport i := by
  have hbusy := h.busy
  rw [BusyOk, hb] at hbusy
  obtain ⟨-, -, -, hi⟩ := hbusy
  cases i with
  | rxRecv ty base max => exact .inl ⟨ty, base, max, rfl⟩
  | wrPush v => exact .inr (.inl ⟨v, rfl⟩)
  | wrPushAck f => exact .inr (.inr (.inl ⟨f, rfl⟩))
  | wrFinish => exact .inr (.inr (.inr rfl))
  | _ => exact hi.elim

end

/-- Settles O8: the operation goes on, makes its next request, and waits as it did. -/
theorem unansweredOperationStaysInFlight : Obligations.UnansweredOperationStaysInFlight := by
  intro s i h hb hhost hsrc hsink
  rw [step_busy hb hhost]
  obtain ⟨ty, base, max, rfl⟩ | hi := h.usesTransport hb
  · exact continueRxRecv_of_silent h hb (hsrc ⟨ty, base, max, rfl⟩)
  · have hsilent := hsink hi
    obtain ⟨v, rfl⟩ | ⟨f, rfl⟩ | rfl := hi
    · exact exec_wrPush_of_silent h hb hsilent
    · exact exec_wrPushAck_of_silent h hb hsilent
    · exact exec_wrFinish_of_silent h hb hsilent

/-- Settles O7. -/
theorem idleEngineDoesNothing : Obligations.IdleEngineDoesNothing :=
  fun _ => step_idle

end Sys2Proof.Machine

/-! # What reset leaves of the transport -/

namespace Sys2Proof.Machine

section
variable {s : State} {i : Instr}

/-! ## The request in flight -/

/-- The transport after a reset is what the abandoned request leaves of it (R260). -/
theorem State.afterReset_keepsTransport (s : State) : KeepsTransport s.abandonBusy s.afterReset :=
  ⟨rfl, rfl, rfl⟩

theorem State.abandonBusy_idle (hb : s.busy = none) : s.abandonBusy = s := by
  rw [State.abandonBusy, hb]

theorem State.abandonBusy_busy (hb : s.busy = some i) : s.abandonBusy = s.abandon i := by
  rw [State.abandonBusy, hb]

/-- Of a receive the source may have lost the byte requested (U10). -/
theorem State.abandon_rxRecv_cases (s : State) (ty : PacketType) (base max : Idx) :
    s.abandon (.rxRecv ty base max) = { s with src := dropSilentSrc s.src } ∨
      ∃ x rest, dropSilentSrc s.src = .byte x :: rest ∧
        s.abandon (.rxRecv ty base max) = { s with src := rest } := by
  unfold State.abandon
  dsimp only
  split
  · next x rest hsrc _ => exact .inr ⟨x, rest, hsrc, rfl⟩
  · exact .inl rfl

/-- Of a writer operation the sink may have accepted the byte offered (U10). -/
theorem State.abandon_offered_cases {b : Byte} (ho : s.offered i = some b) :
    s.abandon i = { s with sink := dropSilentSink s.sink } ∨
      s.abandon i = { s with sink := dropSilentSink s.sink, sent := s.sent ++ [b] } := by
  have hi : ∀ ty base max, i ≠ .rxRecv ty base max := by
    rintro ty base max rfl
    cases ho
  unfold State.abandon
  split
  · exact absurd rfl (hi _ _ _)
  · cases hfree : Config.abandonedTransfers s.seed with
    | true => simp [ho]
    | false => simp [ho]

/-! ## The transport after a reset -/

theorem State.afterReset_of_idle (hb : s.busy = none) : KeepsTransport s s.afterReset := by
  have h := s.afterReset_keepsTransport
  rwa [State.abandonBusy_idle hb] at h

theorem State.afterReset_of_rxRecv {ty : PacketType} {base max : Idx} (hb : s.busy = some (.rxRecv ty base max)) :
    s.afterReset.sink = s.sink ∧ s.afterReset.sent = s.sent ∧
      (s.afterReset.src = dropSilentSrc s.src ∨ ∃ x, dropSilentSrc s.src = .byte x :: s.afterReset.src) := by
  obtain ⟨hsrc, hsink, hsent⟩ := s.afterReset_keepsTransport
  rw [hsrc, hsink, hsent, State.abandonBusy_busy hb]
  obtain e | ⟨x, rest, hx, e⟩ := s.abandon_rxRecv_cases ty base max
  · rw [e]
    exact ⟨rfl, rfl, .inl rfl⟩
  · rw [e]
    exact ⟨rfl, rfl, .inr ⟨x, hx⟩⟩

theorem State.afterReset_of_offered {b : Byte} (hb : s.busy = some i) (ho : s.offered i = some b) :
    s.afterReset.src = s.src ∧ s.afterReset.sink = dropSilentSink s.sink ∧
      (s.afterReset.sent = s.sent ∨ s.afterReset.sent = s.sent ++ [b]) := by
  obtain ⟨hsrc, hsink, hsent⟩ := s.afterReset_keepsTransport
  rw [hsrc, hsink, hsent, State.abandonBusy_busy hb]
  obtain e | e := State.abandon_offered_cases ho
  · rw [e]
    exact ⟨rfl, rfl, .inl rfl⟩
  · rw [e]
    exact ⟨rfl, rfl, .inr rfl⟩

end

/-- Settles O10, by what was in flight. -/
theorem resetKeepsWhatTheTransportDid : Obligations.ResetKeepsWhatTheTransportDid := by
  intro s rest hhost
  refine ⟨_, step_reset hhost, fun hb => ?_, fun ty base max hb => ?_, fun v hb => ?_, fun f hb => ?_⟩
  · obtain ⟨hsrc, hsink, hsent⟩ := State.afterReset_of_idle (s := s.afterEvent) hb
    exact ⟨hsrc, hsink, hsent⟩
  · exact State.afterReset_of_rxRecv (s := s.afterEvent) hb
  · obtain hb | hb := hb
    · exact State.afterReset_of_offered (s := s.afterEvent) hb rfl
    · exact State.afterReset_of_offered (s := s.afterEvent) hb rfl
  · exact State.afterReset_of_offered (s := s.afterEvent) hb rfl

end Sys2Proof.Machine
